-- ==== Sys2Proof/Word.lean ====
section
/-! DEFINITION. The word types of QRE: bytes, 32-bit registers and command words, 24-bit host addresses.
Every value of QRE is unsigned (00_scope.md R11). -/

namespace Sys2Proof

/-- A byte: a codeword, a text byte, a GF(256) element (41_gf.md R199), an operand byte (30_encoding.md R141). -/
abbrev Byte := BitVec 8

/-- A 32-bit register or command word (10_state.md R33, 30_encoding.md R140). -/
abbrev Word := BitVec 32

/-- An address of the host's 24-bit byte address space (20_memory.md R100). -/
abbrev BusAddr := BitVec 24

end Sys2Proof
end

