-- ==== Sys2Proof/Config.lean ====
section
/-! DEFINITION. The constants that fix QRE (00_scope.md R8) and the bounds of its one parameter (R9). -/

namespace Sys2Proof.Config

/-- The constant of the ID register (10_state.md R32). -/
def idValue : Word := 0x51520007#32

/-- Bytes of TXT (10_state.md R73). -/
def txtSize : Nat := 8192

/-- Bytes of CWM (10_state.md R74). -/
def cwmSize : Nat := 8192

/-- Cells in one row of MXM, whatever the symbol's size (10_state.md R70). -/
def mxmStride : Nat := 177

/-- Bytes of MXM: 177 rows of 177 cells (10_state.md R70). -/
def mxmSize : Nat := 31329

/-- Where CWM's final region begins (10_state.md R74). -/
def finalBase : Nat := 0x1000

/-- The least PIX_MAX_PIXELS (00_scope.md R9). -/
def pixMaxLeast : Nat := 31329

/-- The greatest PIX_MAX_PIXELS (20_memory.md R100). -/
def pixMaxGreatest : Nat := 3145728

/-- The default PIX_MAX_PIXELS (00_scope.md R8). -/
def pixMaxDefault : Nat := 1048576

/-- Reset values that are not zero (10_state.md R33). -/
def levelReset : BitVec 2 := 1#2

def quietReset : Byte := 4#8

def darkReset : Word := 0x000000FF#32

def lightReset : Word := 0xFFFFFFFF#32

end Sys2Proof.Config
end

