-- ==== Sys2Proof/Machine/State.lean ====
section
/-! DEFINITION. The state of one QRE instance (10_state.md), as plain data, its errors and the ways a step can stop. -/

namespace Sys2Proof.Machine

/-- The errors a command reports (60_exceptions.md R520). They do not stop the machine. -/
inductive ErrorCode where
  | inputTooLarge
  | divideByZero
  | invalidParameter
  | illegalCommand
  | sequence
  | invariant
  deriving DecidableEq, Repr

/-- The STATUS fields (10_state.md R36 to R40): QRE's only flags (R63). -/
structure Status where
  busy : Bool
  done : Bool
  err : Bool
  overrun : Bool
  deriving DecidableEq, Repr

/-- Bytes by address, in one canonical form (`Memory.wf`): addresses strictly rising, no byte equal to what an unlisted
address reads as. -/
abbrev Memory := List Host.Cell

/-- The width of a host access (20_memory.md R102, R103). -/
inductive Width where
  | byte
  | half
  | word
  deriving DecidableEq, Repr

/-- One access of the host (20_memory.md R99). A byte write moves `data`'s low byte. -/
inductive Access where
  | read (w : Width) (addr : BusAddr)
  | write (w : Width) (addr : BusAddr) (data : Word)
  deriving DecidableEq, Repr

/-- One turn of the interleaving of the two agents (20_memory.md R116, R117; log 1). -/
inductive Turn where
  /-- the engine may take its step -/
  | engine
  /-- the host makes one access -/
  | host (a : Access)
  deriving DecidableEq, Repr

/-- The bus errors of a host access (20_memory.md R101; the four names are log 9's): the outcome `fault` of the host's step.
`busTarget` raises them. QRE goes on after one (log 9): `step` answers the access with it and changes nothing else, so no
step of the machine stops. -/
inductive Fault where
  /-- the access reaches an address of no region (20_memory.md R101), or runs past the end of one, which is unsafe (log 5);
  raised by `busTarget`, otherwise safe -/
  | unmapped
  /-- a register access that is not an aligned word (20_memory.md R102); raised by `busTarget`; safe -/
  | registerAccess
  /-- a halfword access to a memory (20_memory.md R103); raised by `busTarget`; safe -/
  | halfword
  /-- a word access to a memory at an address that is no multiple of 4 (20_memory.md R103); raised by `busTarget`; safe -/
  | misaligned
  deriving DecidableEq, Repr

/-- What the last completed host access was answered (log 4). -/
inductive BusReply where
  /-- no access has completed yet -/
  | none
  /-- a write, stored, ignored or dropped -/
  | written
  /-- a byte read -/
  | byteRead (b : Byte)
  /-- a word read -/
  | wordRead (w : Word)
  /-- a bus error: the access had no effect (20_memory.md R101, log 9) -/
  | busError (f : Fault)
  deriving DecidableEq, Repr

/-- The state of one QRE instance. A register's field is as wide as the fields it uses: the other bits read 0
(10_state.md R34). ID is a constant and CTRL always reads 0, so neither has a field. -/
structure State where
  /-- STATUS, 10_state.md R36 -/
  status : Status
  /-- ERRCODE.CODE, 10_state.md R41 -/
  errcode : Byte
  /-- CMD, the last accepted command word, 10_state.md R42, R64 -/
  cmd : Word
  /-- RESULT, 10_state.md R43 -/
  result : Byte
  /-- LEVEL, 10_state.md R44 -/
  level : BitVec 2
  /-- TEXT_LEN, 10_state.md R47 -/
  textLen : BitVec 14
  /-- MODE, 10_state.md R48 -/
  mode : BitVec 4
  /-- VERSION, 10_state.md R49 -/
  version : BitVec 6
  /-- MASK, 10_state.md R50 -/
  mask : BitVec 3
  /-- PHASE, 10_state.md R45 -/
  phase : BitVec 3
  /-- SRC, 10_state.md R53 -/
  src : BitVec 16
  /-- DST, 10_state.md R53 -/
  dst : BitVec 16
  /-- LEN, 10_state.md R53 -/
  len : BitVec 16
  /-- DATA_CW, 10_state.md R54 -/
  dataCw : BitVec 16
  /-- TOTAL_CW, 10_state.md R54 -/
  totalCw : BitVec 16
  /-- BITLEN, 10_state.md R54 -/
  bitLen : BitVec 16
  /-- MX_SIZE, 10_state.md R55 -/
  mxSize : BitVec 8
  /-- PENALTY, 10_state.md R51 -/
  penalty : Word
  /-- PEN_N1, 10_state.md R51 -/
  penN1 : Word
  /-- PEN_N2, 10_state.md R51 -/
  penN2 : Word
  /-- PEN_N3, 10_state.md R51 -/
  penN3 : Word
  /-- PEN_N4, 10_state.md R51 -/
  penN4 : Word
  /-- SCORE0 to SCORE7, 10_state.md R52 -/
  scores : Vector Word 8
  /-- PIX_SIZE, 10_state.md R56 -/
  pixSize : BitVec 16
  /-- QUIET, 10_state.md R56 -/
  quiet : Byte
  /-- DARK, 10_state.md R57 -/
  dark : Word
  /-- LIGHT, 10_state.md R57 -/
  light : Word
  /-- PIX_SIDE, 10_state.md R58 -/
  pixSide : BitVec 16
  /-- PIX_SCALE, 10_state.md R58 -/
  pixScale : BitVec 16
  /-- PIX_OFFSET, 10_state.md R58 -/
  pixOffset : BitVec 16
  /-- TXT, 10_state.md R73 -/
  txt : Memory
  /-- CWM, 10_state.md R74 -/
  cwm : Memory
  /-- MXM, 10_state.md R70 -/
  mxm : Memory
  /-- PIX, 10_state.md R75 -/
  pix : Memory
  /-- PIX_MAX_PIXELS, the parameter of 00_scope.md R9 (log 3) -/
  pixMax : Nat
  /-- the turns still to come (log 1) -/
  turns : List Turn
  /-- the answer of the last host access (log 4) -/
  reply : BusReply
  deriving DecidableEq, Repr

/-- Why a command has no meaning. Raised by `exec`'s refused arms only, and no arm is refused; safe. -/
inductive Refusal where
  | notModelled (mnemonic : String)
  deriving DecidableEq, Repr

/-- A hard reset (70_reset_and_hazards.md R570): every register at its reset value, whatever the memories hold (R573),
the turns to come being `turns`. -/
def State.powerOn (txt cwm mxm pix : Memory) (pixMax : Nat) (turns : List Turn) : State :=
  { status := ⟨false, false, false, false⟩, errcode := 0#8, cmd := 0#32, result := 0#8
    level := Config.levelReset, textLen := 0#14, mode := 0#4, version := 0#6, mask := 0#3, phase := 0#3
    src := 0#16, dst := 0#16, len := 0#16, dataCw := 0#16, totalCw := 0#16, bitLen := 0#16, mxSize := 0#8
    penalty := 0#32, penN1 := 0#32, penN2 := 0#32, penN3 := 0#32, penN4 := 0#32
    scores := #v[0#32, 0#32, 0#32, 0#32, 0#32, 0#32, 0#32, 0#32]
    pixSize := 0#16, quiet := Config.quietReset, dark := Config.darkReset, light := Config.lightReset
    pixSide := 0#16, pixScale := 0#16, pixOffset := 0#16
    txt := txt, cwm := cwm, mxm := mxm, pix := pix, pixMax := pixMax, turns := turns, reply := .none }

/-- The machine right after reset, with nothing listed in its memories (log 2) and the default PIX_MAX_PIXELS. -/
def State.reset : State := State.powerOn [] [] [] [] Config.pixMaxDefault []

end Sys2Proof.Machine
end

