-- ==== Sys2Proof/Machine/Flags.lean ====
section
/-! DEFINITION. Every flag computation of QRE: the four STATUS fields (10_state.md R36 to R40). There are no condition
codes (R63). -/

namespace Sys2Proof.Machine

/-- A flag as a bit. -/
def bit (b : Bool) : BitVec 1 := BitVec.ofBool b

/-- STATUS as the host reads it: BUSY bit 0, DONE bit 1, ERR bit 2, OVERRUN bit 3, the rest 0 (10_state.md R36). -/
def Status.toWord (f : Status) : Word := 0#28 ++ bit f.overrun ++ bit f.err ++ bit f.done ++ bit f.busy

/-- The flags when a command is accepted (10_state.md R37 to R39, R42). -/
def Status.accepted (f : Status) : Status := { f with busy := true, done := false, err := false }

/-- The flags when the engine completes a command, `failed` when it raised an error (10_state.md R37 to R40). -/
def Status.completed (f : Status) (failed : Bool) : Status := { f with busy := false, done := true, err := failed }

/-- OVERRUN set by a dropped write (10_state.md R40). -/
def Status.setOverrun (f : Status) : Status := { f with overrun := true }

/-- A host write to STATUS: 1 in bit 3 clears OVERRUN, nothing else is writable (10_state.md R36, R40). -/
def Status.hostWrite (f : Status) (v : Word) : Status := { f with overrun := f.overrun && !v.getLsbD 3 }

end Sys2Proof.Machine
end

