-- ==== Sys2Proof/Machine/Operands.lean ====
section
/-! DEFINITION. The operands of commands: operand bytes (30_encoding.md R141), and the registers a command reads as
numbers, with the legality checks the commands make (10_state.md R34, R44, R47 to R49). -/

namespace Sys2Proof.Machine

/-- An operand byte as a number: zero-extended, never sign-extended or scaled (30_encoding.md R141). -/
def operandNat (b : Byte) : Nat := b.toNat

/-- The error-correction levels, in the order of the LEVEL codes (10_state.md R44). -/
inductive EcLevel where
  | l
  | m
  | q
  | h
  deriving DecidableEq, Repr

/-- The level of a LEVEL code; all four are legal (10_state.md R44). -/
def EcLevel.ofCode (c : BitVec 2) : EcLevel :=
  match c.toNat with
  | 0 => .l
  | 1 => .m
  | 2 => .q
  | _ => .h

/-- The encoding modes (10_state.md R48). -/
inductive Mode where
  | numeric
  | alphanumeric
  | byte
  deriving DecidableEq, Repr

/-- The 4-bit mode indicator (10_state.md R48). -/
def Mode.code : Mode → BitVec 4
  | .numeric => 0b0001#4
  | .alphanumeric => 0b0010#4
  | .byte => 0b0100#4

/-- The mode of a MODE register value; every other value is illegal (10_state.md R48). -/
def Mode.ofCode (c : BitVec 4) : Option Mode :=
  match c.toNat with
  | 1 => some .numeric
  | 2 => some .alphanumeric
  | 4 => some .byte
  | _ => none

/-- VERSION as a number. -/
def State.versionNat (s : State) : Nat := s.version.toNat

/-- The level LEVEL holds. -/
def State.ecLevel (s : State) : EcLevel := EcLevel.ofCode s.level

/-- TEXT_LEN as a number, the text's length L (43_data_encoder.md R259). -/
def State.textBytes (s : State) : Nat := s.textLen.toNat

/-- PHASE as a number (10_state.md R45). -/
def State.phaseNat (s : State) : Nat := s.phase.toNat

/-- The versions 1 to 40 are legal (10_state.md R49). -/
def legalVersion (v : Nat) : Bool := 1 ≤ v && v ≤ 40

/-- The text lengths 0 to 8192 are legal (10_state.md R47). -/
def legalTextLen (n : Nat) : Bool := n ≤ Config.txtSize

/-- Whether a range of CWM fits in CWM (42_rs.md R240, R241). -/
def cwmRangeFits (base n : Nat) : Bool := base + n ≤ Config.cwmSize

/-- The module grid side of a version (45_matrix.md R350). -/
def gridSide (v : Nat) : Nat := 17 + 4 * v

/-- The mask index of an operand byte, when it is one (46_mask.md R430, R432). -/
def maskIndex (k : Byte) : Option (BitVec 3) := if k.toNat ≤ 7 then some (k.setWidth 3) else none

end Sys2Proof.Machine
end

