-- ==== Sys2Proof/Machine/Ops.lean ====
section
/-! DEFINITION. The shared operations: memories, the completion of a command with and without an error, the acceptance
of the next one, soft reset, and the register map (10_state.md R33). -/

namespace Sys2Proof.Machine

/-! ### Memories -/

/-- What an address reads as that no entry lists. DESIGN CHOICE, unsafe (log 2): the spec leaves the contents after a
hard reset unspecified (70_reset_and_hazards.md R573). -/
def Memory.unlisted : Byte := 0#8

/-- The byte at an address. -/
def Memory.read : Memory → Nat → Byte
  | [], _ => Memory.unlisted
  | (k, b) :: m, a => if k = a then b else Memory.read m a

/-- The entries that make `bs` stand at `a` upward. -/
def Memory.ofBytes (a : Nat) (bs : List Byte) : Memory :=
  ((bs.zipIdx a).filter (fun x => x.1 != Memory.unlisted)).map (fun x => (x.2, x.1))

/-- `MemWrite` (00_scope.md R13): the bytes `bs` at `a` upward, every other byte as it was. -/
def Memory.write (m : Memory) (a : Nat) (bs : List Byte) : Memory :=
  m.filter (fun c => c.1 < a) ++ (Memory.ofBytes a bs ++ m.filter (fun c => a + bs.length ≤ c.1))

/-- `MemRead` (00_scope.md R13): `n` bytes from `a` upward. The entries outside the range are dropped first. -/
def Memory.readBytes (m : Memory) (a n : Nat) : List Byte :=
  let seg := m.filter (fun c => a ≤ c.1 && c.1 < a + n)
  (List.range n).map (fun i => Memory.read seg (a + i))

/-- Addresses strictly rise from `lo` on, and no entry is equal to what an unlisted address reads as. -/
def Memory.wfFrom : Nat → Memory → Bool
  | _, [] => true
  | lo, (a, b) :: m => lo ≤ a && b != Memory.unlisted && Memory.wfFrom (a + 1) m

/-- The canonical form of a memory. -/
def Memory.wf (m : Memory) : Bool := Memory.wfFrom 0 m

/-- Every listed address is below `n`. -/
def Memory.below (m : Memory) (n : Nat) : Bool := m.all (fun c => c.1 < n)

/-- The 32-bit word of four bytes in increasing addresses: little-endian (20_memory.md R108). -/
def wordOf (b0 b1 b2 b3 : Byte) : Word := b3 ++ b2 ++ b1 ++ b0

/-- The four bytes of a word in increasing addresses (20_memory.md R108). -/
def bytesOfWord (w : Word) : List Byte :=
  [w.extractLsb' 0 8, w.extractLsb' 8 8, w.extractLsb' 16 8, w.extractLsb' 24 8]

/-- |a - b|. -/
def absDiff (a b : Nat) : Nat := (a - b) + (b - a)

/-! ### Errors and completion -/

/-- The number ERRCODE reports for an error (60_exceptions.md R520). -/
def ErrorCode.code : ErrorCode → Byte
  | .inputTooLarge => 1#8
  | .divideByZero => 2#8
  | .invalidParameter => 3#8
  | .illegalCommand => 4#8
  | .sequence => 5#8
  | .invariant => 6#8

/-- What a command's rule computes: the registers and memories after it, or the first error its pseudocode raises. -/
abbrev CmdResult := Except ErrorCode State

/-- A command raises an error: the one exception QRE takes (60_exceptions.md R523, R524). ERRCODE and STATUS are
written and nothing else; control goes nowhere, since there is no handler. -/
def State.raise (s : State) (e : ErrorCode) : State :=
  { s with errcode := e.code, status := s.status.completed true }

/-- A command succeeds (20_memory.md R104): `s` holds its writes. -/
def State.succeed (s : State) : State :=
  { s with errcode := 0#8, status := s.status.completed false }

/-- The engine completes a command that began in `s` (20_memory.md R104): all its writes, or none of them. -/
def State.complete (s : State) (r : CmdResult) : State :=
  match r with
  | .ok t => t.succeed
  | .error e => s.raise e

/-- A command's step as an outcome of the machine. -/
def State.finish (s : State) (r : CmdResult) : Host.Outcome State Fault Refusal := .next (s.complete r)

/-- The host's next command is accepted (10_state.md R42). After a failed command this is all the return there is
(60_exceptions.md R525): it clears DONE and ERR, and ERRCODE keeps the old code. -/
def State.accept (s : State) (w : Word) : State := { s with cmd := w, status := s.status.accepted }

/-- A write that is dropped because a command is pending (20_memory.md R106). -/
def State.overrun (s : State) : State := { s with status := s.status.setOverrun }

/-- The soft reset (70_reset_and_hazards.md R571): every register at its hard-reset value, a pending command gone, the
memories as they are. -/
def State.softReset (s : State) : State :=
  { State.powerOn s.txt s.cwm s.mxm s.pix s.pixMax s.turns with reply := s.reply }

/-! ### The register map -/

/-- The registers by name (10_state.md R33). -/
inductive Reg where
  | id
  | ctrl
  | status
  | errcode
  | cmd
  | result
  | level
  | textLen
  | mode
  | version
  | mask
  | phase
  | src
  | dst
  | len
  | dataCw
  | totalCw
  | bitLen
  | mxSize
  | penalty
  | penN1
  | penN2
  | penN3
  | penN4
  | score (k : Fin 8)
  | pixSize
  | quiet
  | dark
  | light
  | pixSide
  | pixScale
  | pixOffset
  deriving DecidableEq, Repr

/-- A register's byte offset (10_state.md R33). -/
def Reg.offset : Reg → Nat
  | .id => 0x00
  | .ctrl => 0x04
  | .status => 0x08
  | .errcode => 0x0C
  | .cmd => 0x10
  | .result => 0x14
  | .level => 0x18
  | .textLen => 0x1C
  | .mode => 0x20
  | .version => 0x24
  | .mask => 0x28
  | .phase => 0x2C
  | .src => 0x30
  | .dst => 0x34
  | .len => 0x38
  | .dataCw => 0x3C
  | .totalCw => 0x40
  | .bitLen => 0x44
  | .mxSize => 0x48
  | .penalty => 0x4C
  | .penN1 => 0x50
  | .penN2 => 0x54
  | .penN3 => 0x58
  | .penN4 => 0x5C
  | .score k => 0x60 + 4 * k.val
  | .pixSize => 0x80
  | .quiet => 0x84
  | .dark => 0x88
  | .light => 0x8C
  | .pixSide => 0x90
  | .pixScale => 0x94
  | .pixOffset => 0x98

/-- The register at an offset; none at the reserved offsets 0x9C to 0xFC (10_state.md R33, R59). -/
def Reg.ofOffset (off : Nat) : Option Reg :=
  match off with
  | 0x00 => some .id
  | 0x04 => some .ctrl
  | 0x08 => some .status
  | 0x0C => some .errcode
  | 0x10 => some .cmd
  | 0x14 => some .result
  | 0x18 => some .level
  | 0x1C => some .textLen
  | 0x20 => some .mode
  | 0x24 => some .version
  | 0x28 => some .mask
  | 0x2C => some .phase
  | 0x30 => some .src
  | 0x34 => some .dst
  | 0x38 => some .len
  | 0x3C => some .dataCw
  | 0x40 => some .totalCw
  | 0x44 => some .bitLen
  | 0x48 => some .mxSize
  | 0x4C => some .penalty
  | 0x50 => some .penN1
  | 0x54 => some .penN2
  | 0x58 => some .penN3
  | 0x5C => some .penN4
  | 0x60 => some (.score 0)
  | 0x64 => some (.score 1)
  | 0x68 => some (.score 2)
  | 0x6C => some (.score 3)
  | 0x70 => some (.score 4)
  | 0x74 => some (.score 5)
  | 0x78 => some (.score 6)
  | 0x7C => some (.score 7)
  | 0x80 => some .pixSize
  | 0x84 => some .quiet
  | 0x88 => some .dark
  | 0x8C => some .light
  | 0x90 => some .pixSide
  | 0x94 => some .pixScale
  | 0x98 => some .pixOffset
  | _ => none

/-- What the host reads from a register: the fields used, zero-extended (10_state.md R34). -/
def State.readReg (s : State) : Reg → Word
  | .id => Config.idValue
  | .ctrl => 0#32
  | .status => s.status.toWord
  | .errcode => s.errcode.setWidth 32
  | .cmd => s.cmd
  | .result => s.result.setWidth 32
  | .level => s.level.setWidth 32
  | .textLen => s.textLen.setWidth 32
  | .mode => s.mode.setWidth 32
  | .version => s.version.setWidth 32
  | .mask => s.mask.setWidth 32
  | .phase => s.phase.setWidth 32
  | .src => s.src.setWidth 32
  | .dst => s.dst.setWidth 32
  | .len => s.len.setWidth 32
  | .dataCw => s.dataCw.setWidth 32
  | .totalCw => s.totalCw.setWidth 32
  | .bitLen => s.bitLen.setWidth 32
  | .mxSize => s.mxSize.setWidth 32
  | .penalty => s.penalty
  | .penN1 => s.penN1
  | .penN2 => s.penN2
  | .penN3 => s.penN3
  | .penN4 => s.penN4
  | .score k => s.scores[k]
  | .pixSize => s.pixSize.setWidth 32
  | .quiet => s.quiet.setWidth 32
  | .dark => s.dark
  | .light => s.light
  | .pixSide => s.pixSide.setWidth 32
  | .pixScale => s.pixScale.setWidth 32
  | .pixOffset => s.pixOffset.setWidth 32

/-- The host writes a register and no command is pending: the effect of 10_state.md R33 to R58 and the PHASE change of
R46. Read-only registers ignore the write. -/
def State.writeReg (s : State) (v : Word) : Reg → State
  | .ctrl => if v.getLsbD 0 then s.softReset else s
  | .status => { s with status := s.status.hostWrite v }
  | .cmd => s.accept v
  | .level => { s with level := v.setWidth 2, phase := if s.phase.toNat ≤ 1 then s.phase else 1#3 }
  | .textLen => { s with textLen := v.setWidth 14, phase := 0#3 }
  | .mode => { s with mode := v.setWidth 4, phase := 1#3 }
  | .version => { s with version := v.setWidth 6, phase := if 1 ≤ s.phase.toNat then 2#3 else s.phase }
  | .src => { s with src := v.setWidth 16 }
  | .dst => { s with dst := v.setWidth 16 }
  | .len => { s with len := v.setWidth 16 }
  | .pixSize => { s with pixSize := v.setWidth 16 }
  | .quiet => { s with quiet := v.setWidth 8 }
  | .dark => { s with dark := v }
  | .light => { s with light := v }
  | .id | .errcode | .result | .mask | .phase | .dataCw | .totalCw | .bitLen | .mxSize => s
  | .penalty | .penN1 | .penN2 | .penN3 | .penN4 | .score _ | .pixSide | .pixScale | .pixOffset => s

end Sys2Proof.Machine
end

