-- ==== Sys2Proof/Machine/Bus.lean ====
section
/-! DEFINITION. The host's accesses (20_memory.md): the address map, the widths and alignments each region accepts, and
what a read or a write does. -/

namespace Sys2Proof.Machine

/-- The four memories (20_memory.md R100). -/
inductive Space where
  | txt
  | cwm
  | mxm
  | pix
  deriving DecidableEq, Repr

/-- A memory's first host address (20_memory.md R100). -/
def Space.base : Space → Nat
  | .txt => 0x010000
  | .cwm => 0x020000
  | .mxm => 0x030000
  | .pix => 0x400000

/-- A memory's size in bytes (20_memory.md R100). -/
def Space.size (pixMax : Nat) : Space → Nat
  | .txt => Config.txtSize
  | .cwm => Config.cwmSize
  | .mxm => Config.mxmSize
  | .pix => 4 * pixMax

/-- What a host address reaches. -/
inductive Place where
  /-- the register region, at a byte offset -/
  | reg (off : Nat)
  /-- a memory, at a byte address of its own -/
  | mem (sp : Space) (a : Nat)
  deriving DecidableEq, Repr

/-- A host address is inside a memory. -/
def Space.holds (pixMax addr : Nat) (sp : Space) : Bool := sp.base ≤ addr && addr < sp.base + sp.size pixMax

/-- The address map (20_memory.md R100); none where nothing is mapped. -/
def placeOf (pixMax addr : Nat) : Option Place :=
  if addr < 0x100 then some (.reg addr)
  else
    match [Space.txt, Space.cwm, Space.mxm, Space.pix].find? (Space.holds pixMax addr) with
    | some sp => some (.mem sp (addr - sp.base))
    | none => none

/-- Whether the access is one QRE answers, and what it reaches (20_memory.md R101 to R103). A word that runs past the end
of its region reaches an unmapped byte (log 5); the order of the checks is log 12's. -/
def busTarget (pixMax : Nat) (w : Width) (addr : BusAddr) : Except Fault Place :=
  match placeOf pixMax addr.toNat with
  | none => .error .unmapped
  | some (.reg off) => if w = .word ∧ off % 4 = 0 then .ok (.reg off) else .error .registerAccess
  | some (.mem sp a) =>
    match w with
    | .byte => .ok (.mem sp a)
    | .half => .error .halfword
    | .word =>
      if addr.toNat % 4 = 0 then
        if a + 4 ≤ sp.size pixMax then .ok (.mem sp a) else .error .unmapped
      else .error .misaligned

/-- A memory's contents. -/
def State.space (s : State) : Space → Memory
  | .txt => s.txt
  | .cwm => s.cwm
  | .mxm => s.mxm
  | .pix => s.pix

/-- The bits of a byte a memory holds and shows: bits [2:0] in MXM, all elsewhere (10_state.md R70, 20_memory.md R111). -/
def Space.keep (sp : Space) (b : Byte) : Byte :=
  match sp with
  | .mxm => b &&& 0b111#8
  | _ => b

/-- The byte the host reads. -/
def State.hostByte (s : State) (sp : Space) (a : Nat) : Byte := sp.keep ((s.space sp).read a)

/-- A host read (20_memory.md R107, R108, R114): no side effect. `place` has passed `busTarget`. -/
def State.hostRead (s : State) (w : Width) (place : Place) : BusReply :=
  match place with
  | .reg off => .wordRead (match Reg.ofOffset off with | some r => s.readReg r | none => 0#32)
  | .mem sp a =>
    match w with
    | .word => .wordRead (wordOf (s.hostByte sp a) (s.hostByte sp (a + 1)) (s.hostByte sp (a + 2)) (s.hostByte sp (a + 3)))
    | _ => .byteRead (s.hostByte sp a)

/-- The host stores bytes in a memory (20_memory.md R109 to R112): TXT moves PHASE to IDLE, MXM keeps bits [2:0], PIX
ignores the write. -/
def State.storeBytes (s : State) (sp : Space) (a : Nat) (bs : List Byte) : State :=
  match sp with
  | .txt => { s with txt := s.txt.write a bs, phase := 0#3 }
  | .cwm => { s with cwm := s.cwm.write a bs }
  | .mxm => { s with mxm := s.mxm.write a (bs.map (Space.keep .mxm)) }
  | .pix => s

/-- The bytes a write of a width moves, in increasing addresses (20_memory.md R108). -/
def writeBytes (w : Width) (v : Word) : List Byte :=
  match w with
  | .word => bytesOfWord v
  | _ => [v.extractLsb' 0 8]

/-- A host write (20_memory.md R106, R109 to R114). While a command is pending every write but one to CTRL or STATUS is
dropped and sets OVERRUN; the reserved offsets ignore every write, with no OVERRUN (10_state.md R59, log 8). -/
def State.hostWrite (s : State) (w : Width) (place : Place) (v : Word) : State :=
  match place with
  | .reg off =>
    match Reg.ofOffset off with
    | none => s
    | some r => if s.status.busy && !(r == .ctrl || r == .status) then s.overrun else s.writeReg v r
  | .mem sp a => if s.status.busy then s.overrun else s.storeBytes sp a (writeBytes w v)

/-- One access of the host: the state after it and its answer, or the bus error it is answered with, which changes
nothing (20_memory.md R101). -/
def hostAccess (acc : Access) (s : State) : Except Fault State :=
  match acc with
  | .read w addr =>
    match busTarget s.pixMax w addr with
    | .error f => .error f
    | .ok place => .ok { s with reply := s.hostRead w place }
  | .write w addr v =>
    match busTarget s.pixMax w addr with
    | .error f => .error f
    | .ok place => .ok { s.hostWrite w place v with reply := .written }

/-- The host's step as an outcome: a bus error is the outcome `fault` of the host's step (20_memory.md R101). -/
def hostStep (acc : Access) (s : State) : Host.Outcome State Fault Refusal :=
  match hostAccess acc s with
  | .ok t => .next t
  | .error f => .fault f

/-- The host is answered: an access in its turn. A bus error is returned to the host and has no effect on QRE, which goes on
(20_memory.md R101, log 9): a pending command stays pending and its step stays enabled (R117, 70_reset_and_hazards.md
R583). -/
def hostTurn (acc : Access) (s : State) : Host.Outcome State Fault Refusal :=
  match hostStep acc s with
  | .next t => .next t
  | .fault f => .next { s with reply := .busError f }
  | .refused r => .refused r

end Sys2Proof.Machine
end

