-- ==== Sys2Proof/Syntax.lean ====
section
/-! DEFINITION. The commands of QRE, one constructor per row of spec/opcode_table.json (30_encoding.md R142), and
the raw fields of a command word (R140). -/

namespace Sys2Proof

/-- A command. An operand is an unsigned byte (30_encoding.md R141), so every value of a constructor's arguments is
a command the host can issue; a mask index above 7 is a legal encoding that the command itself rejects (46_mask.md
R430). -/
inductive Instr where
  | nop
  | gfMul (a b : Byte)
  | gfDiv (a b : Byte)
  | gfExp (i : Byte)
  | gfLog (a : Byte)
  | rsGen (n : Byte)
  | rsEnc (n : Byte)
  | deAnalyze
  | deVersion
  | dePack
  | cwAssemble
  | mxInit
  | mxPlace
  | mkApply (k : Byte)
  | mkScore
  | mxFormat (k : Byte)
  | mxVersionInfo
  | mkSelect
  | render
  | encode
  deriving DecidableEq, Repr

/-- The four bytes of the format CMDW (30_encoding.md R140). -/
structure Fields where
  /-- bits [7:0], the opcode -/
  opc : Byte
  /-- bits [15:8], operand byte A -/
  a : Byte
  /-- bits [23:16], operand byte B -/
  b : Byte
  /-- bits [31:24], operand byte C -/
  c : Byte
  deriving DecidableEq, Repr

end Sys2Proof
end

