-- ==== Sys2Proof/WellFormed.lean ====
section
/-! DEFINITION. When the fields of a command word are a command: an assigned opcode (30_encoding.md R143) and zero in
every operand byte the command does not use (R144). A term of `Instr` carries only used operand bytes, so it needs no
check of its own. -/

namespace Sys2Proof

/-- The opcode column of 30_encoding.md R142. -/
def assignedOpcodes : List Byte :=
  [0x00#8, 0x01#8, 0x02#8, 0x03#8, 0x04#8, 0x10#8, 0x11#8, 0x20#8, 0x21#8, 0x22#8, 0x30#8, 0x40#8, 0x41#8,
    0x50#8, 0x51#8, 0x52#8, 0x53#8, 0x54#8, 0x60#8, 0x70#8]

/-- The opcodes that use operand byte B: GF_MUL and GF_DIV (30_encoding.md R145). -/
def opcodesWithB : List Byte := [0x01#8, 0x02#8]

/-- The opcodes that use operand byte A: GF_MUL, GF_DIV, GF_EXP, GF_LOG, RS_GEN, RS_ENC, MK_APPLY, MX_FORMAT
(30_encoding.md R145). -/
def opcodesWithA : List Byte := [0x01#8, 0x02#8, 0x03#8, 0x04#8, 0x10#8, 0x11#8, 0x50#8, 0x52#8]

/-- Check 1: the opcode is assigned (30_encoding.md R143). -/
def Fields.opcAssigned (f : Fields) : Bool := assignedOpcodes.contains f.opc

/-- Check 2: no command uses byte C (30_encoding.md R145). -/
def Fields.cZero (f : Fields) : Bool := f.c == 0#8

/-- Check 3: byte B is zero where the command has no operand there (30_encoding.md R144). -/
def Fields.bAllowed (f : Fields) : Bool := opcodesWithB.contains f.opc || f.b == 0#8

/-- Check 4: byte A is zero where the command has no operand there (30_encoding.md R144). -/
def Fields.aAllowed (f : Fields) : Bool := opcodesWithA.contains f.opc || f.a == 0#8

/-- The fields are a command of QRE. -/
def Fields.wellFormed (f : Fields) : Bool := f.opcAssigned && f.cZero && f.bAllowed && f.aAllowed

end Sys2Proof
end

