-- ==== Sys2Proof/Decode.lean ====
section
/-! DEFINITION. The decoder (30_encoding.md R145), total on every 32-bit word, and the encoder (R140, R142) after it.
There is one length and one format (R147). -/

namespace Sys2Proof

/-- Why a word is no command; each one is reported as ILLEGAL_COMMAND (30_encoding.md R143, R144). -/
inductive DecodeError where
  /-- the opcode is not in 30_encoding.md R142's table -/
  | unassignedOpcode
  /-- operand byte C is not zero -/
  | nonzeroC
  /-- operand byte B is not zero and the command does not use it -/
  | nonzeroB
  /-- operand byte A is not zero and the command does not use it -/
  | nonzeroA
  deriving DecidableEq, Repr

/-- The fields of a command word (30_encoding.md R140). -/
def Fields.ofWord (w : Word) : Fields :=
  { opc := w.extractLsb' 0 8, a := w.extractLsb' 8 8, b := w.extractLsb' 16 8, c := w.extractLsb' 24 8 }

/-- The word of four fields: C, B, A, OPC from the most significant byte down (30_encoding.md R140). -/
def Fields.toWord (f : Fields) : Word := f.c ++ f.b ++ f.a ++ f.opc

/-- The command an assigned opcode names, with the operand bytes it uses (30_encoding.md R142). -/
def opcodeInstr (f : Fields) : Option Instr :=
  match f.opc.toNat with
  | 0x00 => some .nop
  | 0x01 => some (.gfMul f.a f.b)
  | 0x02 => some (.gfDiv f.a f.b)
  | 0x03 => some (.gfExp f.a)
  | 0x04 => some (.gfLog f.a)
  | 0x10 => some (.rsGen f.a)
  | 0x11 => some (.rsEnc f.a)
  | 0x20 => some .deAnalyze
  | 0x21 => some .deVersion
  | 0x22 => some .dePack
  | 0x30 => some .cwAssemble
  | 0x40 => some .mxInit
  | 0x41 => some .mxPlace
  | 0x50 => some (.mkApply f.a)
  | 0x51 => some .mkScore
  | 0x52 => some (.mxFormat f.a)
  | 0x53 => some .mxVersionInfo
  | 0x54 => some .mkSelect
  | 0x60 => some .render
  | 0x70 => some .encode
  | _ => none

/-- The decoder, its checks in the order of 30_encoding.md R145. -/
def decodeWord (w : Word) : Except DecodeError Instr :=
  let f := Fields.ofWord w
  match opcodeInstr f with
  | none => .error .unassignedOpcode
  | some i =>
    if f.cZero then
      if f.bAllowed then
        if f.aAllowed then .ok i else .error .nonzeroA
      else .error .nonzeroB
    else .error .nonzeroC

/-- The fields of a command (30_encoding.md R142): its opcode, its operands in bytes A and B, zero elsewhere. -/
def Instr.fields : Instr → Fields
  | .nop => ⟨0x00#8, 0#8, 0#8, 0#8⟩
  | .gfMul a b => ⟨0x01#8, a, b, 0#8⟩
  | .gfDiv a b => ⟨0x02#8, a, b, 0#8⟩
  | .gfExp i => ⟨0x03#8, i, 0#8, 0#8⟩
  | .gfLog a => ⟨0x04#8, a, 0#8, 0#8⟩
  | .rsGen n => ⟨0x10#8, n, 0#8, 0#8⟩
  | .rsEnc n => ⟨0x11#8, n, 0#8, 0#8⟩
  | .deAnalyze => ⟨0x20#8, 0#8, 0#8, 0#8⟩
  | .deVersion => ⟨0x21#8, 0#8, 0#8, 0#8⟩
  | .dePack => ⟨0x22#8, 0#8, 0#8, 0#8⟩
  | .cwAssemble => ⟨0x30#8, 0#8, 0#8, 0#8⟩
  | .mxInit => ⟨0x40#8, 0#8, 0#8, 0#8⟩
  | .mxPlace => ⟨0x41#8, 0#8, 0#8, 0#8⟩
  | .mkApply k => ⟨0x50#8, k, 0#8, 0#8⟩
  | .mkScore => ⟨0x51#8, 0#8, 0#8, 0#8⟩
  | .mxFormat k => ⟨0x52#8, k, 0#8, 0#8⟩
  | .mxVersionInfo => ⟨0x53#8, 0#8, 0#8, 0#8⟩
  | .mkSelect => ⟨0x54#8, 0#8, 0#8, 0#8⟩
  | .render => ⟨0x60#8, 0#8, 0#8, 0#8⟩
  | .encode => ⟨0x70#8, 0#8, 0#8, 0#8⟩

/-- The encoder: the one word of a command (30_encoding.md R144). -/
def encode (i : Instr) : Word := i.fields.toWord

/-- A command word as the host sends it, byte by byte: little-endian (20_memory.md R108). -/
def wordOfBytes (b0 b1 b2 b3 : Byte) : Word := b3 ++ b2 ++ b1 ++ b0

/-- The decoder on the bytes of a command word, least significant first; it needs exactly four (30_encoding.md R147). -/
def decodeBytes : List Byte → Option Instr
  | [b0, b1, b2, b3] => (decodeWord (wordOfBytes b0 b1 b2 b3)).toOption
  | _ => none

/-- Byte `k` of a number, byte 0 the least significant. -/
def byteOfNat (w k : Nat) : Byte := BitVec.ofNat 8 (w >>> (8 * k))

/-- The command the decoder reads from an opcode-table word of `nbits` bits: the bits above `nbits` are 0, and the
four bytes go to the decoder as the host's bus would carry them. -/
def decodeTableWord (nbits w : Nat) : Option Instr :=
  let v := w % 2 ^ nbits
  if v < 2 ^ 32 then decodeBytes [byteOfNat v 0, byteOfNat v 1, byteOfNat v 2, byteOfNat v 3] else none

end Sys2Proof
end

