-- ==== Sys2Proof/Machine/Grid.lean ====
section
/-! DEFINITION. Matrix cells and grids: the cell codes of MXM (10_state.md R70, R71) and an N × N grid of them, as a
command reads it from MXM and writes it back. -/

namespace Sys2Proof.Machine

/-- A cell's code: bit 0 DARK, bit 1 SET, bit 2 FUNC (10_state.md R70). -/
abbrev Cell := BitVec 3

namespace CellCode

/-- The six codes QRE produces (10_state.md R71). -/
def empty : Cell := 0b000#3

def dataLight : Cell := 0b010#3

def dataDark : Cell := 0b011#3

def reservedUnset : Cell := 0b100#3

def funcLight : Cell := 0b110#3

def funcDark : Cell := 0b111#3

end CellCode

/-- The cell's colour, when it holds one: true is dark (10_state.md R70, 00_scope.md R15). -/
def cellDark (x : Cell) : Bool := x.getLsbD 0

/-- The cell holds a colour (10_state.md R71). -/
def cellSet (x : Cell) : Bool := x.getLsbD 1

/-- A function cell: masks do not apply to it (10_state.md R70). -/
def cellFunc (x : Cell) : Bool := x.getLsbD 2

/-- A data cell not yet placed: FUNC = 0 and SET = 0 (45_matrix.md R379). -/
def cellDataEmpty (x : Cell) : Bool := !cellFunc x && !cellSet x

/-- A data cell that holds a colour: FUNC = 0 and SET = 1 (46_mask.md R411). -/
def cellData (x : Cell) : Bool := !cellFunc x && cellSet x

/-- The function cell of a colour. -/
def funcCell (dark : Bool) : Cell := if dark then CellCode.funcDark else CellCode.funcLight

/-- The data cell of a bit (45_matrix.md R377). -/
def dataCell (dark : Bool) : Cell := if dark then CellCode.dataDark else CellCode.dataLight

/-- The cell of an MXM byte: bits [2:0] (10_state.md R70). -/
def cellOfByte (b : Byte) : Cell := b.setWidth 3

/-- The MXM byte of a cell: bits [7:3] are 0 (10_state.md R70). -/
def byteOfCell (x : Cell) : Byte := x.setWidth 8

/-- A grid of cells, row by row, row 0 first (00_scope.md R16). -/
abbrev Grid := List (List Cell)

/-- Cell (r, c) (45_matrix.md R350). -/
def Grid.get (g : Grid) (r c : Nat) : Cell := (g.getD r []).getD c CellCode.empty

/-- The grid with cell (r, c) replaced. -/
def Grid.put (g : Grid) (r c : Nat) (x : Cell) : Grid := g.modify r (fun row => row.set c x)

/-- An n × n grid of EMPTY cells. -/
def Grid.blank (n : Nat) : Grid := List.replicate n (List.replicate n CellCode.empty)

/-- The grid with every cell replaced by a function of its row, its column and itself. -/
def Grid.mapCells (f : Nat → Nat → Cell → Cell) (g : Grid) : Grid :=
  g.zipIdx.map (fun row => row.1.zipIdx.map (fun x => f row.2 x.2 x.1))

/-- The n × n cells of the symbol in MXM: cell (r, c) is at byte r·177 + c (10_state.md R70, R72). -/
def loadGrid (m : Memory) (n : Nat) : Grid :=
  (List.range n).map (fun r => (m.readBytes (r * Config.mxmStride) n).map cellOfByte)

/-- The rows `g` written into MXM from row `r` on; no cell outside them changes (10_state.md R72). -/
def storeGridFrom (m : Memory) (r : Nat) : Grid → Memory
  | [] => m
  | row :: rows => storeGridFrom (m.write (r * Config.mxmStride) (row.map byteOfCell)) (r + 1) rows

/-- The grid written into MXM. -/
def storeGrid (m : Memory) (g : Grid) : Memory := storeGridFrom m 0 g

/-- MXM with every cell EMPTY (45_matrix.md R390): nothing listed, for EMPTY is the code 0. -/
def clearedMxm : Memory := []

/-- Every cell holds a colour (46_mask.md R413). -/
def Grid.allSet (g : Grid) : Bool := g.all (fun row => row.all cellSet)

/-- The colours of a grid, row by row: the horizontal lines of 46_mask.md R413. -/
def Grid.colours (g : Grid) : List (List Bool) := g.map (fun row => row.map cellDark)

end Sys2Proof.Machine
end

