-- ==== Sys2Proof/Machine/Capacity.lean ====
section
/-! DEFINITION. The sizes of a symbol: codewords of a version and its block structure (43_data_encoder.md R271, R272,
44_interleaver.md R320, R322). -/

namespace Sys2Proof.Machine

/-- The raw data-module count M(v) (43_data_encoder.md R271). -/
def rawModules (v : Nat) : Nat :=
  let base := (16 * v + 128) * v + 64
  let a := v / 7 + 2
  let align := if 2 ≤ v then (25 * a - 10) * a - 55 else 0
  let info := if 7 ≤ v then 36 else 0
  base - align - info

/-- Total codewords T(v) (43_data_encoder.md R271). -/
def totalCodewords (v : Nat) : Nat := rawModules v / 8

/-- Remainder bits R(v) (43_data_encoder.md R271). -/
def remainderBits (v : Nat) : Nat := rawModules v % 8

/-- The block count B and the EC codewords per block E of every version, at levels L, M, Q, H (44_interleaver.md R322). -/
def blockRows : List (List (Nat × Nat)) :=
  [[(1, 7), (1, 10), (1, 13), (1, 17)],
   [(1, 10), (1, 16), (1, 22), (1, 28)],
   [(1, 15), (1, 26), (2, 18), (2, 22)],
   [(1, 20), (2, 18), (2, 26), (4, 16)],
   [(1, 26), (2, 24), (4, 18), (4, 22)],
   [(2, 18), (4, 16), (4, 24), (4, 28)],
   [(2, 20), (4, 18), (6, 18), (5, 26)],
   [(2, 24), (4, 22), (6, 22), (6, 26)],
   [(2, 30), (5, 22), (8, 20), (8, 24)],
   [(4, 18), (5, 26), (8, 24), (8, 28)],
   [(4, 20), (5, 30), (8, 28), (11, 24)],
   [(4, 24), (8, 22), (10, 26), (11, 28)],
   [(4, 26), (9, 22), (12, 24), (16, 22)],
   [(4, 30), (9, 24), (16, 20), (16, 24)],
   [(6, 22), (10, 24), (12, 30), (18, 24)],
   [(6, 24), (10, 28), (17, 24), (16, 30)],
   [(6, 28), (11, 28), (16, 28), (19, 28)],
   [(6, 30), (13, 26), (18, 28), (21, 28)],
   [(7, 28), (14, 26), (21, 26), (25, 26)],
   [(8, 28), (16, 26), (20, 30), (25, 28)],
   [(8, 28), (17, 26), (23, 28), (25, 30)],
   [(9, 28), (17, 28), (23, 30), (34, 24)],
   [(9, 30), (18, 28), (25, 30), (30, 30)],
   [(10, 30), (20, 28), (27, 30), (32, 30)],
   [(12, 26), (21, 28), (29, 30), (35, 30)],
   [(12, 28), (23, 28), (34, 28), (37, 30)],
   [(12, 30), (25, 28), (34, 30), (40, 30)],
   [(13, 30), (26, 28), (35, 30), (42, 30)],
   [(14, 30), (28, 28), (38, 30), (45, 30)],
   [(15, 30), (29, 28), (40, 30), (48, 30)],
   [(16, 30), (31, 28), (43, 30), (51, 30)],
   [(17, 30), (33, 28), (45, 30), (54, 30)],
   [(18, 30), (35, 28), (48, 30), (57, 30)],
   [(19, 30), (37, 28), (51, 30), (60, 30)],
   [(19, 30), (38, 28), (53, 30), (63, 30)],
   [(20, 30), (40, 28), (56, 30), (66, 30)],
   [(21, 30), (43, 28), (59, 30), (70, 30)],
   [(22, 30), (45, 28), (62, 30), (74, 30)],
   [(24, 30), (47, 28), (65, 30), (77, 30)],
   [(25, 30), (49, 28), (68, 30), (81, 30)]]

/-- A level's column in `blockRows`. -/
def EcLevel.column : EcLevel → Nat
  | .l => 0
  | .m => 1
  | .q => 2
  | .h => 3

/-- The table entry of a version 1 to 40 and a level. -/
def blockEntry (v : Nat) (lev : EcLevel) : Nat × Nat := (blockRows.getD (v - 1) []).getD lev.column (1, 0)

/-- B(v, level) (44_interleaver.md R322). -/
def blockCount (v : Nat) (lev : EcLevel) : Nat := (blockEntry v lev).1

/-- E(v, level) (44_interleaver.md R322). -/
def ecPerBlock (v : Nat) (lev : EcLevel) : Nat := (blockEntry v lev).2

/-- Data codewords D(v, level) (43_data_encoder.md R272). -/
def dataCodewords (v : Nat) (lev : EcLevel) : Nat := totalCodewords v - blockCount v lev * ecPerBlock v lev

/-- Blocks of the long group (44_interleaver.md R320). -/
def longBlocks (v : Nat) (lev : EcLevel) : Nat := totalCodewords v % blockCount v lev

/-- Blocks of the short group (44_interleaver.md R320). -/
def shortBlocks (v : Nat) (lev : EcLevel) : Nat := blockCount v lev - longBlocks v lev

/-- Data codewords of a short block (44_interleaver.md R320). -/
def shortLen (v : Nat) (lev : EcLevel) : Nat := totalCodewords v / blockCount v lev - ecPerBlock v lev

end Sys2Proof.Machine
end

