-- ==== Sys2Proof/Machine/DataEncoder.lean ====
section
/-! DEFINITION. The data encoder and the version selector (43_data_encoder.md). A bitstream is a list of bits, its
first bit first (00_scope.md R12). -/

namespace Sys2Proof.Machine

/-! ### Character classes and mode selection -/

/-- A digit (43_data_encoder.md R260). -/
def isNum (b : Byte) : Bool := 0x30 ≤ b.toNat && b.toNat ≤ 0x39

/-- The characters of value 36 to 44, in order of value (43_data_encoder.md R261). -/
def alnumSymbols : List Byte := [0x20#8, 0x24#8, 0x25#8, 0x2A#8, 0x2B#8, 0x2D#8, 0x2E#8, 0x2F#8, 0x3A#8]

/-- The alphanumeric value of a byte, when it has one (43_data_encoder.md R261). -/
def alnumVal (b : Byte) : Option Nat :=
  let n := b.toNat
  if 0x30 ≤ n ∧ n ≤ 0x39 then some (n - 0x30)
  else if 0x41 ≤ n ∧ n ≤ 0x5A then some (n - 0x41 + 10)
  else (alnumSymbols.idxOf? b).map (fun k => k + 36)

/-- A byte of the alphanumeric class (43_data_encoder.md R260). -/
def isAlnum (b : Byte) : Bool := (alnumVal b).isSome

/-- The value of a byte of the class; DE_PACK checks the class first (43_data_encoder.md R300). -/
def alnumValue (b : Byte) : Nat := (alnumVal b).getD 0

/-- Mode selection (43_data_encoder.md R263). -/
def modeOf (t : List Byte) : Mode :=
  if t.all isNum then .numeric else if t.all isAlnum then .alphanumeric else .byte

/-! ### Sizes and version selection -/

/-- The width of the character count indicator (43_data_encoder.md R270). -/
def ccBits (m : Mode) (v : Nat) : Nat :=
  match m with
  | .numeric => if v ≤ 9 then 10 else if v ≤ 26 then 12 else 14
  | .alphanumeric => if v ≤ 9 then 9 else if v ≤ 26 then 11 else 13
  | .byte => if v ≤ 9 then 8 else 16

/-- The data bit count of a text of `n` bytes (43_data_encoder.md R276). -/
def dataBits (m : Mode) (n : Nat) : Nat :=
  match m with
  | .numeric => 10 * (n / 3) + [0, 4, 7].getD (n % 3) 0
  | .alphanumeric => 11 * (n / 2) + 6 * (n % 2)
  | .byte => 8 * n

/-- The required bits (43_data_encoder.md R275). -/
def reqBits (m : Mode) (n v : Nat) : Nat := 4 + ccBits m v + dataBits m n

/-- The text fits the version at the level (43_data_encoder.md R274). -/
def fits (m : Mode) (n v : Nat) (lev : EcLevel) : Bool :=
  reqBits m n v ≤ 8 * dataCodewords v lev && n < 2 ^ ccBits m v

/-- The smallest version that fits, if one does (43_data_encoder.md R280). -/
def selectVersion (m : Mode) (n : Nat) (lev : EcLevel) : Option Nat :=
  (List.range' 1 40).find? (fun v => fits m n v lev)

/-! ### The bitstream -/

/-- `v` in `w` bits, most significant first (00_scope.md R12). -/
def bitsOf (v w : Nat) : List Bool := (List.range w).map (fun i => v.testBit (w - 1 - i))

/-- The value of a digit. -/
def digit (b : Byte) : Nat := b.toNat - 0x30

/-- Numeric data bits: groups of three, the last of two or one (43_data_encoder.md R291). -/
def numericBits : List Byte → List Bool
  | a :: b :: c :: t => bitsOf (100 * digit a + 10 * digit b + digit c) 10 ++ numericBits t
  | [a, b] => bitsOf (10 * digit a + digit b) 7
  | [a] => bitsOf (digit a) 4
  | [] => []

/-- Alphanumeric data bits: pairs, the last single (43_data_encoder.md R292). -/
def alnumBits : List Byte → List Bool
  | a :: b :: t => bitsOf (45 * alnumValue a + alnumValue b) 11 ++ alnumBits t
  | [a] => bitsOf (alnumValue a) 6
  | [] => []

/-- Byte data bits (43_data_encoder.md R293). -/
def byteBits (t : List Byte) : List Bool := t.flatMap (fun b => bitsOf b.toNat 8)

/-- The data bits of a text in a mode (43_data_encoder.md R291 to R293). -/
def dataStream (m : Mode) (t : List Byte) : List Bool :=
  match m with
  | .numeric => numericBits t
  | .alphanumeric => alnumBits t
  | .byte => byteBits t

/-- The bitstream before padding: mode indicator, count, data (43_data_encoder.md R290). -/
def bitstream (t : List Byte) (m : Mode) (v : Nat) : List Bool :=
  bitsOf m.code.toNat 4 ++ (bitsOf t.length (ccBits m v) ++ dataStream m t)

/-- Zero bits up to a multiple of 8 (43_data_encoder.md R295). -/
def padToByte (s : List Bool) : List Bool := s ++ List.replicate ((8 - s.length % 8) % 8) false

/-- The byte of eight bits, the first bit its bit 7 (20_memory.md R125). -/
def byteOfBits (s : List Bool) : Byte := BitVec.ofNat 8 (s.foldl (fun n b => 2 * n + b.toNat) 0)

/-- Codewords of a bitstream whose length is a multiple of 8 (43_data_encoder.md R296). -/
def toCodewords : List Bool → List Byte
  | b7 :: b6 :: b5 :: b4 :: b3 :: b2 :: b1 :: b0 :: t => byteOfBits [b7, b6, b5, b4, b3, b2, b1, b0] :: toCodewords t
  | _ => []

/-- `n` pad codewords, 0xEC and 0x11 in turn (43_data_encoder.md R296). -/
def padCodewords (n : Nat) : List Byte := (List.range n).map (fun i => if i % 2 = 0 then 0xEC#8 else 0x11#8)

/-- The D data codewords of a text that fits (43_data_encoder.md R294 to R297). -/
def pack (t : List Byte) (m : Mode) (v : Nat) (lev : EcLevel) : List Byte :=
  let d := dataCodewords v lev
  let s := bitstream t m v
  let terminated := s ++ List.replicate (min 4 (8 * d - s.length)) false
  let cw := toCodewords (padToByte terminated)
  cw ++ padCodewords (d - cw.length)

/-! ### Commands -/

/-- The input text (43_data_encoder.md R259). -/
def State.text (s : State) : List Byte := s.txt.readBytes 0 s.textBytes

/-- DE_ANALYZE's rule (43_data_encoder.md R262). -/
def runDeAnalyze (s : State) : CmdResult :=
  if legalTextLen s.textBytes then .ok { s with mode := (modeOf s.text).code, phase := 1#3 }
  else .error .invalidParameter

/-- DE_VERSION's rule (43_data_encoder.md R285). -/
def runDeVersion (s : State) : CmdResult :=
  if s.phaseNat < 1 then .error .sequence
  else
    match Mode.ofCode s.mode with
    | none => .error .invalidParameter
    | some m =>
      if legalTextLen s.textBytes then
        match selectVersion m s.textBytes s.ecLevel with
        | none => .error .inputTooLarge
        | some v => .ok { s with version := BitVec.ofNat 6 v, phase := 2#3 }
      else .error .invalidParameter

/-- Every byte of the text is of the mode's class (43_data_encoder.md R300); Byte mode takes every byte. -/
def textInClass (m : Mode) (t : List Byte) : Bool :=
  match m with
  | .numeric => t.all isNum
  | .alphanumeric => t.all isAlnum
  | .byte => true

/-- DE_PACK's rule (43_data_encoder.md R300). -/
def runDePack (s : State) : CmdResult :=
  if s.phaseNat < 2 then .error .sequence
  else
    match Mode.ofCode s.mode with
    | none => .error .invalidParameter
    | some m =>
      if legalVersion s.versionNat && legalTextLen s.textBytes then
        if textInClass m s.text then
          if fits m s.textBytes s.versionNat s.ecLevel then
            .ok { s with
              cwm := s.cwm.write 0 (pack s.text m s.versionNat s.ecLevel)
              dataCw := BitVec.ofNat 16 (dataCodewords s.versionNat s.ecLevel)
              bitLen := BitVec.ofNat 16 (reqBits m s.textBytes s.versionNat)
              phase := 3#3 }
          else .error .inputTooLarge
        else .error .invalidParameter
      else .error .invalidParameter

/-- DE_ANALYZE (43_data_encoder.md R262). -/
def execDeAnalyze (s : State) : Host.Outcome State Fault Refusal := s.finish (runDeAnalyze s)

/-- DE_VERSION (43_data_encoder.md R285). -/
def execDeVersion (s : State) : Host.Outcome State Fault Refusal := s.finish (runDeVersion s)

/-- DE_PACK (43_data_encoder.md R300). -/
def execDePack (s : State) : Host.Outcome State Fault Refusal := s.finish (runDePack s)

end Sys2Proof.Machine
end

