-- ==== Sys2Proof/Machine/Gf.lean ====
section
/-! DEFINITION. GF(256) arithmetic (41_gf.md): the tables, the field functions and the four commands. -/

namespace Sys2Proof.Machine

/-- The antilog table EXP[0..255], sixteen entries a row (41_gf.md R200). -/
def expRows : List (List Byte) :=
  [
   [1#8, 2#8, 4#8, 8#8, 16#8, 32#8, 64#8, 128#8, 29#8, 58#8, 116#8, 232#8, 205#8, 135#8, 19#8, 38#8],
   [76#8, 152#8, 45#8, 90#8, 180#8, 117#8, 234#8, 201#8, 143#8, 3#8, 6#8, 12#8, 24#8, 48#8, 96#8, 192#8],
   [157#8, 39#8, 78#8, 156#8, 37#8, 74#8, 148#8, 53#8, 106#8, 212#8, 181#8, 119#8, 238#8, 193#8, 159#8, 35#8],
   [70#8, 140#8, 5#8, 10#8, 20#8, 40#8, 80#8, 160#8, 93#8, 186#8, 105#8, 210#8, 185#8, 111#8, 222#8, 161#8],
   [95#8, 190#8, 97#8, 194#8, 153#8, 47#8, 94#8, 188#8, 101#8, 202#8, 137#8, 15#8, 30#8, 60#8, 120#8, 240#8],
   [253#8, 231#8, 211#8, 187#8, 107#8, 214#8, 177#8, 127#8, 254#8, 225#8, 223#8, 163#8, 91#8, 182#8, 113#8, 226#8],
   [217#8, 175#8, 67#8, 134#8, 17#8, 34#8, 68#8, 136#8, 13#8, 26#8, 52#8, 104#8, 208#8, 189#8, 103#8, 206#8],
   [129#8, 31#8, 62#8, 124#8, 248#8, 237#8, 199#8, 147#8, 59#8, 118#8, 236#8, 197#8, 151#8, 51#8, 102#8, 204#8],
   [133#8, 23#8, 46#8, 92#8, 184#8, 109#8, 218#8, 169#8, 79#8, 158#8, 33#8, 66#8, 132#8, 21#8, 42#8, 84#8],
   [168#8, 77#8, 154#8, 41#8, 82#8, 164#8, 85#8, 170#8, 73#8, 146#8, 57#8, 114#8, 228#8, 213#8, 183#8, 115#8],
   [230#8, 209#8, 191#8, 99#8, 198#8, 145#8, 63#8, 126#8, 252#8, 229#8, 215#8, 179#8, 123#8, 246#8, 241#8, 255#8],
   [227#8, 219#8, 171#8, 75#8, 150#8, 49#8, 98#8, 196#8, 149#8, 55#8, 110#8, 220#8, 165#8, 87#8, 174#8, 65#8],
   [130#8, 25#8, 50#8, 100#8, 200#8, 141#8, 7#8, 14#8, 28#8, 56#8, 112#8, 224#8, 221#8, 167#8, 83#8, 166#8],
   [81#8, 162#8, 89#8, 178#8, 121#8, 242#8, 249#8, 239#8, 195#8, 155#8, 43#8, 86#8, 172#8, 69#8, 138#8, 9#8],
   [18#8, 36#8, 72#8, 144#8, 61#8, 122#8, 244#8, 245#8, 247#8, 243#8, 251#8, 235#8, 203#8, 139#8, 11#8, 22#8],
   [44#8, 88#8, 176#8, 125#8, 250#8, 233#8, 207#8, 131#8, 27#8, 54#8, 108#8, 216#8, 173#8, 71#8, 142#8, 1#8]]

/-- The log table LOG[1..255], sixteen entries a row (41_gf.md R201). LOG[0] does not exist: the first entry of the first
row fills its place in the layout and is never read. -/
def logRows : List (List Nat) :=
  [
   [0, 0, 1, 25, 2, 50, 26, 198, 3, 223, 51, 238, 27, 104, 199, 75],
   [4, 100, 224, 14, 52, 141, 239, 129, 28, 193, 105, 248, 200, 8, 76, 113],
   [5, 138, 101, 47, 225, 36, 15, 33, 53, 147, 142, 218, 240, 18, 130, 69],
   [29, 181, 194, 125, 106, 39, 249, 185, 201, 154, 9, 120, 77, 228, 114, 166],
   [6, 191, 139, 98, 102, 221, 48, 253, 226, 152, 37, 179, 16, 145, 34, 136],
   [54, 208, 148, 206, 143, 150, 219, 189, 241, 210, 19, 92, 131, 56, 70, 64],
   [30, 66, 182, 163, 195, 72, 126, 110, 107, 58, 40, 84, 250, 133, 186, 61],
   [202, 94, 155, 159, 10, 21, 121, 43, 78, 212, 229, 172, 115, 243, 167, 87],
   [7, 112, 192, 247, 140, 128, 99, 13, 103, 74, 222, 237, 49, 197, 254, 24],
   [227, 165, 153, 119, 38, 184, 180, 124, 17, 68, 146, 217, 35, 32, 137, 46],
   [55, 63, 209, 91, 149, 188, 207, 205, 144, 135, 151, 178, 220, 252, 190, 97],
   [242, 86, 211, 171, 20, 42, 93, 158, 132, 60, 57, 83, 71, 109, 65, 162],
   [31, 45, 67, 216, 183, 123, 164, 118, 196, 23, 73, 236, 127, 12, 111, 246],
   [108, 161, 59, 82, 41, 157, 85, 170, 251, 96, 134, 177, 187, 204, 62, 90],
   [203, 89, 95, 176, 156, 169, 160, 81, 11, 245, 22, 235, 122, 117, 44, 215],
   [79, 174, 213, 233, 230, 231, 173, 232, 116, 214, 244, 234, 168, 80, 88, 175]]

/-- EXP[i] for i below 256 (10_state.md R60). -/
def gfExpTable (i : Nat) : Byte := (expRows.getD (i / 16) []).getD (i % 16) 0#8

/-- LOG[a] for a ≠ 0 (10_state.md R60). -/
def gfLogTable (a : Byte) : Nat := (logRows.getD (a.toNat / 16) []).getD (a.toNat % 16) 0

/-- The product in GF(256) (41_gf.md R202). -/
def gfMul (a b : Byte) : Byte :=
  if a = 0#8 ∨ b = 0#8 then 0#8 else gfExpTable ((gfLogTable a + gfLogTable b) % 255)

/-- The quotient in GF(256), 0/0 being 0 (41_gf.md R203). -/
def gfDiv (a b : Byte) : Except ErrorCode Byte :=
  if b = 0#8 then
    if a = 0#8 then .ok 0#8 else .error .divideByZero
  else if a = 0#8 then .ok 0#8
  else .ok (gfExpTable ((gfLogTable a + 255 - gfLogTable b) % 255))

/-- The power α^i (41_gf.md R204). -/
def gfExp (i : Byte) : Byte := gfExpTable i.toNat

/-- The logarithm; 0 has none (41_gf.md R205). -/
def gfLog (a : Byte) : Except ErrorCode Byte :=
  if a = 0#8 then .error .divideByZero else .ok (BitVec.ofNat 8 (gfLogTable a))

/-- Doubling in GF(256): a shift, reduced by 0x11D when it leaves the byte (41_gf.md R199, R200). -/
def gfDouble (a : Byte) : Byte := if a.getLsbD 7 then (a <<< 1) ^^^ 0x1D#8 else a <<< 1

/-- The product as R199 defines it: polynomial multiplication reduced modulo 0x11D, from bit 7 of `b` down. Stated for
comparison with `gfMul` (41_gf.md R202 says they are equal); no command calls it. -/
def gfPolyMul (a b : Byte) : Byte :=
  [7, 6, 5, 4, 3, 2, 1, 0].foldl (fun acc k => if b.getLsbD k then gfDouble acc ^^^ a else gfDouble acc) 0#8

/-- RESULT takes a byte, or the command raises and RESULT keeps its value (10_state.md R43). -/
def State.withResult (s : State) (r : Except ErrorCode Byte) : CmdResult :=
  match r with
  | .ok b => .ok { s with result := b }
  | .error e => .error e

/-- GF_MUL a, b (41_gf.md R210). -/
def execGfMul (a b : Byte) (s : State) : Host.Outcome State Fault Refusal := s.finish (s.withResult (.ok (gfMul a b)))

/-- GF_DIV a, b (41_gf.md R211). -/
def execGfDiv (a b : Byte) (s : State) : Host.Outcome State Fault Refusal := s.finish (s.withResult (gfDiv a b))

/-- GF_EXP i (41_gf.md R212). -/
def execGfExp (i : Byte) (s : State) : Host.Outcome State Fault Refusal := s.finish (s.withResult (.ok (gfExp i)))

/-- GF_LOG a (41_gf.md R213). -/
def execGfLog (a : Byte) (s : State) : Host.Outcome State Fault Refusal := s.finish (s.withResult (gfLog a))

end Sys2Proof.Machine
end

