-- ==== Sys2Proof/Machine/Rs.lean ====
section
/-! DEFINITION. The Reed-Solomon encoder (42_rs.md). A polynomial is a byte list, highest degree first (R232). -/

namespace Sys2Proof.Machine

/-- The generator polynomial g_n by the recurrence of 42_rs.md R231: the coefficients g_n[0..n]. -/
def genPoly : Nat → List Byte
  | 0 => [1#8]
  | m + 1 =>
    let g := genPoly m
    let root := gfExpTable (m % 255)
    List.zipWith (fun x y => x ^^^ y) (g ++ [0#8]) (0#8 :: g.map (fun c => gfMul c root))

/-- One step of the linear-feedback division (42_rs.md R233): `tail` is g_n[1..n], `d` the next data codeword. -/
def rsStep (tail e : List Byte) (d : Byte) : List Byte :=
  let f := d ^^^ e.headD 0#8
  List.zipWith (fun x g => x ^^^ gfMul g f) (e.tail ++ [0#8]) tail

/-- The remainder e[0..n-1] of the data codewords followed by n zeros, divided by g_n (42_rs.md R233). -/
def rsRem (d : List Byte) (n : Nat) : List Byte :=
  d.foldl (rsStep (genPoly n).tail) (List.replicate n 0#8)

/-- RS_GEN's rule (42_rs.md R240). -/
def runRsGen (n : Byte) (s : State) : CmdResult :=
  let k := operandNat n
  let dst := s.dst.toNat
  if cwmRangeFits dst (k + 1) then .ok { s with cwm := s.cwm.write dst (genPoly k) } else .error .invalidParameter

/-- RS_ENC's rule (42_rs.md R241): the whole input is read before anything is written. -/
def runRsEnc (n : Byte) (s : State) : CmdResult :=
  let k := operandNat n
  let src := s.src.toNat
  let dst := s.dst.toNat
  let len := s.len.toNat
  if cwmRangeFits src len && cwmRangeFits dst k then
    .ok { s with cwm := s.cwm.write dst (rsRem (s.cwm.readBytes src len) k) }
  else .error .invalidParameter

/-- RS_GEN n (42_rs.md R240). -/
def execRsGen (n : Byte) (s : State) : Host.Outcome State Fault Refusal := s.finish (runRsGen n s)

/-- RS_ENC n (42_rs.md R241). -/
def execRsEnc (n : Byte) (s : State) : Host.Outcome State Fault Refusal := s.finish (runRsEnc n s)

end Sys2Proof.Machine
end

