-- ==== Sys2Proof/Machine/Interleaver.lean ====
section
/-! DEFINITION. The codeword assembler and interleaver (44_interleaver.md). -/

namespace Sys2Proof.Machine

/-- The data codeword counts of the blocks, the short ones first (44_interleaver.md R320). -/
def blockLens (v : Nat) (lev : EcLevel) : List Nat :=
  List.replicate (shortBlocks v lev) (shortLen v lev) ++ List.replicate (longBlocks v lev) (shortLen v lev + 1)

/-- The data cut in order into blocks of the given lengths (44_interleaver.md R321). -/
def splitBlocks : List Nat → List Byte → List (List Byte)
  | [], _ => []
  | k :: ks, d => d.take k :: splitBlocks ks (d.drop k)

/-- Codeword `i` of each block in turn, a block with no codeword `i` passed over (44_interleaver.md R323). -/
def column (blocks : List (List Byte)) (i : Nat) : List Byte := blocks.filterMap (fun b => b[i]?)

/-- The columns 0 to `n - 1` one after another (44_interleaver.md R323). -/
def columns (blocks : List (List Byte)) (n : Nat) : List Byte := (List.range n).flatMap (column blocks)

/-- The interleaved final sequence (44_interleaver.md R323): the data columns, then the EC columns. -/
def interleave (v : Nat) (lev : EcLevel) (d : List Byte) : List Byte :=
  let blocks := splitBlocks (blockLens v lev) d
  let n := ecPerBlock v lev
  columns blocks (shortLen v lev + 1) ++ columns (blocks.map (fun b => rsRem b n)) n

/-- CW_ASSEMBLE's rule (44_interleaver.md R330). -/
def runCwAssemble (s : State) : CmdResult :=
  if s.phaseNat < 3 then .error .sequence
  else if legalVersion s.versionNat then
    .ok { s with
      cwm := s.cwm.write Config.finalBase
        (interleave s.versionNat s.ecLevel (s.cwm.readBytes 0 (dataCodewords s.versionNat s.ecLevel)))
      totalCw := BitVec.ofNat 16 (totalCodewords s.versionNat)
      phase := 4#3 }
  else .error .invalidParameter

/-- CW_ASSEMBLE (44_interleaver.md R330). -/
def execCwAssemble (s : State) : Host.Outcome State Fault Refusal := s.finish (runCwAssemble s)

end Sys2Proof.Machine
end

