-- ==== Sys2Proof/Machine/Matrix.lean ====
section
/-! DEFINITION. The matrix builder (45_matrix.md): the function patterns and reservations, and the placement of the
codeword bits. -/

namespace Sys2Proof.Machine

/-! ### Function patterns -/

/-- One write of MX_INIT: a function cell of a colour (45_matrix.md R351) or a reservation (R357, R359). -/
inductive PatternWrite where
  | func (r c : Nat) (dark : Bool)
  | reserve (r c : Nat)
  deriving DecidableEq, Repr

/-- The finder pattern and its separator with top-left corner (r0, c0), the part inside the grid (45_matrix.md R352).
`i` and `j` are dr + 1 and dc + 1, so the cell is (r0 + i - 1, c0 + j - 1). -/
def finderAt (n r0 c0 : Nat) : List PatternWrite :=
  (List.range 9).flatMap (fun i => (List.range 9).filterMap (fun j =>
    let r := r0 + i
    let c := c0 + j
    let d := max (absDiff i 4) (absDiff j 4)
    if 1 ≤ r ∧ r ≤ n ∧ 1 ≤ c ∧ c ≤ n then some (.func (r - 1) (c - 1) (d != 2 && d != 4)) else none))

/-- The three finder patterns (45_matrix.md R352). -/
def finders (n : Nat) : List PatternWrite := finderAt n 0 0 ++ finderAt n 0 (n - 7) ++ finderAt n (n - 7) 0

/-- The timing patterns, cells 8 to n - 9 of row 6 and column 6 (45_matrix.md R353). -/
def timing (n : Nat) : List PatternWrite :=
  (List.range' 8 (n - 16)).flatMap (fun i => [.func 6 i (i % 2 == 0), .func i 6 (i % 2 == 0)])

/-- The alignment centre coordinates P(v) of versions 1 to 40 (45_matrix.md R354). -/
def alignRows : List (List Nat) :=
  [[],
   [6, 18],
   [6, 22],
   [6, 26],
   [6, 30],
   [6, 34],
   [6, 22, 38],
   [6, 24, 42],
   [6, 26, 46],
   [6, 28, 50],
   [6, 30, 54],
   [6, 32, 58],
   [6, 34, 62],
   [6, 26, 46, 66],
   [6, 26, 48, 70],
   [6, 26, 50, 74],
   [6, 30, 54, 78],
   [6, 30, 56, 82],
   [6, 30, 58, 86],
   [6, 34, 62, 90],
   [6, 28, 50, 72, 94],
   [6, 26, 50, 74, 98],
   [6, 30, 54, 78, 102],
   [6, 28, 54, 80, 106],
   [6, 32, 58, 84, 110],
   [6, 30, 58, 86, 114],
   [6, 34, 62, 90, 118],
   [6, 26, 50, 74, 98, 122],
   [6, 30, 54, 78, 102, 126],
   [6, 26, 52, 78, 104, 130],
   [6, 30, 56, 82, 108, 134],
   [6, 34, 60, 86, 112, 138],
   [6, 30, 58, 86, 114, 142],
   [6, 34, 62, 90, 118, 146],
   [6, 30, 54, 78, 102, 126, 150],
   [6, 24, 50, 76, 102, 128, 154],
   [6, 28, 54, 80, 106, 132, 158],
   [6, 32, 58, 84, 110, 136, 162],
   [6, 26, 54, 82, 110, 138, 166],
   [6, 30, 58, 86, 114, 142, 170]]

/-- P(v) (45_matrix.md R354). -/
def alignCoords (v : Nat) : List Nat := alignRows.getD (v - 1) []

/-- The 5 × 5 alignment pattern centred on (cr, cc) (45_matrix.md R355). -/
def alignAt (cr cc : Nat) : List PatternWrite :=
  (List.range 5).flatMap (fun i => (List.range 5).map (fun j =>
    .func (cr + i - 2) (cc + j - 2) (max (absDiff i 2) (absDiff j 2) != 1)))

/-- The alignment patterns of a version, the three centres on finder patterns left out (45_matrix.md R355). -/
def alignments (v : Nat) : List PatternWrite :=
  let p := alignCoords v
  let last := p.length - 1
  p.zipIdx.flatMap (fun x => p.zipIdx.flatMap (fun y =>
    if (x.2 = 0 ∧ y.2 = 0) ∨ (x.2 = 0 ∧ y.2 = last) ∨ (x.2 = last ∧ y.2 = 0) then [] else alignAt x.1 y.1))

/-- The format-information cells: bit index, row and column of both copies (45_matrix.md R356). -/
def formatCells (n : Nat) : List (Nat × Nat × Nat) :=
  (List.range 6).map (fun i => (i, i, 8)) ++ [(6, 7, 8), (7, 8, 8), (8, 8, 7)] ++
    (List.range' 9 6).map (fun i => (i, 8, 14 - i)) ++
    (List.range 8).map (fun i => (i, 8, n - 1 - i)) ++
    (List.range' 8 7).map (fun i => (i, n - 15 + i, 8))

/-- The version-information cells: bit index, row and column of both copies (45_matrix.md R359). -/
def versionCells (n : Nat) : List (Nat × Nat × Nat) :=
  (List.range 18).flatMap (fun i => [(i, i / 3, n - 11 + i % 3), (i, n - 11 + i % 3, i / 3)])

/-- The version-information cells a version has: none below version 7 (45_matrix.md R359). -/
def versionCellsOf (v : Nat) : List (Nat × Nat × Nat) := if 7 ≤ v then versionCells (gridSide v) else []

/-- The reservation of cells. -/
def reservations (cells : List (Nat × Nat × Nat)) : List PatternWrite := cells.map (fun x => .reserve x.2.1 x.2.2)

/-- The writes of MX_INIT, in its build order (45_matrix.md R360). -/
def patternWrites (v : Nat) : List PatternWrite :=
  finders (gridSide v) ++ timing (gridSide v) ++ alignments v ++ reservations (formatCells (gridSide v)) ++
    [.func (gridSide v - 8) 8 true] ++ reservations (versionCellsOf v)

/-- One write: `fset`, which may cover a function cell only with its own colour (45_matrix.md R351), or a reservation,
which is made on an EMPTY cell only (R357, R359); else INVARIANT. -/
def applyWrite (g : Grid) (w : PatternWrite) : Except ErrorCode Grid :=
  match w with
  | .func r c dark =>
    let new := funcCell dark
    let old := g.get r c
    if (old = CellCode.funcLight ∨ old = CellCode.funcDark) ∧ old ≠ new then .error .invariant
    else .ok (g.put r c new)
  | .reserve r c => if g.get r c = CellCode.empty then .ok (g.put r c CellCode.reservedUnset) else .error .invariant

/-- The writes one after another, up to the first error. -/
def applyWrites (g : Grid) : List PatternWrite → Except ErrorCode Grid
  | [] => .ok g
  | w :: ws =>
    match applyWrite g w with
    | .ok g' => applyWrites g' ws
    | .error e => .error e

/-- The grid MX_INIT builds for a version (45_matrix.md R360). -/
def buildPattern (v : Nat) : Except ErrorCode Grid := applyWrites (Grid.blank (gridSide v)) (patternWrites v)

/-! ### Data placement -/

/-- The cells of one column pair, right column first, upward or downward (45_matrix.md R370). -/
def zigzagPair (n right : Nat) : List (Nat × Nat) :=
  let upward := (right + 1) &&& 2 == 0
  (List.range n).flatMap (fun t =>
    let r := if upward then n - 1 - t else t
    [(r, right), (r, right - 1)])

/-- The zig-zag from the column pair `right` leftward, column 6 skipped (45_matrix.md R370); each turn of the loop takes
one unit of `fuel`. -/
def zigzagFrom (n : Nat) : Nat → Nat → List (Nat × Nat)
  | 0, _ => []
  | fuel + 1, right =>
    if right = 0 then []
    else
      let right' := if right = 6 then 5 else right
      zigzagPair n right' ++ zigzagFrom n fuel (right' - 2)

/-- The zig-zag order of an n × n grid, without column 6 (45_matrix.md R370, log 11). -/
def zigzag (n : Nat) : List (Nat × Nat) := zigzagFrom n n (n - 1)

/-- The cells that take data, in zig-zag order (45_matrix.md R379). -/
def dataEmptyCells (g : Grid) (n : Nat) : List (Nat × Nat) :=
  (zigzag n).filter (fun p => cellDataEmpty (g.get p.1 p.2))

/-- The placement stream: each codeword most significant bit first, then the remainder bits, all 0 (45_matrix.md R377,
R378). -/
def placementStream (v : Nat) (c : List Byte) : List Bool := byteBits c ++ List.replicate (remainderBits v) false

/-- One bit a cell (45_matrix.md R379). -/
def placeBits (g : Grid) (cells : List (Nat × Nat)) (bits : List Bool) : Grid :=
  (cells.zip bits).foldl (fun g x => g.put x.1.1 x.1.2 (dataCell x.2)) g

/-- `place(c)` on the n × n grid (45_matrix.md R379). -/
def place (v n : Nat) (c : List Byte) (g : Grid) : Except ErrorCode Grid :=
  let cells := dataEmptyCells g n
  if cells.length = 8 * totalCodewords v + remainderBits v then .ok (placeBits g cells (placementStream v c))
  else .error .invariant

/-! ### Commands -/

/-- MX_INIT's rule (45_matrix.md R390). -/
def runMxInit (s : State) : CmdResult :=
  if s.phaseNat < 4 then .error .sequence
  else if legalVersion s.versionNat then
    match buildPattern s.versionNat with
    | .error e => .error e
    | .ok g => .ok { s with
        mxm := storeGrid clearedMxm g
        mxSize := BitVec.ofNat 8 (gridSide s.versionNat)
        phase := 5#3 }
  else .error .invalidParameter

/-- MX_PLACE's rule (45_matrix.md R395), on the N × N cells of MX_SIZE (log 7). -/
def runMxPlace (s : State) : CmdResult :=
  if s.phaseNat ≠ 5 then .error .sequence
  else
    let n := s.mxSize.toNat
    let c := s.cwm.readBytes Config.finalBase (totalCodewords s.versionNat)
    match place s.versionNat n c (loadGrid s.mxm n) with
    | .error e => .error e
    | .ok g => .ok { s with mxm := storeGrid s.mxm g, phase := 6#3 }

/-- MX_INIT (45_matrix.md R390). -/
def execMxInit (s : State) : Host.Outcome State Fault Refusal := s.finish (runMxInit s)

/-- MX_PLACE (45_matrix.md R395). -/
def execMxPlace (s : State) : Host.Outcome State Fault Refusal := s.finish (runMxPlace s)

end Sys2Proof.Machine
end

