-- ==== Sys2Proof/Machine/Mask.lean ====
section
/-! DEFINITION. The mask evaluator and selector (46_mask.md): masks, penalties, format and version information. -/

namespace Sys2Proof.Machine

/-! ### Masks -/

/-- The mask functions, `i` the row and `j` the column; true means invert (46_mask.md R410). -/
def maskAt (k : BitVec 3) (i j : Nat) : Bool :=
  match k.toNat with
  | 0 => (i + j) % 2 == 0
  | 1 => i % 2 == 0
  | 2 => j % 3 == 0
  | 3 => (i + j) % 3 == 0
  | 4 => (i / 2 + j / 3) % 2 == 0
  | 5 => (i * j) % 2 + (i * j) % 3 == 0
  | 6 => ((i * j) % 2 + (i * j) % 3) % 2 == 0
  | _ => ((i + j) % 2 + (i * j) % 3) % 2 == 0

/-- The mask on one cell: a data cell with a colour is inverted where the mask is true (46_mask.md R411). -/
def maskCell (k : BitVec 3) (i j : Nat) (x : Cell) : Cell := if cellData x && maskAt k i j then x ^^^ 0b001#3 else x

/-- `apply_mask(k)` (46_mask.md R411). -/
def applyMask (k : BitVec 3) (g : Grid) : Grid := g.mapCells (maskCell k)

/-! ### Penalty -/

/-- What a maximal run of `n` equal colours scores (46_mask.md R414). -/
def runScore (n : Nat) : Nat := if 5 ≤ n then 3 + (n - 5) else 0

/-- The scores of the maximal runs of a line of which `n` cells of colour `cur` have been passed. -/
def runsFrom (cur : Bool) (n : Nat) : List Bool → Nat
  | [] => runScore n
  | b :: t => if b = cur then runsFrom cur (n + 1) t else runScore n + runsFrom b 1 t

/-- N1 of one line (46_mask.md R414). -/
def lineRuns : List Bool → Nat
  | [] => 0
  | b :: t => runsFrom b 1 t

/-- The 2 × 2 blocks of one colour between two neighbouring rows, 3 points each (46_mask.md R415). -/
def rowPairBlocks : List Bool → List Bool → Nat
  | a :: b :: t, c :: d :: u => (if a = b ∧ a = c ∧ a = d then 3 else 0) + rowPairBlocks (b :: t) (d :: u)
  | _, _ => 0

/-- N2 (46_mask.md R415). -/
def blockScore : List (List Bool) → Nat
  | r1 :: r2 :: t => rowPairBlocks r1 r2 + blockScore (r2 :: t)
  | _ => 0

/-- The two windows of 46_mask.md R416. -/
def finderLikeA : List Bool := [true, false, true, true, true, false, true, false, false, false, false]

def finderLikeB : List Bool := [false, false, false, false, true, false, true, true, true, false, true]

/-- N3 of one line: every window of 11 (46_mask.md R416). -/
def lineFinderLike : List Bool → Nat
  | [] => 0
  | b :: t =>
    let w := (b :: t).take 11
    (if w = finderLikeA then 40 else 0) + (if w = finderLikeB then 40 else 0) + lineFinderLike t

/-- N4 of `dark` dark cells out of `t` (46_mask.md R417). -/
def darkScore (dark t : Nat) : Nat := 10 * (absDiff (20 * dark) (10 * t) / t)

/-- The columns of an n-column grid of colours, top to bottom: the vertical lines of 46_mask.md R413. -/
def columnLines (n : Nat) (rows : List (List Bool)) : List (List Bool) :=
  (List.range n).map (fun c => rows.map (fun row => row.getD c false))

/-- The four penalties (46_mask.md R418). -/
structure Penalty where
  n1 : Nat
  n2 : Nat
  n3 : Nat
  n4 : Nat
  deriving DecidableEq, Repr

/-- The total score S (46_mask.md R418). -/
def Penalty.total (p : Penalty) : Nat := p.n1 + p.n2 + p.n3 + p.n4

/-- The penalty of the colours of an n × n grid (46_mask.md R413 to R418). -/
def penaltyOf (n : Nat) (rows : List (List Bool)) : Penalty :=
  let lines := rows ++ columnLines n rows
  { n1 := (lines.map lineRuns).sum
    n2 := blockScore rows
    n3 := (lines.map lineFinderLike).sum
    n4 := darkScore (rows.map (fun row => row.count true)).sum (n * n) }

/-! ### Format and version information -/

/-- The ISO level bits, not the LEVEL register codes (46_mask.md R420). -/
def EcLevel.isoBits : EcLevel → BitVec 2
  | .l => 0b01#2
  | .m => 0b00#2
  | .q => 0b11#2
  | .h => 0b10#2

/-- The remainder loop of the BCH codes: for each bit from `top` down, `count` of them, `gen` shifted so that its leading
bit meets it (46_mask.md R420, R422). -/
def bchRem {w : Nat} (gen : BitVec w) (low : Nat) : Nat → BitVec w → BitVec w
  | 0, rem => rem
  | k + 1, rem => bchRem gen low k (if rem.getLsbD (low + k) then rem ^^^ (gen <<< k) else rem)

/-- The 15 format bits (46_mask.md R420). -/
def formatBits (lev : EcLevel) (k : BitVec 3) : BitVec 15 :=
  let data : BitVec 15 := (lev.isoBits ++ k).setWidth 15 <<< 10
  (data ||| bchRem 0x537#15 10 5 data) ^^^ 0x5412#15

/-- The 18 version bits (46_mask.md R422). -/
def versionBits (v : Nat) : BitVec 18 :=
  let data : BitVec 18 := BitVec.ofNat 18 v <<< 12
  data ||| bchRem 0x1F25#18 12 6 data

/-- Each listed cell becomes the function cell of its bit (46_mask.md R424). -/
def writeBits {w : Nat} (bits : BitVec w) (cells : List (Nat × Nat × Nat)) (g : Grid) : Grid :=
  cells.foldl (fun g x => g.put x.2.1 x.2.2 (funcCell (bits.getLsbD x.1))) g

/-- `write_format(level, k)` on the grid of version `v` (46_mask.md R424). -/
def writeFormat (v : Nat) (lev : EcLevel) (k : BitVec 3) (g : Grid) : Grid :=
  writeBits (formatBits lev k) (formatCells (gridSide v)) g

/-- `write_version()` (46_mask.md R424); nothing below version 7. -/
def writeVersion (v : Nat) (g : Grid) : Grid := writeBits (versionBits v) (versionCellsOf v) g

/-! ### Selection -/

/-- The trial matrix of mask `k` (46_mask.md R440): `base` has the version word already. -/
def trial (v : Nat) (lev : EcLevel) (base : Grid) (k : BitVec 3) : Grid := writeFormat v lev k (applyMask k base)

/-- The eight mask indices in order. -/
def maskIndices : List (BitVec 3) := [0#3, 1#3, 2#3, 3#3, 4#3, 5#3, 6#3, 7#3]

/-- The first of the indices with the least score (46_mask.md R440). -/
def bestMask (score : BitVec 3 → Nat) : BitVec 3 :=
  maskIndices.foldl (fun best k => if score k < score best then k else best) 0#3

/-- PENALTY and PEN_N1 to PEN_N4 take a penalty (10_state.md R51). -/
def State.setPenalty (s : State) (p : Penalty) : State :=
  { s with
    penN1 := BitVec.ofNat 32 p.n1
    penN2 := BitVec.ofNat 32 p.n2
    penN3 := BitVec.ofNat 32 p.n3
    penN4 := BitVec.ofNat 32 p.n4
    penalty := BitVec.ofNat 32 p.total }

/-- The symbol's cells, the N of VERSION (46_mask.md, section 4). -/
def State.symbol (s : State) : Grid := loadGrid s.mxm (gridSide s.versionNat)

/-- The penalty of a grid of the version's side. -/
def gridPenalty (v : Nat) (g : Grid) : Penalty := penaltyOf (gridSide v) g.colours

/-- A value for each of the eight masks. -/
def maskPenalties (f : BitVec 3 → Penalty) : Vector Penalty 8 :=
  #v[f 0#3, f 1#3, f 2#3, f 3#3, f 4#3, f 5#3, f 6#3, f 7#3]

/-- The penalty of mask `k`. -/
def penaltyAt (pens : Vector Penalty 8) (k : BitVec 3) : Penalty := pens[k.toFin]

/-- The winner: the smallest k with the least total (46_mask.md R440). -/
def winner (pens : Vector Penalty 8) : BitVec 3 := bestMask (fun k => (penaltyAt pens k).total)

/-- What MK_SELECT writes, given the eight trial matrices and their penalties (46_mask.md R440). -/
def State.selected (s : State) (tr : BitVec 3 → Grid) (pens : Vector Penalty 8) : State :=
  { s.setPenalty (penaltyAt pens (winner pens)) with
    mxm := storeGrid s.mxm (tr (winner pens))
    mask := winner pens
    scores := pens.map (fun p => BitVec.ofNat 32 p.total)
    phase := 7#3 }

/-! ### Commands -/

/-- MK_APPLY's rule (46_mask.md R430). -/
def runMkApply (k : Byte) (s : State) : CmdResult :=
  if s.phaseNat ≠ 6 ∧ s.phaseNat ≠ 7 then .error .sequence
  else
    match maskIndex k with
    | none => .error .invalidParameter
    | some m => .ok { s with mxm := storeGrid s.mxm (applyMask m s.symbol) }

/-- MK_SCORE's rule (46_mask.md R431). -/
def runMkScore (s : State) : CmdResult :=
  if s.phaseNat < 6 then .error .sequence
  else if s.symbol.allSet then .ok (s.setPenalty (gridPenalty s.versionNat s.symbol))
  else .error .sequence

/-- MX_FORMAT's rule (46_mask.md R432). -/
def runMxFormat (k : Byte) (s : State) : CmdResult :=
  if s.phaseNat < 5 then .error .sequence
  else
    match maskIndex k with
    | none => .error .invalidParameter
    | some m => .ok { s with mxm := storeGrid s.mxm (writeFormat s.versionNat s.ecLevel m s.symbol) }

/-- MX_VERSIONINFO's rule (46_mask.md R433). -/
def runMxVersionInfo (s : State) : CmdResult :=
  if s.phaseNat < 5 then .error .sequence
  else .ok { s with mxm := storeGrid s.mxm (writeVersion s.versionNat s.symbol) }

/-- The trial matrices of MK_SELECT (46_mask.md R440): the version word is written before the masks are tried. -/
def trialsOf (v : Nat) (lev : EcLevel) (g : Grid) (k : BitVec 3) : Grid := trial v lev (writeVersion v g) k

/-- MK_SELECT's rule (46_mask.md R440). -/
def runMkSelect (s : State) : CmdResult :=
  if s.phaseNat ≠ 6 then .error .sequence
  else
    let tr := trialsOf s.versionNat s.ecLevel s.symbol
    if maskIndices.all (fun k => (tr k).allSet) then
      .ok (s.selected tr (maskPenalties (fun k => gridPenalty s.versionNat (tr k))))
    else .error .sequence

/-- MK_APPLY k (46_mask.md R430). -/
def execMkApply (k : Byte) (s : State) : Host.Outcome State Fault Refusal := s.finish (runMkApply k s)

/-- MK_SCORE (46_mask.md R431). -/
def execMkScore (s : State) : Host.Outcome State Fault Refusal := s.finish (runMkScore s)

/-- MX_FORMAT k (46_mask.md R432). -/
def execMxFormat (k : Byte) (s : State) : Host.Outcome State Fault Refusal := s.finish (runMxFormat k s)

/-- MX_VERSIONINFO (46_mask.md R433). -/
def execMxVersionInfo (s : State) : Host.Outcome State Fault Refusal := s.finish (runMxVersionInfo s)

/-- MK_SELECT (46_mask.md R440). -/
def execMkSelect (s : State) : Host.Outcome State Fault Refusal := s.finish (runMkSelect s)

end Sys2Proof.Machine
end

