-- ==== Sys2Proof/Machine/Raster.lean ====
section
/-! DEFINITION. The rasterizer (47_raster.md). -/

namespace Sys2Proof.Machine

/-- The geometry of an image (47_raster.md R462). -/
structure Geometry where
  scale : Nat
  used : Nat
  side : Nat
  off : Nat
  deriving DecidableEq, Repr

/-- `geometry(N, size, q)` (47_raster.md R462). -/
def geometry (n size q : Nat) : Geometry :=
  let span := n + 2 * q
  let scale := max 1 (size / span)
  let used := scale * span
  let side := max size used
  { scale := scale, used := used, side := side, off := (side - used) / 2 }

/-- The symbol's colour at a pixel, `none` outside the symbol (47_raster.md R463). -/
def moduleAt (geo : Geometry) (n q : Nat) (g : Grid) (x y : Nat) : Option Bool :=
  if geo.off ≤ x ∧ x < geo.off + geo.used ∧ geo.off ≤ y ∧ y < geo.off + geo.used then
    let mx := (x - geo.off) / geo.scale
    let my := (y - geo.off) / geo.scale
    if q ≤ mx ∧ mx < q + n ∧ q ≤ my ∧ my < q + n then some (cellDark (g.get (my - q) (mx - q))) else none
  else none

/-- The colour of pixel (x, y) (47_raster.md R463). -/
def pixelAt (geo : Geometry) (n q : Nat) (g : Grid) (dark light : Word) (x y : Nat) : Word :=
  match moduleAt geo n q g x y with
  | some true => dark
  | _ => light

/-- A pixel's bytes: R, G, B, A (47_raster.md R464). -/
def pixelBytes (c : Word) : List Byte :=
  [c.extractLsb' 24 8, c.extractLsb' 16 8, c.extractLsb' 8 8, c.extractLsb' 0 8]

/-- The bytes of the image, row by row from the top (47_raster.md R464). -/
def imageBytes (geo : Geometry) (n q : Nat) (g : Grid) (dark light : Word) : List Byte :=
  (List.range geo.side).flatMap (fun y => (List.range geo.side).flatMap (fun x =>
    pixelBytes (pixelAt geo n q g dark light x y)))

/-- RENDER's rule (47_raster.md R470). -/
def runRender (s : State) : CmdResult :=
  if s.phaseNat ≠ 7 then .error .sequence
  else
    let n := s.mxSize.toNat
    let q := s.quiet.toNat
    let size := s.pixSize.toNat
    if size = 0 then .error .invalidParameter
    else
      let g := loadGrid s.mxm n
      if g.allSet then
        let geo := geometry n size q
        if geo.side * geo.side ≤ s.pixMax then
          .ok { s with
            pix := s.pix.write 0 (imageBytes geo n q g s.dark s.light)
            pixSide := BitVec.ofNat 16 geo.side
            pixScale := BitVec.ofNat 16 geo.scale
            pixOffset := BitVec.ofNat 16 geo.off }
        else .error .invalidParameter
      else .error .sequence

/-- RENDER (47_raster.md R470). -/
def execRender (s : State) : Host.Outcome State Fault Refusal := s.finish (runRender s)

end Sys2Proof.Machine
end

