-- ==== Sys2Proof/Machine/Top.lean ====
section
/-! DEFINITION. The control command and the whole-pipeline command (48_top.md). -/

namespace Sys2Proof.Machine

/-- NOP's rule: nothing (48_top.md R490). -/
def runNop (s : State) : CmdResult := .ok s

/-- The seven commands of the pipeline in chain order (48_top.md R495). -/
def pipeline : List (State → CmdResult) :=
  [runDeAnalyze, runDeVersion, runDePack, runCwAssemble, runMxInit, runMxPlace, runMkSelect]

/-- Rules run one after another on a private copy of the state, up to the first error (48_top.md R495). -/
def runChain : List (State → CmdResult) → State → CmdResult
  | [], s => .ok s
  | f :: fs, s =>
    match f s with
    | .ok t => runChain fs t
    | .error e => .error e

/-- ENCODE's rule (48_top.md R495). -/
def runEncode (s : State) : CmdResult := runChain pipeline s

/-- NOP (48_top.md R490). -/
def execNop (s : State) : Host.Outcome State Fault Refusal := s.finish (runNop s)

/-- ENCODE (48_top.md R495). -/
def execEncode (s : State) : Host.Outcome State Fault Refusal := s.finish (runEncode s)

end Sys2Proof.Machine
end

