-- ==== Sys2Proof/Machine/Dispatch.lean ====
section
/-! DEFINITION. The dispatch: one arm per command, one direct call of its meaning. -/

namespace Sys2Proof.Machine

def exec (i : Instr) (s : State) : Host.Outcome State Fault Refusal :=
  match i with
  | .nop => Sys2Proof.Machine.execNop s
  | .gfMul a b => Sys2Proof.Machine.execGfMul a b s
  | .gfDiv a b => Sys2Proof.Machine.execGfDiv a b s
  | .gfExp op => Sys2Proof.Machine.execGfExp op s
  | .gfLog a => Sys2Proof.Machine.execGfLog a s
  | .rsGen n => Sys2Proof.Machine.execRsGen n s
  | .rsEnc n => Sys2Proof.Machine.execRsEnc n s
  | .deAnalyze => Sys2Proof.Machine.execDeAnalyze s
  | .deVersion => Sys2Proof.Machine.execDeVersion s
  | .dePack => Sys2Proof.Machine.execDePack s
  | .cwAssemble => Sys2Proof.Machine.execCwAssemble s
  | .mxInit => Sys2Proof.Machine.execMxInit s
  | .mxPlace => Sys2Proof.Machine.execMxPlace s
  | .mkApply k => Sys2Proof.Machine.execMkApply k s
  | .mkScore => Sys2Proof.Machine.execMkScore s
  | .mxFormat k => Sys2Proof.Machine.execMxFormat k s
  | .mxVersionInfo => Sys2Proof.Machine.execMxVersionInfo s
  | .mkSelect => Sys2Proof.Machine.execMkSelect s
  | .render => Sys2Proof.Machine.execRender s
  | .encode => Sys2Proof.Machine.execEncode s

end Sys2Proof.Machine
end

