-- ==== Sys2Proof/Machine/Engine.lean ====
section
/-! DEFINITION. The engine's step (20_memory.md R104). -/

namespace Sys2Proof.Machine

/-- The engine's turn: with a command pending it decodes and executes the word in CMD, a word that is no command raising
ILLEGAL_COMMAND (30_encoding.md R143 to R145); with none pending it has nothing to do (10_state.md R31). -/
def engineStep (s : State) : Host.Outcome State Fault Refusal :=
  if s.status.busy then
    match decodeWord s.cmd with
    | .ok i => exec i s
    | .error _ => .next (s.raise .illegalCommand)
  else .next s

/-- The state in which the engine's next turn executes the command word `v`: the word latched in CMD by an accepted write
(10_state.md R42), and the next turn the engine's. -/
def State.latchCommand (s : State) (v : Word) : State := { s.accept v with turns := .engine :: s.turns }

end Sys2Proof.Machine
end

