-- ==== Sys2Proof/Machine/Step.lean ====
section
/-! DEFINITION. One step of QRE: the next turn of the interleaving of host and engine (20_memory.md R116, log 1). -/

namespace Sys2Proof.Machine

/-- One event of the total order of 20_memory.md R116. With no turn left the engine still takes its step while a command
is pending (R117, 70_reset_and_hazards.md R583, R590), and else nothing happens: QRE waits for a CMD write (R572). -/
def step (s : State) : Host.Outcome State Fault Refusal :=
  match s.turns with
  | [] => engineStep s
  | .engine :: ts => engineStep { s with turns := ts }
  | .host a :: ts => hostTurn a { s with turns := ts }

/-- `s` with the opcode-table word `w` of `nbits` bits as the command the next step executes (log 10). -/
def State.withFetchWord (s : State) (nbits w : Nat) : State := s.latchCommand (BitVec.ofNat 32 (w % 2 ^ nbits))

end Sys2Proof.Machine
end

