-- ==== Sys2Proof/Machine/HostProgram.lean ====
section
/-! DEFINITION. Host programs: the spelling of a command (30_encoding.md R149), the host operations and the accesses each
one makes (R150), and the pseudo-operations (R151). -/

namespace Sys2Proof.Machine

/-! ### Spelling -/

/-- The mnemonic of a command (30_encoding.md R142). -/
def mnemonicOf : Instr → String
  | .nop => "NOP"
  | .gfMul _ _ => "GF_MUL"
  | .gfDiv _ _ => "GF_DIV"
  | .gfExp _ => "GF_EXP"
  | .gfLog _ => "GF_LOG"
  | .rsGen _ => "RS_GEN"
  | .rsEnc _ => "RS_ENC"
  | .deAnalyze => "DE_ANALYZE"
  | .deVersion => "DE_VERSION"
  | .dePack => "DE_PACK"
  | .cwAssemble => "CW_ASSEMBLE"
  | .mxInit => "MX_INIT"
  | .mxPlace => "MX_PLACE"
  | .mkApply _ => "MK_APPLY"
  | .mkScore => "MK_SCORE"
  | .mxFormat _ => "MX_FORMAT"
  | .mxVersionInfo => "MX_VERSIONINFO"
  | .mkSelect => "MK_SELECT"
  | .render => "RENDER"
  | .encode => "ENCODE"

/-- The used operand bytes in the order A, B (30_encoding.md R142). -/
def operandsOf : Instr → List Byte
  | .gfMul a b | .gfDiv a b => [a, b]
  | .gfExp a | .gfLog a | .rsGen a | .rsEnc a | .mkApply a | .mxFormat a => [a]
  | .nop | .deAnalyze | .deVersion | .dePack | .cwAssemble | .mxInit | .mxPlace | .mkScore | .mxVersionInfo | .mkSelect
  | .render | .encode => []

/-- A command in a listing, its operands in decimal (30_encoding.md R149). -/
def spelling (i : Instr) : String :=
  match operandsOf i with
  | [] => mnemonicOf i
  | bs => mnemonicOf i ++ " " ++ String.intercalate ", " (bs.map (fun b => toString b.toNat))

/-! ### Host operations -/

/-- One operation of a host program (30_encoding.md R150). `poll n` is a POLL that takes `n` reads. -/
inductive HostOp where
  | wr (r : Reg) (v : Word)
  | rd (r : Reg)
  | wrb (sp : Space) (a : Nat) (v : Byte)
  | wrs (sp : Space) (a : Nat) (bs : List Byte)
  | rdb (sp : Space) (a : Nat)
  | cmd (i : Instr)
  | poll (n : Nat)
  deriving DecidableEq, Repr

/-- A register's host address: the register base is 0 (20_memory.md R100). -/
def Reg.addr (r : Reg) : BusAddr := BitVec.ofNat 24 r.offset

/-- The host address of a byte of a memory (20_memory.md R100). -/
def Space.addr (sp : Space) (a : Nat) : BusAddr := BitVec.ofNat 24 (sp.base + a)

/-- The bus transactions of a host operation, in order (30_encoding.md R150). -/
def HostOp.accesses : HostOp → List Access
  | .wr r v => [.write .word r.addr v]
  | .rd r => [.read .word r.addr]
  | .wrb sp a v => [.write .byte (sp.addr a) (v.setWidth 32)]
  | .wrs sp a bs => (bs.zipIdx a).map (fun x => .write .byte (sp.addr x.2) (x.1.setWidth 32))
  | .rdb sp a => [.read .byte (sp.addr a)]
  | .cmd i => [.write .word Reg.cmd.addr (encode i)]
  | .poll n => List.replicate n (.read .word Reg.status.addr)

/-- The read that ends a POLL: it answers DONE = 1 (30_encoding.md R150). -/
def pollEnds (reply : BusReply) : Bool :=
  match reply with
  | .wordRead w => w.getLsbD 1
  | _ => false

/-- The bus transactions of a host program. -/
def programAccesses (p : List HostOp) : List Access := p.flatMap HostOp.accesses

/-- The turns of a host program when the engine takes its step at its first chance: one of the interleavings of
20_memory.md R117, all of which keep the accesses in this order and differ only in where the engine's turns stand. -/
def promptTurns (p : List HostOp) : List Turn := (programAccesses p).flatMap (fun a => [.host a, .engine])

/-! ### Pseudo-operations (30_encoding.md R151) -/

/-- `RUN`: issue and wait, `n` reads being what the wait takes. -/
def opRun (i : Instr) (n : Nat) : List HostOp := [.cmd i, .poll n]

/-- `MK_UNAPPLY k`. -/
def opMkUnapply (k : Byte) : Instr := .mkApply k

/-- `GF_INV a`. -/
def opGfInv (a : Byte) : Instr := .gfDiv 1#8 a

/-- `GF_SQR a`. -/
def opGfSqr (a : Byte) : Instr := .gfMul a a

/-- The LEVEL code of a level (10_state.md R44). -/
def EcLevel.code : EcLevel → Word
  | .l => 0#32
  | .m => 1#32
  | .q => 2#32
  | .h => 3#32

/-- `LEVEL_L`, `LEVEL_M`, `LEVEL_Q`, `LEVEL_H`. -/
def opLevel (lev : EcLevel) : HostOp := .wr .level lev.code

/-- `FORCE_BYTE`. -/
def opForceByte : HostOp := .wr .mode 4#32

/-- `SOFT_RESET`. -/
def opSoftReset : HostOp := .wr .ctrl 1#32

end Sys2Proof.Machine
end

