-- ==== Sys2Proof/Safety.lean ====
section
/-! DEFINITION. What counts as a safe run, the invariant of QRE, and the terms the claims are stated in: the tables and
formulas of the spec written again in the shape a claim needs, none of them called by the machine. -/

namespace Sys2Proof.Machine

/-- A step of the machine that goes on, and in which the host, if it is the host's turn, meets no bus error. -/
def safeStep (s : State) : Bool :=
  match step s with
  | .next _ =>
    match s.turns with
    | .host acc :: ts =>
      match hostStep acc { s with turns := ts } with
      | .next _ => true
      | .fault _ => false
      | .refused _ => false
    | .engine :: _ => true
    | [] => true
  | .fault _ => false
  | .refused _ => false

/-- The access `acc`, next in `s` with the turns `ts` after it, is the bus error `f`: the host's step is a fault
(20_memory.md R101), and the machine answers it and changes nothing else. -/
def busErrorOf (s : State) (acc : Access) (ts : List Turn) (f : Fault) : Prop :=
  hostStep acc { s with turns := ts } = .fault f ∧ step s = .next { s with turns := ts, reply := .busError f }

/-! ### The invariant -/

/-- The memories are canonical and list nothing beyond their sizes, MXM holds three bits a byte, and PIX_MAX_PIXELS is in
its bounds (10_state.md R70, R73 to R75, 20_memory.md R100, 00_scope.md R9). -/
def State.memoriesOk (s : State) : Bool :=
  s.txt.wf && s.txt.below Config.txtSize && s.cwm.wf && s.cwm.below Config.cwmSize &&
    s.mxm.wf && s.mxm.below Config.mxmSize && s.mxm.all (fun c => c.2.toNat < 8) &&
    s.pix.wf && s.pix.below (4 * s.pixMax) && Config.pixMaxLeast ≤ s.pixMax && s.pixMax ≤ Config.pixMaxGreatest

/-- The flags agree with each other and with ERRCODE (10_state.md R37 to R41, 60_exceptions.md R520). -/
def State.flagsOk (s : State) : Bool :=
  !(s.status.busy && (s.status.done || s.status.err)) && (!s.status.err || s.status.done) && s.errcode.toNat ≤ 6 &&
    (!s.status.done || (s.status.err == (s.errcode != 0#8)))

/-- What a PHASE says of the registers (10_state.md R45, R54, R55): from PACKED on, MODE, VERSION, LEVEL and the text
agree and DATA_CW and BITLEN are theirs; from ASSEMBLED on, TOTAL_CW is VERSION's; from PATTERNED on, so is MX_SIZE. -/
def State.pipelineOk (s : State) : Bool :=
  (s.phaseNat < 3 ||
    match Mode.ofCode s.mode with
    | none => false
    | some m =>
      legalVersion s.versionNat && legalTextLen s.textBytes && textInClass m s.text &&
        fits m s.textBytes s.versionNat s.ecLevel && s.dataCw.toNat == dataCodewords s.versionNat s.ecLevel &&
        s.bitLen.toNat == reqBits m s.textBytes s.versionNat) &&
    (s.phaseNat < 4 || s.totalCw.toNat == totalCodewords s.versionNat) &&
    (s.phaseNat < 5 || s.mxSize.toNat == gridSide s.versionNat)

/-- The bounds of the reported sizes (43_data_encoder.md R273, 10_state.md R55, 47_raster.md R470). -/
def State.sizesOk (s : State) : Bool :=
  s.dataCw.toNat ≤ 2956 && s.totalCw.toNat ≤ 3706 && s.bitLen.toNat ≤ 8 * 2956 &&
    (s.mxSize.toNat == 0 || (21 ≤ s.mxSize.toNat && s.mxSize.toNat ≤ 177 && s.mxSize.toNat % 4 == 1)) &&
    s.pixSide.toNat * s.pixSide.toNat ≤ s.pixMax

/-- PENALTY is the sum of its four parts, with no wrap (10_state.md R51, 46_mask.md R418, R425). -/
def State.penaltyOk (s : State) : Bool :=
  s.penalty.toNat == s.penN1.toNat + s.penN2.toNat + s.penN3.toNat + s.penN4.toNat && s.penalty.toNat < 2520000

/-- MASK is the lowest index of the least SCORE (10_state.md R50, R52, 46_mask.md R440). -/
def State.selectionOk (s : State) : Bool :=
  (List.finRange 8).all (fun k => decide (s.scores[s.mask.toFin] ≤ s.scores[k]) &&
    (!decide (k < s.mask.toFin) || decide (s.scores[s.mask.toFin] < s.scores[k])))

/-- The invariant every step keeps. -/
abbrev State.Inv (s : State) : Prop :=
  s.memoriesOk = true ∧ s.flagsOk = true ∧ s.pipelineOk = true ∧ s.sizesOk = true ∧ s.penaltyOk = true ∧
    s.selectionOk = true

/-! ### Command words and registers -/

/-- A word that is a command, by its four bytes (30_encoding.md R145). -/
def isCommandWord (w : Word) : Prop :=
  let opc := w.toNat % 2 ^ 8
  let a := w.toNat / 2 ^ 8 % 2 ^ 8
  let b := w.toNat / 2 ^ 16 % 2 ^ 8
  let c := w.toNat / 2 ^ 24
  opc ∈ [0x00, 0x01, 0x02, 0x03, 0x04, 0x10, 0x11, 0x20, 0x21, 0x22, 0x30, 0x40, 0x41, 0x50, 0x51, 0x52, 0x53, 0x54,
      0x60, 0x70] ∧
    c = 0 ∧ (opc ∈ [0x01, 0x02] ∨ b = 0) ∧ (opc ∈ [0x01, 0x02, 0x03, 0x04, 0x10, 0x11, 0x50, 0x52] ∨ a = 0)

/-- The reset value of a register as the host reads it (70_reset_and_hazards.md R570). -/
def resetValue : Reg → Word
  | .id => 0x51520007#32
  | .level => 1#32
  | .quiet => 4#32
  | .dark => 0x000000FF#32
  | .light => 0xFFFFFFFF#32
  | .ctrl | .status | .errcode | .cmd | .result | .textLen | .mode | .version | .mask | .phase | .src | .dst | .len
  | .dataCw | .totalCw | .bitLen | .mxSize | .penalty | .penN1 | .penN2 | .penN3 | .penN4 | .score _ | .pixSize
  | .pixSide | .pixScale | .pixOffset => 0#32

/-- What the host reads from a register, as a number, from the fields of the state: the used field, every other bit 0
(10_state.md R33, R34); of STATUS, BUSY in bit 0, DONE in bit 1, ERR in bit 2, OVERRUN in bit 3 (R36). -/
def registerShows (s : State) : Reg → Nat
  | .id => 0x51520007
  | .ctrl => 0
  | .status =>
    s.status.busy.toNat + 2 * s.status.done.toNat + 4 * s.status.err.toNat + 8 * s.status.overrun.toNat
  | .errcode => s.errcode.toNat
  | .cmd => s.cmd.toNat
  | .result => s.result.toNat
  | .level => s.level.toNat
  | .textLen => s.textLen.toNat
  | .mode => s.mode.toNat
  | .version => s.version.toNat
  | .mask => s.mask.toNat
  | .phase => s.phase.toNat
  | .src => s.src.toNat
  | .dst => s.dst.toNat
  | .len => s.len.toNat
  | .dataCw => s.dataCw.toNat
  | .totalCw => s.totalCw.toNat
  | .bitLen => s.bitLen.toNat
  | .mxSize => s.mxSize.toNat
  | .penalty => s.penalty.toNat
  | .penN1 => s.penN1.toNat
  | .penN2 => s.penN2.toNat
  | .penN3 => s.penN3.toNat
  | .penN4 => s.penN4.toNat
  | .score k => s.scores[k].toNat
  | .pixSize => s.pixSize.toNat
  | .quiet => s.quiet.toNat
  | .dark => s.dark.toNat
  | .light => s.light.toNat
  | .pixSide => s.pixSide.toNat
  | .pixScale => s.pixScale.toNat
  | .pixOffset => s.pixOffset.toNat

/-- The used bits of a register the host can store into; none for the registers it cannot (10_state.md R33). -/
def storedBits : Reg → Option Word
  | .level => some 0x3#32
  | .textLen => some 0x3FFF#32
  | .mode => some 0xF#32
  | .version => some 0x3F#32
  | .src | .dst | .len | .pixSize => some 0xFFFF#32
  | .quiet => some 0xFF#32
  | .dark | .light => some 0xFFFFFFFF#32
  | .id | .ctrl | .status | .errcode | .cmd | .result | .mask | .phase | .dataCw | .totalCw | .bitLen | .mxSize | .penalty
  | .penN1 | .penN2 | .penN3 | .penN4 | .score _ | .pixSide | .pixScale | .pixOffset => none

/-- The registers that ignore a host write (10_state.md R33). -/
def readOnlyReg (r : Reg) : Bool := (storedBits r).isNone && !(r == .ctrl || r == .status || r == .cmd)

/-- The host address is in TXT, CWM, MXM or PIX (20_memory.md R100). -/
def inMemoryRegion (pixMax a : Nat) : Prop :=
  (0x010000 ≤ a ∧ a ≤ 0x011FFF) ∨ (0x020000 ≤ a ∧ a ≤ 0x021FFF) ∨ (0x030000 ≤ a ∧ a ≤ 0x037A60) ∨
    (0x400000 ≤ a ∧ a < 0x400000 + 4 * pixMax)

/-- The commands ENCODE chains, in order (48_top.md R495). -/
def encodeChain : List Instr := [.deAnalyze, .deVersion, .dePack, .cwAssemble, .mxInit, .mxPlace, .mkSelect]

/-- Commands executed one after another with no host access between them, up to the first one that fails. -/
def State.execSeq : List Instr → State → State
  | [], s => s
  | i :: is, s =>
    match exec i s with
    | .next t => if t.errcode = 0#8 then State.execSeq is t else t
    | .fault _ => s
    | .refused _ => s

/-! ### The sequencing table of 70_reset_and_hazards.md R580 -/

/-- The PHASE values a command is allowed in. -/
def phaseAllows : Instr → Nat → Bool
  | .nop, _ | .gfMul _ _, _ | .gfDiv _ _, _ | .gfExp _, _ | .gfLog _, _ | .rsGen _, _ | .rsEnc _, _ => true
  | .deAnalyze, _ | .encode, _ => true
  | .deVersion, p => 1 ≤ p
  | .dePack, p => 2 ≤ p
  | .cwAssemble, p => 3 ≤ p
  | .mxInit, p => 4 ≤ p
  | .mxPlace, p => p == 5
  | .mkApply _, p => p == 6 || p == 7
  | .mkScore, p => 6 ≤ p
  | .mxFormat _, p | .mxVersionInfo, p => 5 ≤ p
  | .mkSelect, p => p == 6
  | .render, p => p == 7

/-- PHASE after a command that succeeded in PHASE `p`. -/
def phaseAfter : Instr → Nat → Nat
  | .nop, p | .gfMul _ _, p | .gfDiv _ _, p | .gfExp _, p | .gfLog _, p | .rsGen _, p | .rsEnc _, p => p
  | .deAnalyze, _ => 1
  | .deVersion, _ => 2
  | .dePack, _ => 3
  | .cwAssemble, _ => 4
  | .mxInit, _ => 5
  | .mxPlace, _ => 6
  | .mkApply _, p | .mkScore, p | .mxFormat _, p | .mxVersionInfo, p | .render, p => p
  | .mkSelect, _ => 7
  | .encode, _ => 7

/-! ### Polynomials over GF(256), highest degree first (42_rs.md R230, R232), over the product of 41_gf.md R199 -/

/-- The power α^i by repeated doubling from 1 (41_gf.md R200). -/
def alphaPow (i : Nat) : Byte := gfDouble^[i] 1#8

/-- The value of a polynomial at a point. -/
def polyEval (p : List Byte) (x : Byte) : Byte := p.foldl (fun acc c => gfPolyMul acc x ^^^ c) 0#8

/-- The sum of two polynomials of one length. -/
def polyAdd (p q : List Byte) : List Byte := List.zipWith (fun a b => a ^^^ b) p q

/-- The product q · g of a quotient and a polynomial of n + 1 coefficients: the length of q, plus n. -/
def polyMul : List Byte → List Byte → List Byte
  | [], g => List.replicate (g.length - 1) 0#8
  | a :: q, g => polyAdd (g.map (gfPolyMul a) ++ List.replicate q.length 0#8) (0#8 :: polyMul q g)

/-- The product of the factors x ⊕ α^0, …, x ⊕ α^(n - 1) at a point (42_rs.md R231). -/
def rootProduct (n : Nat) (x : Byte) : Byte :=
  (List.range n).foldl (fun acc j => gfPolyMul acc (x ^^^ alphaPow j)) 1#8

/-! ### Text and bits -/

/-- The 45 alphanumeric bytes in order of value (43_data_encoder.md R261). -/
def alnumAlphabet : List Byte :=
  (List.range 10).map (fun i => BitVec.ofNat 8 (0x30 + i)) ++ (List.range 26).map (fun i => BitVec.ofNat 8 (0x41 + i)) ++
    [0x20#8, 0x24#8, 0x25#8, 0x2A#8, 0x2B#8, 0x2D#8, 0x2E#8, 0x2F#8, 0x3A#8]

/-- The value of bits, the first the most significant (00_scope.md R12). -/
def bitsValue (s : List Bool) : Nat := s.foldl (fun n b => 2 * n + b.toNat) 0

/-- Bit `p` of a codeword sequence, each codeword most significant bit first (20_memory.md R125). -/
def codewordBit (c : List Byte) (p : Nat) : Bool := (c.getD (p / 8) 0#8).getLsbD (7 - p % 8)

/-! ### Cells of MXM -/

/-- Cell (r, c) of MXM (10_state.md R70). -/
def State.cell (s : State) (r c : Nat) : Cell := cellOfByte (s.mxm.read (r * 177 + c))

/-- An address of MXM that is no cell of the N × N symbol (10_state.md R72). -/
def outsideSymbol (n a : Nat) : Bool := n ≤ a / 177 || n ≤ a % 177

/-- The format bit a cell shows, when it is a format-information cell (45_matrix.md R356). -/
def formatBitAt (n r c : Nat) : Option Nat :=
  if c = 8 ∧ r ≤ 5 then some r
  else if r = 7 ∧ c = 8 then some 6
  else if r = 8 ∧ c = 8 then some 7
  else if r = 8 ∧ c = 7 then some 8
  else if r = 8 ∧ c ≤ 5 then some (14 - c)
  else if r = 8 ∧ n ≤ c + 8 ∧ c < n then some (n - 1 - c)
  else if c = 8 ∧ n ≤ r + 7 ∧ r < n then some (r + 15 - n)
  else none

/-- The version bit a cell shows, when it is a version-information cell of version `v` (45_matrix.md R359). -/
def versionBitAt (v n r c : Nat) : Option Nat :=
  if v < 7 then none
  else if r ≤ 5 ∧ n - 11 ≤ c ∧ c ≤ n - 9 then some (3 * r + (c - (n - 11)))
  else if c ≤ 5 ∧ n - 11 ≤ r ∧ r ≤ n - 9 then some (3 * c + (r - (n - 11)))
  else none

/-- The mask formulas (46_mask.md R410). -/
def maskFormula (k i j : Nat) : Prop :=
  (k = 0 ∧ (i + j) % 2 = 0) ∨ (k = 1 ∧ i % 2 = 0) ∨ (k = 2 ∧ j % 3 = 0) ∨ (k = 3 ∧ (i + j) % 3 = 0) ∨
    (k = 4 ∧ (i / 2 + j / 3) % 2 = 0) ∨ (k = 5 ∧ i * j % 2 + i * j % 3 = 0) ∨
    (k = 6 ∧ (i * j % 2 + i * j % 3) % 2 = 0) ∨ (k = 7 ∧ ((i + j) % 2 + i * j % 3) % 2 = 0)

/-- The top-left corners of the finder patterns (45_matrix.md R352). -/
def finderCorners (n : Nat) : List (Nat × Nat) := [(0, 0), (0, n - 7), (n - 7, 0)]

/-- The Chebyshev distance of two cells. -/
def cellDistance (r c r' c' : Nat) : Nat := max (absDiff r r') (absDiff c c')

/-- The centres of a version's alignment patterns (45_matrix.md R355). -/
def alignmentCentres (v : Nat) : List (Nat × Nat) :=
  let p := alignCoords v
  let last := p.length - 1
  (List.range p.length).flatMap (fun a => (List.range p.length).filterMap (fun b =>
    if (a = 0 ∧ b = 0) ∨ (a = 0 ∧ b = last) ∨ (a = last ∧ b = 0) then none else some (p.getD a 0, p.getD b 0)))

/-- A timing cell (45_matrix.md R353). -/
def isTimingCell (n r c : Nat) : Bool := (r == 6 && 8 ≤ c && c ≤ n - 9) || (c == 6 && 8 ≤ r && r ≤ n - 9)

/-- Cell (r, c) of a version after MX_INIT, read off the rules of 45_matrix.md one by one: finders and separators (R352),
alignment (R355), timing (R353), the dark module (R358), the reservations (R357, R359), and EMPTY elsewhere (R360). -/
def patternCell (v r c : Nat) : Cell :=
  let n := gridSide v
  match (finderCorners n).find? (fun p => cellDistance r c (p.1 + 3) (p.2 + 3) ≤ 4) with
  | some p =>
    let d := cellDistance r c (p.1 + 3) (p.2 + 3)
    funcCell (d != 2 && d != 4)
  | none =>
    match (alignmentCentres v).find? (fun p => cellDistance r c p.1 p.2 ≤ 2) with
    | some p => funcCell (cellDistance r c p.1 p.2 != 1)
    | none =>
      if isTimingCell n r c then funcCell ((r + c) % 2 == 0)
      else if r = n - 8 ∧ c = 8 then CellCode.funcDark
      else if (formatBitAt n r c).isSome || (versionBitAt v n r c).isSome then CellCode.reservedUnset
      else CellCode.empty

/-- Cell (r, c) of trial `k` of MK_SELECT, from the cell `x` that MXM holds there (46_mask.md R411, R424, R440). -/
def trialCell (v : Nat) (lev : EcLevel) (k : BitVec 3) (r c : Nat) (x : Cell) : Cell :=
  match formatBitAt (gridSide v) r c with
  | some b => funcCell ((formatBits lev k).getLsbD b)
  | none =>
    match versionBitAt v (gridSide v) r c with
    | some b => funcCell ((versionBits v).getLsbD b)
    | none => maskCell k r c x

/-! ### The penalty of 46_mask.md R414 to R417, as sums -/

/-- The cells `p` to `p + l - 1` of a line of `n` colours have one colour, and no longer run holds them. -/
def maximalRun (n : Nat) (line : Nat → Bool) (p l : Nat) : Bool :=
  1 ≤ l && p + l ≤ n && (List.range l).all (fun i => line (p + i) == line p) && (p == 0 || line (p - 1) != line p) &&
    (p + l == n || line (p + l) != line p)

/-- N1 of a line: 3 + (L - 5) for each maximal run of L ≥ 5 (R414). -/
def lineN1 (n : Nat) (line : Nat → Bool) : Nat :=
  ∑ p ∈ Finset.range n, ∑ l ∈ Finset.Icc 5 n, if maximalRun n line p l then 3 + (l - 5) else 0

/-- N3 of a line: 40 for each window equal to one of the two patterns (R416). -/
def lineN3 (n : Nat) (line : Nat → Bool) : Nat :=
  ∑ p ∈ Finset.range (n - 10),
    ((if (List.range 11).map (fun i => line (p + i)) =
        [true, false, true, true, true, false, true, false, false, false, false] then 40 else 0) +
      (if (List.range 11).map (fun i => line (p + i)) =
        [false, false, false, false, true, false, true, true, true, false, true] then 40 else 0))

/-- N2 of an n × n matrix of colours (R415). -/
def matrixN2 (n : Nat) (col : Nat → Nat → Bool) : Nat :=
  ∑ r ∈ Finset.range (n - 1), ∑ c ∈ Finset.range (n - 1),
    if col r c = col r (c + 1) ∧ col r c = col (r + 1) c ∧ col r c = col (r + 1) (c + 1) then 3 else 0

/-- The number of dark cells of an n × n matrix of colours. -/
def matrixDark (n : Nat) (col : Nat → Nat → Bool) : Nat :=
  ∑ r ∈ Finset.range n, ∑ c ∈ Finset.range n, (col r c).toNat

/-- N1 of an n × n matrix of colours: its rows and its columns. -/
def matrixN1 (n : Nat) (col : Nat → Nat → Bool) : Nat :=
  ∑ i ∈ Finset.range n, (lineN1 n (col i) + lineN1 n (fun j => col j i))

/-- N3 of an n × n matrix of colours: its rows and its columns. -/
def matrixN3 (n : Nat) (col : Nat → Nat → Bool) : Nat :=
  ∑ i ∈ Finset.range n, (lineN3 n (col i) + lineN3 n (fun j => col j i))

/-- N4 of an n × n matrix of colours (R417). -/
def matrixN4 (n : Nat) (col : Nat → Nat → Bool) : Nat :=
  10 * ((20 * (matrixDark n col : Int) - 10 * ((n * n : Nat) : Int)).natAbs / (n * n))

/-- The four penalties of an n × n matrix of colours. -/
def matrixPenalty (n : Nat) (col : Nat → Nat → Bool) : Penalty :=
  ⟨matrixN1 n col, matrixN2 n col, matrixN3 n col, matrixN4 n col⟩

/-- The bounds of the penalties of an n × n matrix (46_mask.md R425). -/
def penaltiesWithin (n : Nat) (p : Penalty) : Prop :=
  p.n1 ≤ 2 * n * (n - 2) ∧ p.n2 ≤ 3 * (n - 1) ^ 2 ∧ p.n3 ≤ 40 * (2 * n * (n - 10)) ∧ p.n4 ≤ 100 ∧ p.total < 2520000

/-- The penalties PEN_N1 to PEN_N4 hold (10_state.md R51). -/
def State.penalties (s : State) : Penalty := ⟨s.penN1.toNat, s.penN2.toNat, s.penN3.toNat, s.penN4.toNat⟩

/-! ### The zig-zag (45_matrix.md R370) -/

/-- The right column of column pair `q`: n - 1, n - 3, …, 8, then 5, 3, 1. -/
def zigzagColumn (n q : Nat) : Nat := if 8 ≤ n - 1 - 2 * q then n - 1 - 2 * q else n - 2 - 2 * q

/-- The cell at place `p` of the zig-zag order: pairs from the right, upward and downward in turn, the right cell of a row
before the left one. -/
def zigzagCell (n p : Nat) : Nat × Nat :=
  let q := p / (2 * n)
  let t := p % (2 * n) / 2
  (if q % 2 = 0 then n - 1 - t else t, zigzagColumn n q - p % 2)

end Sys2Proof.Machine
end

