-- ==== Sys2Proof/Certificates/Slice0/Obligations.lean ====
section
/-! DEFINITION. The statements for the provers, each a rule of the spec in the model's terms. -/

open Sys2Proof Sys2Proof.Machine

/-! ### Command words -/

/-- 30_encoding.md R140, R142, R144: the decoder reads every command back from its word, with every operand byte. -/
def Obligations.DecodeOfEncode : Prop := ∀ i : Instr, decodeWord (encode i) = .ok i

/-- 30_encoding.md R144: each command has exactly one encoding per operand value. -/
def Obligations.EncodeOfDecode : Prop := ∀ (w : Word) (i : Instr), decodeWord w = .ok i → encode i = w

/-- 30_encoding.md R143 to R145: the engine runs exactly the words R145 accepts and raises ILLEGAL_COMMAND on every
other one. -/
def Obligations.IllegalWordsRaise : Prop :=
  ∀ s : State, s.status.busy = true →
    (¬isCommandWord s.cmd → engineStep s = .next (s.raise .illegalCommand)) ∧
      (isCommandWord s.cmd → ∃ i, decodeWord s.cmd = .ok i ∧ engineStep s = exec i s)

/-- 30_encoding.md R146, with the words of R240, R241, R211 and R490: sample words decode to the commands they stand for. -/
def Obligations.WorkedEncodings : Prop :=
  decodeWord 0x00CA5301#32 = .ok (.gfMul 0x53#8 0xCA#8) ∧ decodeWord 0x00000D11#32 = .ok (.rsEnc 13#8) ∧
    decodeWord 0x00000650#32 = .ok (.mkApply 6#8) ∧ decodeWord 0x00000070#32 = .ok .encode ∧
    decodeWord 0x00000105#32 = .error .unassignedOpcode ∧ decodeWord 0x00010003#32 = .error .nonzeroB ∧
    decodeWord 0x00020102#32 = .ok (.gfDiv 1#8 2#8) ∧ decodeWord 0x00000210#32 = .ok (.rsGen 2#8) ∧
    decodeWord 0x00000000#32 = .ok .nop ∧ decodeWord 0x00000100#32 = .error .nonzeroA

/-! ### The engine's step -/

/-- 20_memory.md R104, 10_state.md R64: with a command pending, the engine's turn is the execution of the command the
word in CMD encodes; around it the step only takes the turn off the interleaving (log 1). -/
def Obligations.StepRunsDecodedCommand : Prop :=
  ∀ (s : State) (i : Instr), s.status.busy = true → decodeWord s.cmd = .ok i →
    (s.turns = [] → step s = exec i s) ∧
      ∀ ts : List Turn, s.turns = .engine :: ts → step s = exec i { s with turns := ts }

/-- 10_state.md R31, 30_encoding.md R148, 70_reset_and_hazards.md R572: with no command pending, the engine's turn does
nothing but leave the interleaving (log 1): no command executes by itself. -/
def Obligations.NoCommandNoEffect : Prop :=
  ∀ s : State, s.status.busy = false →
    (s.turns = [] → step s = .next s) ∧
      ∀ ts : List Turn, s.turns = .engine :: ts → step s = .next { s with turns := ts }

/-- 20_memory.md R104: every command completes in one step, with DONE = 1, BUSY = 0, ERR telling whether ERRCODE is not
0, OVERRUN as it was, and ERRCODE one of the codes 0 to 6. -/
def Obligations.EveryCommandCompletes : Prop :=
  ∀ (i : Instr) (s : State), ∃ t, exec i s = .next t ∧
    t.status = ⟨false, true, t.errcode != 0#8, s.status.overrun⟩ ∧ t.errcode.toNat ≤ 6

/-- 60_exceptions.md R523, with R524 and the codes of R520's table: a command that raises an error changes ERRCODE and
STATUS and nothing else; ERRCODE tells which error it was: 1 INPUT_TOO_LARGE, 2 DIVIDE_BY_ZERO, 3 INVALID_PARAMETER,
4 ILLEGAL_COMMAND, 5 SEQUENCE, 6 INVARIANT. -/
def Obligations.FailedCommandChangesNothingElse : Prop :=
  (∀ s t : State, s.status.busy = true → engineStep s = .next t → t.status.err = true →
    t = { s with errcode := t.errcode, status := ⟨false, true, true, s.status.overrun⟩ } ∧
      1 ≤ t.errcode.toNat ∧ t.errcode.toNat ≤ 6 ∧ ∃ e, t = s.raise e) ∧
    (∀ (s : State) (e : ErrorCode),
      s.raise e = { s with errcode := (s.raise e).errcode, status := ⟨false, true, true, s.status.overrun⟩ }) ∧
    ∀ s : State,
      (s.raise .inputTooLarge).errcode = 1#8 ∧ (s.raise .divideByZero).errcode = 2#8 ∧
        (s.raise .invalidParameter).errcode = 3#8 ∧ (s.raise .illegalCommand).errcode = 4#8 ∧
        (s.raise .sequence).errcode = 5#8 ∧ (s.raise .invariant).errcode = 6#8

/-- 20_memory.md R124, 10_state.md R33, R73: no command writes TXT, CMD or a register that only the host writes, and
none touches what the model adds to the machine. -/
def Obligations.CommandsKeepHostPart : Prop :=
  ∀ (i : Instr) (s t : State), exec i s = .next t →
    t.txt = s.txt ∧ t.cmd = s.cmd ∧ t.level = s.level ∧ t.textLen = s.textLen ∧ t.src = s.src ∧ t.dst = s.dst ∧
      t.len = s.len ∧ t.pixSize = s.pixSize ∧ t.quiet = s.quiet ∧ t.dark = s.dark ∧ t.light = s.light ∧
      t.status.overrun = s.status.overrun ∧ t.pixMax = s.pixMax ∧ t.turns = s.turns ∧ t.reply = s.reply

/-- 70_reset_and_hazards.md R580: a command outside its PHASE raises SEQUENCE; a command that succeeds was allowed and
leaves the PHASE of the table. -/
def Obligations.SequencingTable : Prop :=
  ∀ (i : Instr) (s : State),
    (phaseAllows i s.phase.toNat = false → exec i s = .next (s.raise .sequence)) ∧
      ∀ t, exec i s = .next t → t.errcode = 0#8 →
        phaseAllows i s.phase.toNat = true ∧ t.phase.toNat = phaseAfter i s.phase.toNat

/-- 10_state.md R63: no command's behaviour depends on STATUS (nor on the ERRCODE of the command before it). -/
def Obligations.NoCommandReadsFlags : Prop :=
  ∀ (i : Instr) (s t : State) (f : Status) (e : Byte), exec i s = .next t →
    exec i { s with status := f, errcode := e } = .next { t with status := { t.status with overrun := f.overrun } }

/-! ### GF(256) -/

/-- 41_gf.md R202, R210: GF_MUL writes the polynomial product modulo 0x11D and nothing else; the product by logarithms,
and its laws. -/
def Obligations.GfMulIsFieldProduct : Prop :=
  (∀ (a b : Byte) (s : State), exec (.gfMul a b) s = .next ({ s with result := gfPolyMul a b } : State).succeed) ∧
    (∀ a b : Byte, gfPolyMul a b =
      if a = 0#8 ∨ b = 0#8 then 0#8 else gfExpTable ((gfLogTable a + gfLogTable b) % 255)) ∧
    (∀ a b : Byte, gfPolyMul a b = gfPolyMul b a) ∧
    (∀ a b c : Byte, gfPolyMul (gfPolyMul a b) c = gfPolyMul a (gfPolyMul b c)) ∧
    (∀ a b c : Byte, gfPolyMul a (b ^^^ c) = gfPolyMul a b ^^^ gfPolyMul a c) ∧
    (∀ b : Byte, gfPolyMul 1#8 b = b) ∧ ∀ b : Byte, gfPolyMul 0#8 b = 0#8

/-- 41_gf.md R203, R211: GF_DIV, with 0/0 = 0 and x/0 raising DIVIDE_BY_ZERO; a quotient times its divisor gives the
numerator back. -/
def Obligations.GfDivIsFieldQuotient : Prop :=
  ∀ (a b : Byte) (s : State),
    (b = 0#8 → a = 0#8 → exec (.gfDiv a b) s = .next ({ s with result := 0#8 } : State).succeed) ∧
      (b = 0#8 → a ≠ 0#8 → exec (.gfDiv a b) s = .next (s.raise .divideByZero)) ∧
      (b ≠ 0#8 → ∃ q, exec (.gfDiv a b) s = .next ({ s with result := q } : State).succeed ∧ gfPolyMul q b = a ∧
        (a = 0#8 → q = 0#8) ∧ (a ≠ 0#8 → q = gfExpTable ((gfLogTable a + 255 - gfLogTable b) % 255)))

/-- 41_gf.md R204, R212: GF_EXP writes α^(i mod 255), never 0, and 1 for 0 and for 255. -/
def Obligations.GfExpIsPowerOfAlpha : Prop :=
  (∀ (i : Byte) (s : State),
    exec (.gfExp i) s = .next ({ s with result := alphaPow (i.toNat % 255) } : State).succeed ∧
      alphaPow (i.toNat % 255) ≠ 0#8) ∧
    gfExp 255#8 = 1#8 ∧ gfExp 0#8 = 1#8

/-- 41_gf.md R205, R213: GF_LOG writes the one exponent in 0 to 254 of a nonzero byte and raises DIVIDE_BY_ZERO on 0. -/
def Obligations.GfLogIsExponent : Prop :=
  (∀ (a : Byte) (s : State), a ≠ 0#8 → ∃ r : Byte, r.toNat ≤ 254 ∧
    exec (.gfLog a) s = .next ({ s with result := r } : State).succeed ∧ alphaPow r.toNat = a ∧
      ∀ k ≤ 254, alphaPow k = a → k = r.toNat) ∧
    ∀ s : State, exec (.gfLog 0#8) s = .next (s.raise .divideByZero)

/-! ### Reed-Solomon -/

/-- 42_rs.md R231: the generator polynomial is the monic product of its n factors, by the recurrence, with distinct
roots. -/
def Obligations.GeneratorPolynomial : Prop :=
  genPoly 0 = [1#8] ∧
    (∀ n, (genPoly n).length = n + 1 ∧ (genPoly n).headD 0#8 = 1#8 ∧
      ∀ x, polyEval (genPoly n) x = rootProduct n x) ∧
    (∀ m, (genPoly (m + 1)).getD 0 0#8 = 1#8 ∧
      (∀ j, 1 ≤ j → j ≤ m → (genPoly (m + 1)).getD j 0#8 =
        (genPoly m).getD j 0#8 ^^^ gfPolyMul ((genPoly m).getD (j - 1) 0#8) (alphaPow (m % 255))) ∧
      (genPoly (m + 1)).getD (m + 1) 0#8 = gfPolyMul ((genPoly m).getD m 0#8) (alphaPow (m % 255))) ∧
    ∀ i j, i < 255 → j < 255 → alphaPow i = alphaPow j → i = j

/-- 42_rs.md R240: RS_GEN writes the n + 1 coefficients at DST and nothing else, or raises INVALID_PARAMETER when they do
not fit in CWM. -/
def Obligations.RsGenWritesGenerator : Prop :=
  ∀ (n : Byte) (s : State),
    (s.dst.toNat + n.toNat + 1 ≤ 8192 → ∃ t, exec (.rsGen n) s = .next t ∧
      t = ({ s with cwm := t.cwm } : State).succeed ∧
      (∀ j ≤ n.toNat, t.cwm.read (s.dst.toNat + j) = (genPoly n.toNat).getD j 0#8) ∧
      ∀ a, a < s.dst.toNat ∨ s.dst.toNat + n.toNat < a → t.cwm.read a = s.cwm.read a) ∧
      (8192 < s.dst.toNat + n.toNat + 1 → exec (.rsGen n) s = .next (s.raise .invalidParameter))

/-- 42_rs.md R233: the remainder has n codewords, the data followed by it is a multiple of the generator, and it comes by
the linear-feedback division, codeword by codeword from n zeros. -/
def Obligations.RemainderDividesOut : Prop :=
  (∀ (d : List Byte) (n : Nat), (rsRem d n).length = n ∧
    ∃ q : List Byte, q.length = d.length ∧ polyMul q (genPoly n) = d ++ rsRem d n) ∧
    (∀ n, rsRem [] n = List.replicate n 0#8) ∧
    ∀ (d : List Byte) (c : Byte) (n j : Nat), j < n → (rsRem (d ++ [c]) n).getD j 0#8 =
      (rsRem d n).getD (j + 1) 0#8 ^^^ gfPolyMul ((genPoly n).getD (j + 1) 0#8) (c ^^^ (rsRem d n).getD 0 0#8)

/-- 42_rs.md R234: the laws of the remainder: no EC codewords, no data, zero data, linearity, leading zeros, the data [1],
divisibility by the generator and the value 0 at its roots. -/
def Obligations.RemainderLaws : Prop :=
  (∀ d, rsRem d 0 = []) ∧ (∀ n, rsRem [] n = List.replicate n 0#8) ∧
    (∀ k n, rsRem (List.replicate k 0#8) n = List.replicate n 0#8) ∧
    (∀ d d' n, d.length = d'.length → rsRem (polyAdd d d') n = polyAdd (rsRem d n) (rsRem d' n)) ∧
    (∀ k d n, rsRem (List.replicate k 0#8 ++ d) n = rsRem d n) ∧ (∀ n, rsRem [1#8] n = (genPoly n).tail) ∧
    (∀ d n, ∃ q : List Byte, q.length = d.length ∧ polyMul q (genPoly n) = d ++ rsRem d n) ∧
    ∀ d n j, j < n → polyEval (d ++ rsRem d n) (alphaPow j) = 0#8

/-- 42_rs.md R241: RS_ENC writes the n remainder codewords of CWM[SRC ..] at DST, the input read whole before, and
nothing else, or raises INVALID_PARAMETER when a range leaves CWM. -/
def Obligations.RsEncWritesRemainder : Prop :=
  ∀ (n : Byte) (s : State),
    (s.src.toNat + s.len.toNat ≤ 8192 → s.dst.toNat + n.toNat ≤ 8192 → ∃ t, exec (.rsEnc n) s = .next t ∧
      t = ({ s with cwm := t.cwm } : State).succeed ∧
      (∀ j < n.toNat, t.cwm.read (s.dst.toNat + j) =
        (rsRem ((List.range s.len.toNat).map (fun i => s.cwm.read (s.src.toNat + i))) n.toNat).getD j 0#8) ∧
      ∀ a, a < s.dst.toNat ∨ s.dst.toNat + n.toNat ≤ a → t.cwm.read a = s.cwm.read a) ∧
      (8192 < s.src.toNat + s.len.toNat ∨ 8192 < s.dst.toNat + n.toNat →
        exec (.rsEnc n) s = .next (s.raise .invalidParameter))

/-! ### Data encoder -/

/-- 43_data_encoder.md R260 to R263: DE_ANALYZE writes the mode of the text and PHASE 1, and nothing else. -/
def Obligations.DeAnalyzeSelectsMode : Prop :=
  ∀ s : State,
    (s.textLen.toNat ≤ 8192 → ∃ m, exec .deAnalyze s = .next ({ s with mode := m, phase := 1#3 } : State).succeed ∧
      ((∀ i < s.textLen.toNat, 0x30 ≤ (s.txt.read i).toNat ∧ (s.txt.read i).toNat ≤ 0x39) → m = 0b0001#4) ∧
      ((∃ i < s.textLen.toNat, (s.txt.read i).toNat < 0x30 ∨ 0x39 < (s.txt.read i).toNat) →
        (∀ i < s.textLen.toNat, s.txt.read i ∈ alnumAlphabet) → m = 0b0010#4) ∧
      ((∃ i < s.textLen.toNat, s.txt.read i ∉ alnumAlphabet) → m = 0b0100#4)) ∧
      (8192 < s.textLen.toNat → exec .deAnalyze s = .next (s.raise .invalidParameter))

/-- 43_data_encoder.md R274, R281: the fit test, whose second condition never decides; D rises strictly with the version,
the required bits never fall, no version fits exactly when 40 does not; D falls from L to H at every version, and a text
that fits at H fits at every level in the same or a smaller version. -/
def Obligations.CapacityIsMonotone : Prop :=
  (∀ m n v lev, fits m n v lev = true ↔ reqBits m n v ≤ 8 * dataCodewords v lev ∧ n < 2 ^ ccBits m v) ∧
    (∀ m n v lev, 1 ≤ v → v ≤ 40 → reqBits m n v ≤ 8 * dataCodewords v lev → n < 2 ^ ccBits m v) ∧
    (∀ v lev, 1 ≤ v → v < 40 → dataCodewords v lev < dataCodewords (v + 1) lev) ∧
    (∀ m n v, reqBits m n v ≤ reqBits m n (v + 1)) ∧
    (∀ m n lev, fits m n 40 lev = false → ∀ v, 1 ≤ v → v ≤ 40 → fits m n v lev = false) ∧
    (∀ m n lev, selectVersion m n lev = none ↔ fits m n 40 lev = false) ∧
    (∀ v, 1 ≤ v → v ≤ 40 → dataCodewords v .m < dataCodewords v .l ∧ dataCodewords v .q < dataCodewords v .m ∧
      dataCodewords v .h < dataCodewords v .q) ∧
    ∀ m n v lev, 1 ≤ v → v ≤ 40 → fits m n v .h = true → ∃ u, 1 ≤ u ∧ u ≤ v ∧ fits m n u lev = true

/-- 43_data_encoder.md R280, R285: DE_VERSION writes the smallest version that holds the text, and PHASE 2, and nothing
else, or raises INPUT_TOO_LARGE when none does. -/
def Obligations.DeVersionSelectsSmallest : Prop :=
  ∀ (s : State) (m : Mode), 1 ≤ s.phase.toNat → Mode.ofCode s.mode = some m → s.textLen.toNat ≤ 8192 →
    (∀ v, 1 ≤ v → v ≤ 40 → reqBits m s.textLen.toNat v ≤ 8 * dataCodewords v (EcLevel.ofCode s.level) →
      (∀ u, 1 ≤ u → u < v → 8 * dataCodewords u (EcLevel.ofCode s.level) < reqBits m s.textLen.toNat u) →
      exec .deVersion s = .next ({ s with version := BitVec.ofNat 6 v, phase := 2#3 } : State).succeed) ∧
      ((∀ u, 1 ≤ u → u ≤ 40 → 8 * dataCodewords u (EcLevel.ofCode s.level) < reqBits m s.textLen.toNat u) →
        exec .deVersion s = .next (s.raise .inputTooLarge))

/-- 43_data_encoder.md R290 to R293, R275, R276: the parts of the bitstream and what each group of bits is worth; the mode
indicators are those of 10_state.md R48. -/
def Obligations.BitstreamParts : Prop :=
  [Mode.numeric, .alphanumeric, .byte].map Mode.code = [0b0001#4, 0b0010#4, 0b0100#4] ∧
  (∀ t m v, t.length < 2 ^ ccBits m v →
    bitsValue ((bitstream t m v).take 4) = m.code.toNat ∧
      bitsValue (((bitstream t m v).drop 4).take (ccBits m v)) = t.length ∧
      (bitstream t m v).drop (4 + ccBits m v) = dataStream m t ∧ (dataStream m t).length = dataBits m t.length ∧
      (bitstream t m v).length = reqBits m t.length v) ∧
    (∀ t : List Byte, (∀ b ∈ t, 0x30 ≤ b.toNat ∧ b.toNat ≤ 0x39) →
      (∀ i < t.length / 3, bitsValue (((dataStream .numeric t).drop (10 * i)).take 10) =
        100 * ((t.getD (3 * i) 0#8).toNat - 0x30) + 10 * ((t.getD (3 * i + 1) 0#8).toNat - 0x30) +
          ((t.getD (3 * i + 2) 0#8).toNat - 0x30)) ∧
      (t.length % 3 = 2 → bitsValue ((dataStream .numeric t).drop (10 * (t.length / 3))) =
        10 * ((t.getD (t.length - 2) 0#8).toNat - 0x30) + ((t.getD (t.length - 1) 0#8).toNat - 0x30)) ∧
      (t.length % 3 = 1 → bitsValue ((dataStream .numeric t).drop (10 * (t.length / 3))) =
        (t.getD (t.length - 1) 0#8).toNat - 0x30)) ∧
    (∀ t : List Byte, (∀ b ∈ t, b ∈ alnumAlphabet) →
      (∀ i < t.length / 2, bitsValue (((dataStream .alphanumeric t).drop (11 * i)).take 11) =
        45 * alnumAlphabet.idxOf (t.getD (2 * i) 0#8) + alnumAlphabet.idxOf (t.getD (2 * i + 1) 0#8)) ∧
      (t.length % 2 = 1 → bitsValue ((dataStream .alphanumeric t).drop (11 * (t.length / 2))) =
        alnumAlphabet.idxOf (t.getD (t.length - 1) 0#8))) ∧
    ∀ (t : List Byte) (i : Nat), i < t.length →
      bitsValue (((dataStream .byte t).drop (8 * i)).take 8) = (t.getD i 0#8).toNat

/-- 43_data_encoder.md R294 to R297, R300: DE_PACK writes the D data codewords (the bitstream, its terminator and zero
bits, then the pad codewords), DATA_CW, BITLEN and PHASE 3, and nothing else. -/
def Obligations.DePackWritesCodewords : Prop :=
  ∀ (s : State) (m : Mode), 2 ≤ s.phase.toNat → Mode.ofCode s.mode = some m →
    1 ≤ s.version.toNat → s.version.toNat ≤ 40 → s.textLen.toNat ≤ 8192 → textInClass m s.text = true →
    reqBits m s.textLen.toNat s.version.toNat ≤ 8 * dataCodewords s.version.toNat (EcLevel.ofCode s.level) →
    ∃ t, exec .dePack s = .next t ∧
      t = ({ s with
        cwm := t.cwm
        dataCw := BitVec.ofNat 16 (dataCodewords s.version.toNat (EcLevel.ofCode s.level))
        bitLen := BitVec.ofNat 16 (reqBits m s.textLen.toNat s.version.toNat)
        phase := 3#3 } : State).succeed ∧
      ∃ bits n d term k, bits = bitstream s.text m s.version.toNat ∧ n = bits.length ∧
        d = dataCodewords s.version.toNat (EcLevel.ofCode s.level) ∧ term = min 4 (8 * d - n) ∧
        k = (n + term + 7) / 8 ∧ k ≤ d ∧
        (∀ p < 8 * k, (t.cwm.read (p / 8)).getLsbD (7 - p % 8) = bits.getD p false) ∧
        (∀ i, k ≤ i → i < d → t.cwm.read i = if (i - k) % 2 = 0 then 0xEC#8 else 0x11#8) ∧
        ∀ a, d ≤ a → t.cwm.read a = s.cwm.read a

/-- 43_data_encoder.md R285, R300, 60_exceptions.md R530: what DE_VERSION and DE_PACK raise, in their order, in a PHASE
that allows them. MODE is legal when it is 0b0001 (Numeric), 0b0010 (Alphanumeric) or 0b0100 (Byte) and at no other value
(10_state.md R48). -/
def Obligations.DataEncoderErrors : Prop :=
  (∀ s : State, 1 ≤ s.phase.toNat → s.mode ∉ [0b0001#4, 0b0010#4, 0b0100#4] ∨ 8192 < s.textLen.toNat →
    exec .deVersion s = .next (s.raise .invalidParameter)) ∧
    (∀ s : State, 2 ≤ s.phase.toNat →
      s.mode ∉ [0b0001#4, 0b0010#4, 0b0100#4] ∨ s.version.toNat = 0 ∨ 40 < s.version.toNat ∨ 8192 < s.textLen.toNat →
      exec .dePack s = .next (s.raise .invalidParameter)) ∧
    ∀ (s : State) (m : Mode), 2 ≤ s.phase.toNat →
      (m = .numeric ∧ s.mode = 0b0001#4) ∨ (m = .alphanumeric ∧ s.mode = 0b0010#4) ∨ (m = .byte ∧ s.mode = 0b0100#4) →
      1 ≤ s.version.toNat → s.version.toNat ≤ 40 → s.textLen.toNat ≤ 8192 →
      (m = .numeric → (∃ i < s.textLen.toNat, (s.txt.read i).toNat < 0x30 ∨ 0x39 < (s.txt.read i).toNat) →
        exec .dePack s = .next (s.raise .invalidParameter)) ∧
        (m = .alphanumeric → (∃ i < s.textLen.toNat, s.txt.read i ∉ alnumAlphabet) →
          exec .dePack s = .next (s.raise .invalidParameter)) ∧
        (textInClass m s.text = true →
          8 * dataCodewords s.version.toNat (EcLevel.ofCode s.level) < reqBits m s.textLen.toNat s.version.toNat →
          exec .dePack s = .next (s.raise .inputTooLarge))

/-! ### Codeword assembler -/

/-- 44_interleaver.md R320, 43_data_encoder.md R271 to R273: the two groups of blocks add up, within the bounds of the
codeword memory's regions. -/
def Obligations.BlockStructure : Prop :=
  ∀ v lev, 1 ≤ v → v ≤ 40 →
    1 ≤ blockCount v lev ∧ blockCount v lev * ecPerBlock v lev ≤ totalCodewords v ∧ 1 ≤ shortLen v lev ∧
      shortBlocks v lev + longBlocks v lev = blockCount v lev ∧
      dataCodewords v lev = shortBlocks v lev * shortLen v lev + longBlocks v lev * (shortLen v lev + 1) ∧
      dataCodewords v lev = totalCodewords v - blockCount v lev * ecPerBlock v lev ∧
      8 * totalCodewords v + remainderBits v = rawModules v ∧ dataCodewords v lev ≤ 2956 ∧ totalCodewords v ≤ 3706

/-- 44_interleaver.md R325, R330: CW_ASSEMBLE writes the interleaved sequence, TOTAL_CW and PHASE 4, and nothing else;
every data and EC codeword stands where the position formulas put it. -/
def Obligations.CwAssembleInterleaves : Prop :=
  ∀ s : State, 3 ≤ s.phase.toNat →
    (1 ≤ s.version.toNat → s.version.toNat ≤ 40 → ∃ t, exec .cwAssemble s = .next t ∧
      t = ({ s with cwm := t.cwm, totalCw := BitVec.ofNat 16 (totalCodewords s.version.toNat), phase := 4#3 } :
        State).succeed ∧
      (∀ a, a < 0x1000 ∨ 0x1000 + totalCodewords s.version.toNat ≤ a → t.cwm.read a = s.cwm.read a) ∧
      ∃ lev b e ns ks d, lev = EcLevel.ofCode s.level ∧ b = blockCount s.version.toNat lev ∧
        e = ecPerBlock s.version.toNat lev ∧ ns = shortBlocks s.version.toNat lev ∧
        ks = shortLen s.version.toNat lev ∧ d = dataCodewords s.version.toNat lev ∧
        (∀ x i, x < b → i < ks → t.cwm.read (0x1000 + (i * b + x)) = s.cwm.read (x * ks + (x - ns) + i)) ∧
        (∀ x, ns ≤ x → x < b →
          t.cwm.read (0x1000 + (ks * b + (x - ns))) = s.cwm.read (x * ks + (x - ns) + ks)) ∧
        ∀ x i, x < b → i < e → t.cwm.read (0x1000 + (d + i * b + x)) =
          (rsRem ((List.range (if x < ns then ks else ks + 1)).map
            (fun j => s.cwm.read (x * ks + (x - ns) + j))) e).getD i 0#8) ∧
      (s.version.toNat = 0 ∨ 40 < s.version.toNat → exec .cwAssemble s = .next (s.raise .invalidParameter))

/-! ### Matrix builder -/

/-- 45_matrix.md R351, R390: MX_INIT completes for every legal version (no pattern meets another of a different colour),
writes MXM, MX_SIZE and PHASE 5 and nothing else, and every cell is the one the pattern rules R352 to R359 give, in the
cell codes of 10_state.md R71. -/
def Obligations.MxInitBuildsPatterns : Prop :=
  [CellCode.empty, CellCode.dataLight, CellCode.dataDark, CellCode.reservedUnset, CellCode.funcLight, CellCode.funcDark] =
    [0b000#3, 0b010#3, 0b011#3, 0b100#3, 0b110#3, 0b111#3] ∧
  ∀ s : State, 4 ≤ s.phase.toNat →
    (1 ≤ s.version.toNat → s.version.toNat ≤ 40 → ∃ t, exec .mxInit s = .next t ∧
      t = ({ s with mxm := t.mxm, mxSize := BitVec.ofNat 8 (17 + 4 * s.version.toNat), phase := 5#3 } : State).succeed ∧
      (∀ r c, r < 17 + 4 * s.version.toNat → c < 17 + 4 * s.version.toNat →
        t.cell r c = patternCell s.version.toNat r c) ∧
      ∀ a, outsideSymbol (17 + 4 * s.version.toNat) a = true → t.mxm.read a = 0#8) ∧
      (s.version.toNat = 0 ∨ 40 < s.version.toNat → exec .mxInit s = .next (s.raise .invalidParameter))

/-- 45_matrix.md R360, 43_data_encoder.md R271: after MX_INIT exactly M(v) cells of the symbol are EMPTY, and MX_PLACE
then finds exactly the 8·T + R(v) cells it needs. -/
def Obligations.MxInitLeavesDataCells : Prop :=
  ∀ s t : State, 4 ≤ s.phase.toNat → 1 ≤ s.version.toNat → s.version.toNat ≤ 40 → exec .mxInit s = .next t →
    ((List.range (17 + 4 * s.version.toNat)).flatMap (fun r =>
      (List.range (17 + 4 * s.version.toNat)).filter (fun c => t.cell r c = CellCode.empty))).length =
        rawModules s.version.toNat ∧
      ∃ u, exec .mxPlace t = .next u ∧ u.errcode = 0#8

/-- 45_matrix.md R370: the zig-zag order of each version's grid, place by place; it holds every cell but those of column 6,
as R370's pseudocode gives it (log 11). -/
def Obligations.ZigzagOrder : Prop :=
  ∀ v, 1 ≤ v → v ≤ 40 →
    zigzag (gridSide v) = (List.range (gridSide v * (gridSide v - 1))).map (zigzagCell (gridSide v)) ∧
      (zigzag (gridSide v)).Nodup ∧
      ∀ r c, (r, c) ∈ zigzag (gridSide v) ↔ r < gridSide v ∧ c < gridSide v ∧ c ≠ 6

/-- 45_matrix.md R377 to R379, R395: MX_PLACE puts bit p of the stream into the p-th data-empty cell of the zig-zag, the
remainder bits light, writes PHASE 6 and nothing else; or raises INVARIANT when the counts differ. -/
def Obligations.MxPlacePutsBits : Prop :=
  ∀ s : State, s.Inv → s.phase.toNat = 5 →
    ∃ n v cells, n = s.mxSize.toNat ∧ v = s.version.toNat ∧
      cells = (zigzag n).filter (fun p => !(s.cell p.1 p.2).getLsbD 2 && !(s.cell p.1 p.2).getLsbD 1) ∧
      (cells.length = 8 * totalCodewords v + remainderBits v → ∃ t, exec .mxPlace s = .next t ∧
        t = ({ s with mxm := t.mxm, phase := 6#3 } : State).succeed ∧
        (∀ p cell, cells[p]? = some cell → t.cell cell.1 cell.2 =
          if p < 8 * totalCodewords v ∧ (s.cwm.read (0x1000 + p / 8)).getLsbD (7 - p % 8) = true
          then CellCode.dataDark else CellCode.dataLight) ∧
        ∀ a, (∀ cell ∈ cells, a ≠ cell.1 * 177 + cell.2) → t.mxm.read a = s.mxm.read a) ∧
      (cells.length ≠ 8 * totalCodewords v + remainderBits v → exec .mxPlace s = .next (s.raise .invariant))

/-! ### Masks -/

/-- 46_mask.md R410, R411, R430: MK_APPLY k inverts the data cells where mask k is true and changes nothing else; k > 7 is
INVALID_PARAMETER. -/
def Obligations.MkApplyInvertsDataCells : Prop :=
  ∀ (s : State) (k : Byte), s.Inv → s.phase.toNat = 6 ∨ s.phase.toNat = 7 →
    (k.toNat ≤ 7 → ∃ t, exec (.mkApply k) s = .next t ∧ t = ({ s with mxm := t.mxm } : State).succeed ∧
      (∀ r c, r < gridSide s.version.toNat → c < gridSide s.version.toNat →
        ((s.cell r c = CellCode.dataLight ∨ s.cell r c = CellCode.dataDark) ∧ maskFormula k.toNat r c →
          t.cell r c = s.cell r c ^^^ 1#3) ∧
        (¬((s.cell r c = CellCode.dataLight ∨ s.cell r c = CellCode.dataDark) ∧ maskFormula k.toNat r c) →
          t.cell r c = s.cell r c)) ∧
      ∀ a, outsideSymbol (gridSide s.version.toNat) a = true → t.mxm.read a = s.mxm.read a) ∧
      (7 < k.toNat → exec (.mkApply k) s = .next (s.raise .invalidParameter))

/-- 46_mask.md R411, R430: MK_APPLY k twice restores the matrix. -/
def Obligations.MkApplyTwiceRestores : Prop :=
  ∀ (s t : State) (k : Byte), s.Inv → exec (.mkApply k) s = .next t → t.errcode = 0#8 →
    exec (.mkApply k) t = .next ({ t with mxm := s.mxm } : State).succeed

/-- 46_mask.md R413 to R418, R431: MK_SCORE writes the four penalties of the symbol's colours and their sum, and nothing
else, when every cell holds a colour; else it raises SEQUENCE. -/
def Obligations.MkScoreWritesPenalty : Prop :=
  ∀ s : State, s.Inv → 6 ≤ s.phase.toNat →
    ((∀ r c, r < gridSide s.version.toNat → c < gridSide s.version.toNat → (s.cell r c).getLsbD 1 = true) →
      exec .mkScore s = .next (s.setPenalty
        (matrixPenalty (gridSide s.version.toNat) (fun r c => (s.cell r c).getLsbD 0))).succeed) ∧
      ((∃ r c, r < gridSide s.version.toNat ∧ c < gridSide s.version.toNat ∧ (s.cell r c).getLsbD 1 = false) →
        exec .mkScore s = .next (s.raise .sequence))

/-- 46_mask.md R425: the bounds of the penalties of an n × n matrix, for the sides for which they are not negative; the
machine's penalty of a grid of colours is the rules' four sums, within those bounds; and no penalty register wraps: after
MK_SCORE the registers PEN_N1 to PEN_N4 hold the sums exactly and PENALTY their total, and after MK_SCORE, MK_SELECT and
ENCODE PENALTY is the total of PEN_N1 to PEN_N4 and all are within the bounds. -/
def Obligations.PenaltyBounds : Prop :=
  (∀ (n : Nat) (col : Nat → Nat → Bool), 11 ≤ n → n ≤ 177 → penaltiesWithin n (matrixPenalty n col)) ∧
    (∀ (n : Nat) (rows : List (List Bool)), 11 ≤ n → n ≤ 177 → rows.length = n → (∀ row ∈ rows, row.length = n) →
      penaltyOf n rows = matrixPenalty n (fun r c => (rows.getD r []).getD c false) ∧
        penaltiesWithin n (penaltyOf n rows)) ∧
    (∀ s : State, s.Inv → 6 ≤ s.phase.toNat →
      (∀ r c, r < gridSide s.version.toNat → c < gridSide s.version.toNat → (s.cell r c).getLsbD 1 = true) →
      ∃ t, exec .mkScore s = .next t ∧
        t.penalties = matrixPenalty (gridSide s.version.toNat) (fun r c => (s.cell r c).getLsbD 0) ∧
        t.penalty.toNat = t.penalties.total ∧ penaltiesWithin (gridSide s.version.toNat) t.penalties) ∧
    ∀ (i : Instr) (s t : State), i = .mkScore ∨ i = .mkSelect ∨ i = .encode → s.Inv → exec i s = .next t →
      t.errcode = 0#8 →
      t.penalty.toNat = t.penalties.total ∧ penaltiesWithin (gridSide t.version.toNat) t.penalties

/-- 46_mask.md R424, R432: MX_FORMAT k writes the format word of LEVEL and k into the 30 format cells, and nothing else;
k > 7 is INVALID_PARAMETER. -/
def Obligations.MxFormatWritesFormat : Prop :=
  ∀ (s : State) (k : Byte), s.Inv → 5 ≤ s.phase.toNat →
    (k.toNat ≤ 7 → ∃ t, exec (.mxFormat k) s = .next t ∧ t = ({ s with mxm := t.mxm } : State).succeed ∧
      (∀ r c, r < gridSide s.version.toNat → c < gridSide s.version.toNat →
        (∀ b, formatBitAt (gridSide s.version.toNat) r c = some b →
          t.cell r c = funcCell ((formatBits (EcLevel.ofCode s.level) (BitVec.ofNat 3 k.toNat)).getLsbD b)) ∧
        (formatBitAt (gridSide s.version.toNat) r c = none → t.cell r c = s.cell r c)) ∧
      ∀ a, outsideSymbol (gridSide s.version.toNat) a = true → t.mxm.read a = s.mxm.read a) ∧
      (7 < k.toNat → exec (.mxFormat k) s = .next (s.raise .invalidParameter))

/-- 46_mask.md R421, R423: the 32 format words, in the order of the table, with the LEVEL codes of its first column
(10_state.md R44: 0 = L, 1 = M, 2 = Q, 3 = H), and the 34 version words. -/
def Obligations.FormatAndVersionWords : Prop :=
  [0#2, 1#2, 2#2, 3#2].map EcLevel.ofCode = [.l, .m, .q, .h] ∧
  (List.range 8).map (fun k => formatBits .l (BitVec.ofNat 3 k)) =
      [0b111011111000100#15, 0b111001011110011#15, 0b111110110101010#15, 0b111100010011101#15, 0b110011000101111#15,
        0b110001100011000#15, 0b110110001000001#15, 0b110100101110110#15] ∧
    (List.range 8).map (fun k => formatBits .m (BitVec.ofNat 3 k)) =
      [0b101010000010010#15, 0b101000100100101#15, 0b101111001111100#15, 0b101101101001011#15, 0b100010111111001#15,
        0b100000011001110#15, 0b100111110010111#15, 0b100101010100000#15] ∧
    (List.range 8).map (fun k => formatBits .q (BitVec.ofNat 3 k)) =
      [0b011010101011111#15, 0b011000001101000#15, 0b011111100110001#15, 0b011101000000110#15, 0b010010010110100#15,
        0b010000110000011#15, 0b010111011011010#15, 0b010101111101101#15] ∧
    (List.range 8).map (fun k => formatBits .h (BitVec.ofNat 3 k)) =
      [0b001011010001001#15, 0b001001110111110#15, 0b001110011100111#15, 0b001100111010000#15, 0b000011101100010#15,
        0b000001001010101#15, 0b000110100001100#15, 0b000100000111011#15] ∧
    (List.range' 7 34).map versionBits =
      [0x07C94#18, 0x085BC#18, 0x09A99#18, 0x0A4D3#18, 0x0BBF6#18, 0x0C762#18, 0x0D847#18, 0x0E60D#18, 0x0F928#18,
        0x10B78#18, 0x1145D#18, 0x12A17#18, 0x13532#18, 0x149A6#18, 0x15683#18, 0x168C9#18, 0x177EC#18, 0x18EC4#18,
        0x191E1#18, 0x1AFAB#18, 0x1B08E#18, 0x1CC1A#18, 0x1D33F#18, 0x1ED75#18, 0x1F250#18, 0x209D5#18, 0x216F0#18,
        0x228BA#18, 0x2379F#18, 0x24B0B#18, 0x2542E#18, 0x26A64#18, 0x27541#18, 0x28C69#18]

/-- 46_mask.md R424, R433: MX_VERSIONINFO writes the version word into the 36 version cells (none below version 7) and
nothing else. -/
def Obligations.MxVersionInfoWritesVersion : Prop :=
  ∀ s : State, s.Inv → 5 ≤ s.phase.toNat → ∃ t, exec .mxVersionInfo s = .next t ∧
    t = ({ s with mxm := t.mxm } : State).succeed ∧
    (∀ r c, r < gridSide s.version.toNat → c < gridSide s.version.toNat →
      (∀ b, versionBitAt s.version.toNat (gridSide s.version.toNat) r c = some b →
        t.cell r c = funcCell ((versionBits s.version.toNat).getLsbD b)) ∧
      (versionBitAt s.version.toNat (gridSide s.version.toNat) r c = none → t.cell r c = s.cell r c)) ∧
    ∀ a, outsideSymbol (gridSide s.version.toNat) a = true → t.mxm.read a = s.mxm.read a

/-- 46_mask.md R440: MK_SELECT scores the eight trial matrices, keeps the one of the lowest index among the least totals,
writes MASK, SCORE0 to SCORE7, the penalty registers and PHASE 7, and nothing else; a cell left unset in a trial raises
SEQUENCE. -/
def Obligations.MkSelectKeepsBestMask : Prop :=
  ∀ s : State, s.Inv → s.phase.toNat = 6 →
    ∃ n v lev pen, n = gridSide s.version.toNat ∧ v = s.version.toNat ∧ lev = EcLevel.ofCode s.level ∧
      pen = (fun k : BitVec 3 => matrixPenalty n (fun r c => (trialCell v lev k r c (s.cell r c)).getLsbD 0)) ∧
      ((∀ r c, r < n → c < n → (s.cell r c).getLsbD 1 = true ∨ (formatBitAt n r c).isSome = true ∨
        (versionBitAt v n r c).isSome = true) → ∃ t, exec .mkSelect s = .next t ∧
        t = ({ s.setPenalty (pen t.mask) with mxm := t.mxm, mask := t.mask, scores := t.scores, phase := 7#3 } :
          State).succeed ∧
        (∀ k : BitVec 3, (pen t.mask).total ≤ (pen k).total ∧ (k < t.mask → (pen t.mask).total < (pen k).total)) ∧
        (∀ k : Fin 8, t.scores[k] = BitVec.ofNat 32 (pen (BitVec.ofNat 3 k.val)).total) ∧
        (∀ r c, r < n → c < n → t.cell r c = trialCell v lev t.mask r c (s.cell r c)) ∧
        ∀ a, outsideSymbol n a = true → t.mxm.read a = s.mxm.read a) ∧
      ((∃ r c, r < n ∧ c < n ∧ (s.cell r c).getLsbD 1 = false ∧ formatBitAt n r c = none ∧
        versionBitAt v n r c = none) → exec .mkSelect s = .next (s.raise .sequence))

/-- 46_mask.md R412: after MK_SELECT every data cell's colour is the bit it held before, XOR the chosen mask. -/
def Obligations.XorLaw : Prop :=
  ∀ s t : State, s.Inv → exec .mkSelect s = .next t → t.errcode = 0#8 →
    ∀ r c, r < gridSide s.version.toNat → c < gridSide s.version.toNat → (t.cell r c).getLsbD 2 = false →
      ((t.cell r c).getLsbD 0 = true ↔ ¬((s.cell r c).getLsbD 0 = true ↔ maskFormula t.mask.toNat r c))

/-! ### Rasterizer -/

/-- 47_raster.md R462 to R464, R470: RENDER writes the W × W image, module (r, c) on its scale × scale block and light
elsewhere, four bytes a pixel, reports the geometry and changes nothing else; or raises INVALID_PARAMETER on size 0,
SEQUENCE on an unset cell, INVALID_PARAMETER on an image too large, in this order. -/
def Obligations.RenderPaintsModules : Prop :=
  ∀ s : State, s.Inv → s.phase.toNat = 7 →
    ∃ n q size scale used w off, n = s.mxSize.toNat ∧ q = s.quiet.toNat ∧ size = s.pixSize.toNat ∧
      scale = max 1 (size / (n + 2 * q)) ∧ used = scale * (n + 2 * q) ∧ w = max size used ∧ off = (w - used) / 2 ∧
      (size ≠ 0 → (∀ r c, r < n → c < n → (s.cell r c).getLsbD 1 = true) → w * w ≤ s.pixMax →
        ∃ t, exec .render s = .next t ∧
          t = ({ s with
            pix := t.pix, pixSide := BitVec.ofNat 16 w, pixScale := BitVec.ofNat 16 scale
            pixOffset := BitVec.ofNat 16 off } : State).succeed ∧
          w < 2 ^ 16 ∧
          (∀ x y, x < w → y < w → ∃ colour : Word,
            (∀ i < 4, (t.pix.read (4 * (y * w + x) + i)).toNat = colour.toNat / 256 ^ (3 - i) % 256) ∧
            (∀ r c, r < n → c < n → off + (q + c) * scale ≤ x → x < off + (q + c + 1) * scale →
              off + (q + r) * scale ≤ y → y < off + (q + r + 1) * scale →
              colour = if (s.cell r c).getLsbD 0 = true then s.dark else s.light) ∧
            ((x < off + q * scale ∨ off + (q + n) * scale ≤ x ∨ y < off + q * scale ∨ off + (q + n) * scale ≤ y) →
              colour = s.light)) ∧
          ∀ a, 4 * (w * w) ≤ a → t.pix.read a = s.pix.read a) ∧
      (size = 0 → exec .render s = .next (s.raise .invalidParameter)) ∧
      (size ≠ 0 → (∃ r c, r < n ∧ c < n ∧ (s.cell r c).getLsbD 1 = false) →
        exec .render s = .next (s.raise .sequence)) ∧
      (size ≠ 0 → (∀ r c, r < n → c < n → (s.cell r c).getLsbD 1 = true) → s.pixMax < w * w →
        exec .render s = .next (s.raise .invalidParameter))

/-! ### Control and the whole pipeline -/

/-- 48_top.md R490: NOP changes the flags and ERRCODE of its completion and nothing else, in every PHASE. -/
def Obligations.NopChangesNothing : Prop :=
  ∀ s : State, exec .nop s =
    .next { s with errcode := 0#8, status := ⟨false, true, false, s.status.overrun⟩ }

/-- 48_top.md R497: ENCODE is the seven chained commands one after another with no host access between them, but that an
error leaves no partial result. -/
def Obligations.EncodeIsTheChain : Prop :=
  ∀ s u : State, u = s.execSeq encodeChain →
    (u.errcode = 0#8 → exec .encode s = .next u) ∧
      (u.errcode ≠ 0#8 → exec .encode s =
        .next { s with errcode := u.errcode, status := ⟨false, true, true, s.status.overrun⟩ })

/-- 48_top.md R495, R496: ENCODE completes in every PHASE for every text that fits a version at LEVEL. It writes MODE,
VERSION, DATA_CW, TOTAL_CW, BITLEN and MX_SIZE of that text, PHASE 7, and the flags and ERRCODE of its completion. MASK, SCORE0
to SCORE7, PENALTY, PEN_N1 to PEN_N4, CWM and MXM change too: of CWM at most the D bytes from 0 and the T bytes from 0x1000;
in MXM every cell of the symbol is set and every byte outside it is 0. Every other register and memory stays. A text that
fits none is INPUT_TOO_LARGE, a length above 8192 INVALID_PARAMETER. -/
def Obligations.EncodeCompletes : Prop :=
  ∀ s : State,
    (s.textLen.toNat ≤ 8192 → ∃ m lev, m = modeOf s.text ∧ lev = EcLevel.ofCode s.level ∧
      (∀ v, 1 ≤ v → v ≤ 40 → reqBits m s.textLen.toNat v ≤ 8 * dataCodewords v lev →
        (∀ u, 1 ≤ u → u < v → 8 * dataCodewords u lev < reqBits m s.textLen.toNat u) →
        ∃ t, exec .encode s = .next t ∧
          t = ({ s with
            mode := m.code, version := BitVec.ofNat 6 v, mask := t.mask, phase := 7#3
            dataCw := BitVec.ofNat 16 (dataCodewords v lev), totalCw := BitVec.ofNat 16 (totalCodewords v)
            bitLen := BitVec.ofNat 16 (reqBits m s.textLen.toNat v), mxSize := BitVec.ofNat 8 (17 + 4 * v)
            penalty := t.penalty, penN1 := t.penN1, penN2 := t.penN2, penN3 := t.penN3, penN4 := t.penN4
            scores := t.scores, cwm := t.cwm, mxm := t.mxm } : State).succeed ∧
          (∀ a, (dataCodewords v lev ≤ a ∧ a < 0x1000) ∨ 0x1000 + totalCodewords v ≤ a → t.cwm.read a = s.cwm.read a) ∧
          (∀ r c, r < 17 + 4 * v → c < 17 + 4 * v → (t.cell r c).getLsbD 1 = true) ∧
          ∀ a, outsideSymbol (17 + 4 * v) a = true → t.mxm.read a = 0#8) ∧
      ((∀ v, 1 ≤ v → v ≤ 40 → 8 * dataCodewords v lev < reqBits m s.textLen.toNat v) →
        exec .encode s = .next (s.raise .inputTooLarge))) ∧
      (8192 < s.textLen.toNat → exec .encode s = .next (s.raise .invalidParameter))

/-! ### Reset and the host -/

/-- 70_reset_and_hazards.md R570, R573: after a hard reset every register reads its reset value and no command is pending,
whatever the memories hold. -/
def Obligations.ResetValues : Prop :=
  ∀ (txt cwm mxm pix : Memory) (pixMax : Nat) (turns : List Turn) (r : Reg),
    (State.powerOn txt cwm mxm pix pixMax turns).readReg r = resetValue r ∧
      (State.powerOn txt cwm mxm pix pixMax turns).status.busy = false

/-- 20_memory.md R100 to R103: which accesses are bus errors, also while a command is pending: each is a fault of the host's
step and changes nothing, and the machine goes on (log 9); an access QRE answers is a step to a next state. The model's own
are: the names of the four bus errors and the answer that `reply` holds (logs 9, 4), which of them an access that breaks
several rules reports, and that a bus error comes before the check of BUSY (log 12), and the last clause but one, a word
access that runs past the end of its memory (log 5). -/
def Obligations.BusErrors : Prop :=
  ∀ (s : State) (acc : Access) (w : Width) (a : Nat) (ts : List Turn), s.turns = .host acc :: ts →
    ((∃ addr, acc = .read w addr ∧ a = addr.toNat) ∨ ∃ addr v, acc = .write w addr v ∧ a = addr.toNat) →
    (¬a < 0x100 → ¬inMemoryRegion s.pixMax a → busErrorOf s acc ts .unmapped) ∧
      (a < 0x100 → ¬(w = .word ∧ a % 4 = 0) → busErrorOf s acc ts .registerAccess) ∧
      (inMemoryRegion s.pixMax a → w = .half → busErrorOf s acc ts .halfword) ∧
      (inMemoryRegion s.pixMax a → w = .word → a % 4 ≠ 0 → busErrorOf s acc ts .misaligned) ∧
      (inMemoryRegion s.pixMax a → w = .word → a % 4 = 0 → ¬inMemoryRegion s.pixMax (a + 3) →
        busErrorOf s acc ts .unmapped) ∧
      ((a < 0x100 ∧ w = .word ∧ a % 4 = 0) ∨ (inMemoryRegion s.pixMax a ∧ w = .byte) ∨
        (inMemoryRegion s.pixMax a ∧ inMemoryRegion s.pixMax (a + 3) ∧ w = .word ∧ a % 4 = 0) →
        ∃ t, hostStep acc { s with turns := ts } = .next t ∧ step s = .next t ∧ ∀ f, t.reply ≠ .busError f)

/-- 20_memory.md R107, R108, R111, R114, 10_state.md R34, R36, R59: a host read changes nothing and answers the register's
used field, zero-extended, of STATUS the bits BUSY, DONE, ERR, OVERRUN from bit 0 up and 0 above them; 0 at a reserved offset;
a byte, or four bytes little-endian, of a memory, where MXM shows bits [2:0]. The registers stand at the offsets of R33's
table. `turns` and `reply` are the model's own (logs 1, 4). -/
def Obligations.HostReads : Prop :=
  [Reg.id, .ctrl, .status, .errcode, .cmd, .result, .level, .textLen, .mode, .version, .mask, .phase, .src, .dst, .len,
    .dataCw].map Reg.offset = [0x00, 0x04, 0x08, 0x0C, 0x10, 0x14, 0x18, 0x1C, 0x20, 0x24, 0x28, 0x2C, 0x30, 0x34, 0x38,
    0x3C] ∧
  [Reg.totalCw, .bitLen, .mxSize, .penalty, .penN1, .penN2, .penN3, .penN4, .pixSize, .quiet, .dark, .light, .pixSide,
    .pixScale, .pixOffset].map Reg.offset = [0x40, 0x44, 0x48, 0x4C, 0x50, 0x54, 0x58, 0x5C, 0x80, 0x84, 0x88, 0x8C, 0x90,
    0x94, 0x98] ∧
  (∀ k : Fin 8, (Reg.score k).offset = 0x60 + 4 * k.val) ∧
  ∀ (s : State) (w : Width) (addr : BusAddr) (ts : List Turn), s.turns = .host (.read w addr) :: ts →
    (∀ t, step s = .next t → t = { s with turns := ts, reply := t.reply }) ∧
      (∀ r : Reg, w = .word → addr.toNat = r.offset → ∃ v : Word, v = s.readReg r ∧
        step s = .next { s with turns := ts, reply := .wordRead v } ∧ v.toNat = registerShows s r) ∧
      (w = .word → addr.toNat = 0x08 → ∃ v : Word,
        step s = .next { s with turns := ts, reply := .wordRead v } ∧ v.getLsbD 0 = s.status.busy ∧
          v.getLsbD 1 = s.status.done ∧ v.getLsbD 2 = s.status.err ∧ v.getLsbD 3 = s.status.overrun ∧
          ∀ i, 4 ≤ i → v.getLsbD i = false) ∧
      (w = .word → 0x9C ≤ addr.toNat → addr.toNat ≤ 0xFC → addr.toNat % 4 = 0 →
        step s = .next { s with turns := ts, reply := .wordRead 0#32 }) ∧
      (∀ sp a, w = .byte → addr.toNat = sp.base + a → a < sp.size s.pixMax →
        step s = .next { s with
          turns := ts
          reply := .byteRead (if sp = .mxm then (s.mxm.read a) &&& 7#8 else (s.space sp).read a) }) ∧
      ∀ sp a, w = .word → addr.toNat = sp.base + a → a + 3 < sp.size s.pixMax → a % 4 = 0 →
        ∃ v : Word, step s = .next { s with turns := ts, reply := .wordRead v } ∧
          ∀ i < 4, BitVec.ofNat 8 (v.toNat / 256 ^ i) =
            if sp = .mxm then (s.mxm.read (a + i)) &&& 7#8 else (s.space sp).read (a + i)

/-- 20_memory.md R106, 10_state.md R40, R42: while a command is pending, every write QRE answers, but one to CTRL, STATUS
or a reserved offset (the last by log 8), stores nothing, changes no PHASE and sets OVERRUN. -/
def Obligations.BusyDropsWrites : Prop :=
  ∀ (s : State) (w : Width) (addr : BusAddr) (v : Word) (ts : List Turn),
    s.status.busy = true → s.turns = .host (.write w addr v) :: ts →
    ((w = .word ∧ addr.toNat < 0x9C ∧ addr.toNat % 4 = 0 ∧ addr.toNat ≠ 4 ∧ addr.toNat ≠ 8) ∨
      (w = .byte ∧ inMemoryRegion s.pixMax addr.toNat) ∨
      (w = .word ∧ addr.toNat % 4 = 0 ∧ inMemoryRegion s.pixMax addr.toNat ∧
        inMemoryRegion s.pixMax (addr.toNat + 3)) →
      step s = .next { s with status := { s.status with overrun := true }, turns := ts, reply := .written }) ∧
      (w = .word → 0x9C ≤ addr.toNat → addr.toNat ≤ 0xFC → addr.toNat % 4 = 0 →
        step s = .next { s with turns := ts, reply := .written })

/-- 10_state.md R42, R37 to R39, R41: a CMD write with no command pending is accepted: CMD, BUSY, DONE and ERR are
written and nothing else; CMD then reads as the word. -/
def Obligations.CommandAcceptance : Prop :=
  ∀ (s : State) (v : Word) (ts : List Turn),
    s.status.busy = false → s.turns = .host (.write .word 0x000010#24 v) :: ts →
    step s = .next { s with
      cmd := v, status := ⟨true, false, false, s.status.overrun⟩, turns := ts, reply := .written } ∧
      ({ s with cmd := v, status := ⟨true, false, false, s.status.overrun⟩, turns := ts, reply := .written } :
        State).readReg .cmd = v

/-- 10_state.md R46: what a host write does to PHASE (a soft reset apart) when it is not dropped, that is, no command is
pending; a write that is a bus error, which `reply` tells (logs 4, 9), leaves PHASE. -/
def Obligations.HostWritesMovePhase : Prop :=
  ∀ (s t : State) (w : Width) (addr : BusAddr) (v : Word) (ts : List Turn),
    s.status.busy = false → s.turns = .host (.write w addr v) :: ts → step s = .next t →
    (t.reply ≠ .written → t.phase = s.phase) ∧ (t.reply = .written →
    ((0x010000 ≤ addr.toNat ∧ addr.toNat ≤ 0x011FFF) ∨ addr.toNat = 0x1C → t.phase = 0#3) ∧
      (addr.toNat = 0x20 → t.phase = 1#3) ∧
      (addr.toNat = 0x18 → t.phase.toNat = min s.phase.toNat 1) ∧
      (addr.toNat = 0x24 → 1 ≤ s.phase.toNat → t.phase = 2#3) ∧
      (addr.toNat = 0x24 → s.phase.toNat = 0 → t.phase = 0#3) ∧
      (¬(0x010000 ≤ addr.toNat ∧ addr.toNat ≤ 0x011FFF) → addr.toNat ≠ 0x1C → addr.toNat ≠ 0x20 →
        addr.toNat ≠ 0x18 → addr.toNat ≠ 0x24 → ¬(addr.toNat = 4 ∧ v.getLsbD 0 = true) → t.phase = s.phase))

/-- 10_state.md R33, R34, R59: with no command pending, a host write to a register stores its used bits, reads back so and
leaves every other register (PHASE apart) and every memory; a read-only register and a reserved offset ignore it. -/
def Obligations.HostWritesRegisters : Prop :=
  ∀ (s : State) (v : Word) (ts : List Turn), s.status.busy = false →
    (∀ (r : Reg) (m : Word), storedBits r = some m → s.turns = .host (.write .word r.addr v) :: ts →
      ∃ t, step s = .next t ∧ t.readReg r = v &&& m ∧
        (∀ q : Reg, q ≠ r → q ≠ .phase → t.readReg q = s.readReg q) ∧
        t.txt = s.txt ∧ t.cwm = s.cwm ∧ t.mxm = s.mxm ∧ t.pix = s.pix ∧ t.pixMax = s.pixMax ∧ t.turns = ts ∧
        t.reply = .written) ∧
      (∀ r : Reg, readOnlyReg r = true → s.turns = .host (.write .word r.addr v) :: ts →
        step s = .next { s with turns := ts, reply := .written }) ∧
      ∀ addr : BusAddr, 0x9C ≤ addr.toNat → addr.toNat ≤ 0xFC → addr.toNat % 4 = 0 →
        s.turns = .host (.write .word addr v) :: ts → step s = .next { s with turns := ts, reply := .written }

/-- 20_memory.md R108 to R112: with no command pending, a host write stores its bytes, the low byte first, in TXT and CWM,
their bits [2:0] in MXM, and nothing in PIX; every other byte and register stays, but that TXT moves PHASE to IDLE. `turns`
and `reply` are the model's own (logs 1, 4). -/
def Obligations.HostWritesMemories : Prop :=
  ∀ (s : State) (w : Width) (sp : Space) (a : Nat) (addr : BusAddr) (v : Word) (ts : List Turn),
    s.status.busy = false → s.turns = .host (.write w addr v) :: ts → addr.toNat = sp.base + a →
    (w = .byte ∧ a < sp.size s.pixMax) ∨ (w = .word ∧ a % 4 = 0 ∧ a + 3 < sp.size s.pixMax) →
    ∃ t n, step s = .next t ∧ n = (if w = .word then 4 else 1) ∧
      t = { s with
        txt := t.txt, cwm := t.cwm, mxm := t.mxm, turns := ts, reply := .written
        phase := if sp = .txt then 0#3 else s.phase } ∧
      (∀ i < n, sp ≠ .pix → (t.space sp).read (a + i) =
        if sp = .mxm then BitVec.ofNat 8 (v.toNat / 256 ^ i) &&& 7#8 else BitVec.ofNat 8 (v.toNat / 256 ^ i)) ∧
      (∀ b, b < a ∨ a + n ≤ b → (t.space sp).read b = (s.space sp).read b) ∧
      (∀ q : Space, q ≠ sp → t.space q = s.space q) ∧ (sp = .pix → t.pix = s.pix)

/-- 70_reset_and_hazards.md R571, 10_state.md R35, R40: a CTRL write with bit 0 set puts every register at its reset
value, a pending command gone, at any time, and keeps the memories; with bit 0 clear it does nothing; a STATUS write
clears OVERRUN by a 1 in bit 3 and does nothing else. `turns` and `reply` are the model's own (logs 1, 4). -/
def Obligations.SoftResetAndStatusWrites : Prop :=
  ∀ (s : State) (v : Word) (ts : List Turn),
    (s.turns = .host (.write .word 0x000004#24 v) :: ts → v.getLsbD 0 = true →
      ∃ t, step s = .next t ∧ (∀ r : Reg, t.readReg r = resetValue r) ∧ t.status.busy = false ∧
        t.txt = s.txt ∧ t.cwm = s.cwm ∧ t.mxm = s.mxm ∧ t.pix = s.pix ∧ t.pixMax = s.pixMax ∧ t.turns = ts) ∧
      (s.turns = .host (.write .word 0x000004#24 v) :: ts → v.getLsbD 0 = false →
        step s = .next { s with turns := ts, reply := .written }) ∧
      (s.turns = .host (.write .word 0x000008#24 v) :: ts →
        step s = .next { s with
          status := { s.status with overrun := s.status.overrun && !v.getLsbD 3 }, turns := ts, reply := .written })

/-! ### The whole machine -/

/-- The invariant holds at reset, and after a hard reset with any canonical memories in their bounds. -/
def Obligations.ResetMeetsInvariant : Prop :=
  State.reset.Inv ∧ ∀ txt cwm mxm pix pixMax turns,
    (State.powerOn txt cwm mxm pix pixMax turns).memoriesOk = true →
    (State.powerOn txt cwm mxm pix pixMax turns).Inv

/-- Every step keeps the invariant: canonical memories within their sizes, consistent flags, registers that agree with
PHASE, the penalty sum and its bound, the lowest least score. -/
def Obligations.StepKeepsInvariant : Prop := ∀ s t : State, s.Inv → step s = .next t → t.Inv

/-- 10_state.md R37, R42, R64, 70_reset_and_hazards.md R571, R583: BUSY rises only by a host write to CMD, which latches
its word; while it stays 1 the pending word, PHASE and every memory stay; and it falls only by the engine's step or a
soft reset. -/
def Obligations.BusyProtocol : Prop :=
  ∀ s t : State, step s = .next t →
    (s.status.busy = false → t.status.busy = true →
      ∃ v ts, s.turns = .host (.write .word 0x000010#24 v) :: ts ∧ t.cmd = v) ∧
      (s.status.busy = true → t.status.busy = true → t.cmd = s.cmd ∧ t.phase = s.phase ∧ t.txt = s.txt ∧
        t.cwm = s.cwm ∧ t.mxm = s.mxm ∧ t.pix = s.pix) ∧
      (s.status.busy = true → t.status.busy = false →
        s.turns = [] ∨ (∃ ts, s.turns = .engine :: ts) ∨
          ∃ v ts, s.turns = .host (.write .word 0x000004#24 v) :: ts ∧ v.getLsbD 0 = true)

/-- 10_state.md R64, 20_memory.md R117, 70_reset_and_hazards.md R583, R590: no step stops, so the engine's step is never out
of reach. From a state with a command pending, unless a soft reset is among the host's accesses, the engine's step comes
within one step more than there are turns (log 1), bus errors of the host among them or not: it runs on the pending command's
state, of which the host has changed OVERRUN and `reply` (log 4) only, and it completes the command: DONE = 1, BUSY = 0. With a
soft reset among them, which discards the command, BUSY falls within the same bound. -/
def Obligations.PendingCommandCompletes : Prop :=
  (∀ s : State, ∃ t, step s = .next t) ∧
    (∀ s : State, s.status.busy = true →
      (∀ v : Word, .host (.write .word 0x000004#24 v) ∈ s.turns → v.getLsbD 0 = false) →
      ∃ (k : Nat) (t u : State), k ≤ s.turns.length ∧ Sys2Proof.core.run k s = .next t ∧
        t = { s with
          status := { s.status with overrun := t.status.overrun }
          turns := s.turns.drop k
          reply := t.reply } ∧
        s.turns[k]?.getD .engine = .engine ∧
        engineStep { t with turns := s.turns.drop (k + 1) } = .next u ∧ Sys2Proof.core.run (k + 1) s = .next u ∧
        u.status.busy = false ∧ u.status.done = true) ∧
    ∀ s : State, s.status.busy = true →
      ∃ (k : Nat) (t : State), k ≤ s.turns.length + 1 ∧ Sys2Proof.core.run k s = .next t ∧ t.status.busy = false
end

