-- ==== Sys2Proof/Laws/Codewords.lean ====
section
/-! SUPPORT. How long the sequences are that the commands write: generator, remainder, bitstream, data codewords, the
interleaved sequence and the image; and the facts about the block table these rest on. -/

namespace Sys2Proof.Machine

/-! ### Reed-Solomon -/

@[simp] theorem length_genPoly (n : Nat) : (genPoly n).length = n + 1 := by
  induction n with
  | zero => rfl
  | succ m ih => simp [genPoly, ih]

theorem length_rsStep {tail e : List Byte} (h : e.length = tail.length) (d : Byte) :
    (rsStep tail e d).length = tail.length := by
  simp [rsStep, h]
  omega

theorem length_rsFold {tail : List Byte} (d : List Byte) {e : List Byte} (h : e.length = tail.length) :
    (d.foldl (rsStep tail) e).length = tail.length := by
  induction d generalizing e with
  | nil => exact h
  | cons x xs ih => exact ih (length_rsStep h x)

@[simp] theorem length_rsRem (d : List Byte) (n : Nat) : (rsRem d n).length = n := by
  rw [rsRem, length_rsFold] <;> simp

/-! ### The block table -/

/-- The facts about the tables, checked entry by entry. -/
def blockFacts (v : Nat) (lev : EcLevel) : Bool :=
  1 ≤ blockCount v lev && ecPerBlock v lev < totalCodewords v / blockCount v lev && totalCodewords v ≤ 3706 &&
    dataCodewords v lev ≤ 2956

theorem blockFacts_all : (List.range' 1 40).all (fun v => [EcLevel.l, .m, .q, .h].all (blockFacts v)) = true := by
  decide +kernel

theorem legalVersion_iff {v : Nat} : legalVersion v = true ↔ 1 ≤ v ∧ v ≤ 40 := by simp [legalVersion]

theorem blockFacts_of_legal {v : Nat} (h : legalVersion v = true) (lev : EcLevel) :
    1 ≤ blockCount v lev ∧ ecPerBlock v lev < totalCodewords v / blockCount v lev ∧ totalCodewords v ≤ 3706 ∧
      dataCodewords v lev ≤ 2956 := by
  rw [legalVersion_iff] at h
  have h1 := List.all_eq_true.1 blockFacts_all v (by simp; omega)
  have h2 := List.all_eq_true.1 h1 lev (by cases lev <;> simp)
  simpa [blockFacts, and_assoc] using h2

/-- The blocks hold the data codewords exactly (44_interleaver.md R320). -/
theorem sum_blockLens {v : Nat} (h : legalVersion v = true) (lev : EcLevel) :
    (blockLens v lev).sum = dataCodewords v lev := by
  obtain ⟨h1, h2, -, -⟩ := blockFacts_of_legal h lev
  simp only [blockLens, List.sum_append, List.sum_replicate, smul_eq_mul, dataCodewords, shortLen, shortBlocks, longBlocks]
  generalize totalCodewords v = t at *
  generalize blockCount v lev = b at *
  generalize ecPerBlock v lev = e at *
  have h3 := Nat.div_add_mod t b
  have h4 := Nat.mod_lt t (show b > 0 by omega)
  obtain ⟨k, hk⟩ : ∃ k, t / b = e + k := ⟨t / b - e, by omega⟩
  obtain ⟨j, hj⟩ : ∃ j, b = t % b + j := ⟨b - t % b, by omega⟩
  rw [show t / b - e = k by omega, show b - t % b = j by omega]
  rw [hk] at h3
  generalize t % b = r at *
  subst hj
  have h5 : (r + j) * (e + k) = (r + j) * e + (j * k + r * k) := by ring
  have h6 : j * k + r * (k + 1) = j * k + r * k + r := by ring
  omega

theorem length_blockLens {v : Nat} (h : legalVersion v = true) (lev : EcLevel) :
    (blockLens v lev).length = blockCount v lev := by
  obtain ⟨h1, -, -, -⟩ := blockFacts_of_legal h lev
  have h4 := Nat.mod_lt (totalCodewords v) (show blockCount v lev > 0 by omega)
  simp only [blockLens, shortBlocks, longBlocks, List.length_append, List.length_replicate]
  omega

/-! ### The bitstream -/

@[simp] theorem length_bitsOf (v w : Nat) : (bitsOf v w).length = w := by simp [bitsOf]

theorem length_numericBits (t : List Byte) : (numericBits t).length = dataBits .numeric t.length := by
  induction t using numericBits.induct with
  | case1 a b c t ih =>
    have h1 : (t.length + 1 + 1 + 1) / 3 = t.length / 3 + 1 := by omega
    have h2 : (t.length + 1 + 1 + 1) % 3 = t.length % 3 := by omega
    simp only [numericBits, List.length_append, length_bitsOf, ih, dataBits, List.length_cons, h1, h2]
    omega
  | case2 a b => simp [numericBits, dataBits]
  | case3 a => simp [numericBits, dataBits]
  | case4 => simp [numericBits, dataBits]

theorem length_alnumBits (t : List Byte) : (alnumBits t).length = dataBits .alphanumeric t.length := by
  induction t using alnumBits.induct with
  | case1 a b t ih => simp [alnumBits, ih, dataBits]; omega
  | case2 a => simp [alnumBits, dataBits]
  | case3 => simp [alnumBits, dataBits]

theorem length_byteBits (t : List Byte) : (byteBits t).length = 8 * t.length := by
  induction t with
  | nil => rfl
  | cons b t ih => simp only [byteBits, List.flatMap_cons, List.length_append, length_bitsOf, List.length_cons] at ih ⊢; omega

theorem length_dataStream (m : Mode) (t : List Byte) : (dataStream m t).length = dataBits m t.length := by
  cases m with
  | numeric => exact length_numericBits t
  | alphanumeric => exact length_alnumBits t
  | byte => exact length_byteBits t

/-- The bitstream has the required bits (43_data_encoder.md R275, R290). -/
theorem length_bitstream (t : List Byte) (m : Mode) (v : Nat) : (bitstream t m v).length = reqBits m t.length v := by
  simp [bitstream, length_dataStream, reqBits]
  omega

theorem length_toCodewords (s : List Bool) : (toCodewords s).length = s.length / 8 := by
  induction s using toCodewords.induct with
  | case1 b7 b6 b5 b4 b3 b2 b1 b0 t ih => simp only [toCodewords, List.length_cons, ih]; omega
  | case2 s hs =>
    rw [toCodewords]
    · have : s.length < 8 := by
        by_contra hlt
        match s, hs with
        | b7 :: b6 :: b5 :: b4 :: b3 :: b2 :: b1 :: b0 :: t, hs => exact hs _ _ _ _ _ _ _ _ _ rfl
        | [], _ | [_], _ | [_, _], _ | [_, _, _], _ | [_, _, _, _], _ | [_, _, _, _, _], _ | [_, _, _, _, _, _], _
        | [_, _, _, _, _, _, _], _ => simp at hlt
      simp; omega
    · exact hs

theorem length_padToByte (s : List Bool) : (padToByte s).length = 8 * ((s.length + 7) / 8) := by
  simp [padToByte]
  omega

/-- DE_PACK's sequence has exactly D codewords when the text fits (43_data_encoder.md R296). -/
theorem length_pack {t : List Byte} {m : Mode} {v : Nat} {lev : EcLevel}
    (h : reqBits m t.length v ≤ 8 * dataCodewords v lev) : (pack t m v lev).length = dataCodewords v lev := by
  rw [← length_bitstream] at h
  simp only [pack, List.length_append, length_toCodewords, length_padToByte, List.length_replicate, padCodewords,
    List.length_map, List.length_range]
  omega

theorem fits_iff {m : Mode} {n v : Nat} {lev : EcLevel} :
    fits m n v lev = true ↔ reqBits m n v ≤ 8 * dataCodewords v lev ∧ n < 2 ^ ccBits m v := by
  simp [fits]

/-! ### The interleaved sequence -/

theorem length_column (blocks : List (List Byte)) (i : Nat) :
    (column blocks i).length = (blocks.map (fun b => if i < b.length then 1 else 0)).sum := by
  induction blocks with
  | nil => rfl
  | cons b bs ih =>
    simp only [column, List.filterMap_cons, List.map_cons, List.sum_cons] at ih ⊢
    by_cases h : i < b.length
    · rw [List.getElem?_eq_getElem h]; simp only [List.length_cons, ih, if_pos h]; omega
    · rw [List.getElem?_eq_none (by omega)]; simp only [ih, if_neg h]; omega

theorem length_columns (blocks : List (List Byte)) (n : Nat) :
    (columns blocks n).length = (blocks.map (fun b => min b.length n)).sum := by
  induction n with
  | zero => simp [columns]
  | succ n ih =>
    have : columns blocks (n + 1) = columns blocks n ++ column blocks n := by
      simp [columns, List.range_succ]
    rw [this, List.length_append, ih, length_column, ← List.sum_map_add]
    congr 1
    apply List.map_congr_left
    intro b _
    split <;> omega

theorem map_length_splitBlocks {lens : List Nat} {d : List Byte} (h : lens.sum ≤ d.length) :
    (splitBlocks lens d).map List.length = lens := by
  induction lens generalizing d with
  | nil => rfl
  | cons k ks ih =>
    simp only [List.sum_cons] at h
    simp only [splitBlocks, List.map_cons, List.length_take, ih (d := d.drop k) (by simp; omega)]
    rw [Nat.min_eq_left (by omega)]

theorem mem_blockLens {v : Nat} {lev : EcLevel} {k : Nat} (h : k ∈ blockLens v lev) : k ≤ shortLen v lev + 1 := by
  simp only [blockLens, List.mem_append, List.mem_replicate] at h
  omega

/-- CW_ASSEMBLE's sequence has exactly T codewords (44_interleaver.md R323). -/
theorem length_interleave {v : Nat} (hv : legalVersion v = true) {lev : EcLevel} {d : List Byte}
    (hd : d.length = dataCodewords v lev) : (interleave v lev d).length = totalCodewords v := by
  have hsum := sum_blockLens hv lev
  have hlen := map_length_splitBlocks (lens := blockLens v lev) (d := d) (by omega)
  obtain ⟨h1, h2, -, -⟩ := blockFacts_of_legal hv lev
  have hdiv := Nat.div_mul_le_self (totalCodewords v) (blockCount v lev)
  simp only [interleave, List.length_append, length_columns, List.map_map]
  have e1 : (splitBlocks (blockLens v lev) d).map (fun b => min b.length (shortLen v lev + 1)) = blockLens v lev := by
    conv_rhs => rw [← hlen]
    apply List.map_congr_left
    intro b hb
    have : b.length ∈ blockLens v lev := by rw [← hlen]; exact List.mem_map_of_mem hb
    have := mem_blockLens this
    omega
  have e2 : (splitBlocks (blockLens v lev) d).map
      ((fun b => min b.length (ecPerBlock v lev)) ∘ fun b => rsRem b (ecPerBlock v lev)) =
      List.replicate (blockCount v lev) (ecPerBlock v lev) := by
    have hb : (splitBlocks (blockLens v lev) d).length = blockCount v lev := by
      rw [← length_blockLens hv lev]
      conv_rhs => rw [← hlen]
      simp
    rw [← hb]
    apply List.ext_getElem <;> simp
  rw [e1, e2, hsum, List.sum_replicate, dataCodewords, smul_eq_mul]
  have : blockCount v lev * ecPerBlock v lev ≤ totalCodewords v := by
    calc blockCount v lev * ecPerBlock v lev ≤ blockCount v lev * (totalCodewords v / blockCount v lev) :=
          Nat.mul_le_mul_left _ (by omega)
      _ ≤ totalCodewords v := Nat.mul_div_le _ _
  omega

/-! ### The image -/

theorem length_imageBytes (geo : Geometry) (n q : Nat) (g : Grid) (dark light : Word) :
    (imageBytes geo n q g dark light).length = 4 * (geo.side * geo.side) := by
  have row : ∀ y k, ((List.range k).flatMap (fun x => pixelBytes (pixelAt geo n q g dark light x y))).length = 4 * k := by
    intro y k
    induction k with
    | zero => rfl
    | succ k ih => rw [List.range_succ, List.flatMap_append, List.length_append, ih]; simp [pixelBytes]; omega
  have all : ∀ k, ((List.range k).flatMap (fun y => (List.range geo.side).flatMap (fun x =>
      pixelBytes (pixelAt geo n q g dark light x y)))).length = 4 * (geo.side * k) := by
    intro k
    induction k with
    | zero => rfl
    | succ k ih => rw [List.range_succ, List.flatMap_append, List.length_append, ih]; simp [row]; ring
  exact all geo.side

end Sys2Proof.Machine
end

