-- ==== Sys2Proof/Laws/State.lean ====
section
/-! SUPPORT. One lemma per field per shared update of the state, each true by `rfl`, so that no later proof unfolds a
record update; and what the shared completions do as a whole. -/

namespace Sys2Proof.Machine

/-! ### A command that raises an error -/

@[simp] theorem State.raise_status (s : State) (e : ErrorCode) : (s.raise e).status = s.status.completed true := rfl

@[simp] theorem State.raise_errcode (s : State) (e : ErrorCode) : (s.raise e).errcode = e.code := rfl

@[simp] theorem State.raise_cmd (s : State) (e : ErrorCode) : (s.raise e).cmd = s.cmd := rfl

@[simp] theorem State.raise_result (s : State) (e : ErrorCode) : (s.raise e).result = s.result := rfl

@[simp] theorem State.raise_level (s : State) (e : ErrorCode) : (s.raise e).level = s.level := rfl

@[simp] theorem State.raise_textLen (s : State) (e : ErrorCode) : (s.raise e).textLen = s.textLen := rfl

@[simp] theorem State.raise_mode (s : State) (e : ErrorCode) : (s.raise e).mode = s.mode := rfl

@[simp] theorem State.raise_version (s : State) (e : ErrorCode) : (s.raise e).version = s.version := rfl

@[simp] theorem State.raise_mask (s : State) (e : ErrorCode) : (s.raise e).mask = s.mask := rfl

@[simp] theorem State.raise_phase (s : State) (e : ErrorCode) : (s.raise e).phase = s.phase := rfl

@[simp] theorem State.raise_src (s : State) (e : ErrorCode) : (s.raise e).src = s.src := rfl

@[simp] theorem State.raise_dst (s : State) (e : ErrorCode) : (s.raise e).dst = s.dst := rfl

@[simp] theorem State.raise_len (s : State) (e : ErrorCode) : (s.raise e).len = s.len := rfl

@[simp] theorem State.raise_dataCw (s : State) (e : ErrorCode) : (s.raise e).dataCw = s.dataCw := rfl

@[simp] theorem State.raise_totalCw (s : State) (e : ErrorCode) : (s.raise e).totalCw = s.totalCw := rfl

@[simp] theorem State.raise_bitLen (s : State) (e : ErrorCode) : (s.raise e).bitLen = s.bitLen := rfl

@[simp] theorem State.raise_mxSize (s : State) (e : ErrorCode) : (s.raise e).mxSize = s.mxSize := rfl

@[simp] theorem State.raise_penalty (s : State) (e : ErrorCode) : (s.raise e).penalty = s.penalty := rfl

@[simp] theorem State.raise_penN1 (s : State) (e : ErrorCode) : (s.raise e).penN1 = s.penN1 := rfl

@[simp] theorem State.raise_penN2 (s : State) (e : ErrorCode) : (s.raise e).penN2 = s.penN2 := rfl

@[simp] theorem State.raise_penN3 (s : State) (e : ErrorCode) : (s.raise e).penN3 = s.penN3 := rfl

@[simp] theorem State.raise_penN4 (s : State) (e : ErrorCode) : (s.raise e).penN4 = s.penN4 := rfl

@[simp] theorem State.raise_scores (s : State) (e : ErrorCode) : (s.raise e).scores = s.scores := rfl

@[simp] theorem State.raise_pixSize (s : State) (e : ErrorCode) : (s.raise e).pixSize = s.pixSize := rfl

@[simp] theorem State.raise_quiet (s : State) (e : ErrorCode) : (s.raise e).quiet = s.quiet := rfl

@[simp] theorem State.raise_dark (s : State) (e : ErrorCode) : (s.raise e).dark = s.dark := rfl

@[simp] theorem State.raise_light (s : State) (e : ErrorCode) : (s.raise e).light = s.light := rfl

@[simp] theorem State.raise_pixSide (s : State) (e : ErrorCode) : (s.raise e).pixSide = s.pixSide := rfl

@[simp] theorem State.raise_pixScale (s : State) (e : ErrorCode) : (s.raise e).pixScale = s.pixScale := rfl

@[simp] theorem State.raise_pixOffset (s : State) (e : ErrorCode) : (s.raise e).pixOffset = s.pixOffset := rfl

@[simp] theorem State.raise_txt (s : State) (e : ErrorCode) : (s.raise e).txt = s.txt := rfl

@[simp] theorem State.raise_cwm (s : State) (e : ErrorCode) : (s.raise e).cwm = s.cwm := rfl

@[simp] theorem State.raise_mxm (s : State) (e : ErrorCode) : (s.raise e).mxm = s.mxm := rfl

@[simp] theorem State.raise_pix (s : State) (e : ErrorCode) : (s.raise e).pix = s.pix := rfl

@[simp] theorem State.raise_pixMax (s : State) (e : ErrorCode) : (s.raise e).pixMax = s.pixMax := rfl

@[simp] theorem State.raise_turns (s : State) (e : ErrorCode) : (s.raise e).turns = s.turns := rfl

@[simp] theorem State.raise_reply (s : State) (e : ErrorCode) : (s.raise e).reply = s.reply := rfl

/-! ### A command that succeeds -/

@[simp] theorem State.succeed_status (s : State) : (s.succeed).status = s.status.completed false := rfl

@[simp] theorem State.succeed_errcode (s : State) : (s.succeed).errcode = 0#8 := rfl

@[simp] theorem State.succeed_cmd (s : State) : (s.succeed).cmd = s.cmd := rfl

@[simp] theorem State.succeed_result (s : State) : (s.succeed).result = s.result := rfl

@[simp] theorem State.succeed_level (s : State) : (s.succeed).level = s.level := rfl

@[simp] theorem State.succeed_textLen (s : State) : (s.succeed).textLen = s.textLen := rfl

@[simp] theorem State.succeed_mode (s : State) : (s.succeed).mode = s.mode := rfl

@[simp] theorem State.succeed_version (s : State) : (s.succeed).version = s.version := rfl

@[simp] theorem State.succeed_mask (s : State) : (s.succeed).mask = s.mask := rfl

@[simp] theorem State.succeed_phase (s : State) : (s.succeed).phase = s.phase := rfl

@[simp] theorem State.succeed_src (s : State) : (s.succeed).src = s.src := rfl

@[simp] theorem State.succeed_dst (s : State) : (s.succeed).dst = s.dst := rfl

@[simp] theorem State.succeed_len (s : State) : (s.succeed).len = s.len := rfl

@[simp] theorem State.succeed_dataCw (s : State) : (s.succeed).dataCw = s.dataCw := rfl

@[simp] theorem State.succeed_totalCw (s : State) : (s.succeed).totalCw = s.totalCw := rfl

@[simp] theorem State.succeed_bitLen (s : State) : (s.succeed).bitLen = s.bitLen := rfl

@[simp] theorem State.succeed_mxSize (s : State) : (s.succeed).mxSize = s.mxSize := rfl

@[simp] theorem State.succeed_penalty (s : State) : (s.succeed).penalty = s.penalty := rfl

@[simp] theorem State.succeed_penN1 (s : State) : (s.succeed).penN1 = s.penN1 := rfl

@[simp] theorem State.succeed_penN2 (s : State) : (s.succeed).penN2 = s.penN2 := rfl

@[simp] theorem State.succeed_penN3 (s : State) : (s.succeed).penN3 = s.penN3 := rfl

@[simp] theorem State.succeed_penN4 (s : State) : (s.succeed).penN4 = s.penN4 := rfl

@[simp] theorem State.succeed_scores (s : State) : (s.succeed).scores = s.scores := rfl

@[simp] theorem State.succeed_pixSize (s : State) : (s.succeed).pixSize = s.pixSize := rfl

@[simp] theorem State.succeed_quiet (s : State) : (s.succeed).quiet = s.quiet := rfl

@[simp] theorem State.succeed_dark (s : State) : (s.succeed).dark = s.dark := rfl

@[simp] theorem State.succeed_light (s : State) : (s.succeed).light = s.light := rfl

@[simp] theorem State.succeed_pixSide (s : State) : (s.succeed).pixSide = s.pixSide := rfl

@[simp] theorem State.succeed_pixScale (s : State) : (s.succeed).pixScale = s.pixScale := rfl

@[simp] theorem State.succeed_pixOffset (s : State) : (s.succeed).pixOffset = s.pixOffset := rfl

@[simp] theorem State.succeed_txt (s : State) : (s.succeed).txt = s.txt := rfl

@[simp] theorem State.succeed_cwm (s : State) : (s.succeed).cwm = s.cwm := rfl

@[simp] theorem State.succeed_mxm (s : State) : (s.succeed).mxm = s.mxm := rfl

@[simp] theorem State.succeed_pix (s : State) : (s.succeed).pix = s.pix := rfl

@[simp] theorem State.succeed_pixMax (s : State) : (s.succeed).pixMax = s.pixMax := rfl

@[simp] theorem State.succeed_turns (s : State) : (s.succeed).turns = s.turns := rfl

@[simp] theorem State.succeed_reply (s : State) : (s.succeed).reply = s.reply := rfl

/-! ### An accepted command word -/

@[simp] theorem State.accept_status (s : State) (w : Word) : (s.accept w).status = s.status.accepted := rfl

@[simp] theorem State.accept_errcode (s : State) (w : Word) : (s.accept w).errcode = s.errcode := rfl

@[simp] theorem State.accept_cmd (s : State) (w : Word) : (s.accept w).cmd = w := rfl

@[simp] theorem State.accept_result (s : State) (w : Word) : (s.accept w).result = s.result := rfl

@[simp] theorem State.accept_level (s : State) (w : Word) : (s.accept w).level = s.level := rfl

@[simp] theorem State.accept_textLen (s : State) (w : Word) : (s.accept w).textLen = s.textLen := rfl

@[simp] theorem State.accept_mode (s : State) (w : Word) : (s.accept w).mode = s.mode := rfl

@[simp] theorem State.accept_version (s : State) (w : Word) : (s.accept w).version = s.version := rfl

@[simp] theorem State.accept_mask (s : State) (w : Word) : (s.accept w).mask = s.mask := rfl

@[simp] theorem State.accept_phase (s : State) (w : Word) : (s.accept w).phase = s.phase := rfl

@[simp] theorem State.accept_src (s : State) (w : Word) : (s.accept w).src = s.src := rfl

@[simp] theorem State.accept_dst (s : State) (w : Word) : (s.accept w).dst = s.dst := rfl

@[simp] theorem State.accept_len (s : State) (w : Word) : (s.accept w).len = s.len := rfl

@[simp] theorem State.accept_dataCw (s : State) (w : Word) : (s.accept w).dataCw = s.dataCw := rfl

@[simp] theorem State.accept_totalCw (s : State) (w : Word) : (s.accept w).totalCw = s.totalCw := rfl

@[simp] theorem State.accept_bitLen (s : State) (w : Word) : (s.accept w).bitLen = s.bitLen := rfl

@[simp] theorem State.accept_mxSize (s : State) (w : Word) : (s.accept w).mxSize = s.mxSize := rfl

@[simp] theorem State.accept_penalty (s : State) (w : Word) : (s.accept w).penalty = s.penalty := rfl

@[simp] theorem State.accept_penN1 (s : State) (w : Word) : (s.accept w).penN1 = s.penN1 := rfl

@[simp] theorem State.accept_penN2 (s : State) (w : Word) : (s.accept w).penN2 = s.penN2 := rfl

@[simp] theorem State.accept_penN3 (s : State) (w : Word) : (s.accept w).penN3 = s.penN3 := rfl

@[simp] theorem State.accept_penN4 (s : State) (w : Word) : (s.accept w).penN4 = s.penN4 := rfl

@[simp] theorem State.accept_scores (s : State) (w : Word) : (s.accept w).scores = s.scores := rfl

@[simp] theorem State.accept_pixSize (s : State) (w : Word) : (s.accept w).pixSize = s.pixSize := rfl

@[simp] theorem State.accept_quiet (s : State) (w : Word) : (s.accept w).quiet = s.quiet := rfl

@[simp] theorem State.accept_dark (s : State) (w : Word) : (s.accept w).dark = s.dark := rfl

@[simp] theorem State.accept_light (s : State) (w : Word) : (s.accept w).light = s.light := rfl

@[simp] theorem State.accept_pixSide (s : State) (w : Word) : (s.accept w).pixSide = s.pixSide := rfl

@[simp] theorem State.accept_pixScale (s : State) (w : Word) : (s.accept w).pixScale = s.pixScale := rfl

@[simp] theorem State.accept_pixOffset (s : State) (w : Word) : (s.accept w).pixOffset = s.pixOffset := rfl

@[simp] theorem State.accept_txt (s : State) (w : Word) : (s.accept w).txt = s.txt := rfl

@[simp] theorem State.accept_cwm (s : State) (w : Word) : (s.accept w).cwm = s.cwm := rfl

@[simp] theorem State.accept_mxm (s : State) (w : Word) : (s.accept w).mxm = s.mxm := rfl

@[simp] theorem State.accept_pix (s : State) (w : Word) : (s.accept w).pix = s.pix := rfl

@[simp] theorem State.accept_pixMax (s : State) (w : Word) : (s.accept w).pixMax = s.pixMax := rfl

@[simp] theorem State.accept_turns (s : State) (w : Word) : (s.accept w).turns = s.turns := rfl

@[simp] theorem State.accept_reply (s : State) (w : Word) : (s.accept w).reply = s.reply := rfl

/-! ### A dropped write -/

@[simp] theorem State.overrun_status (s : State) : (s.overrun).status = s.status.setOverrun := rfl

@[simp] theorem State.overrun_errcode (s : State) : (s.overrun).errcode = s.errcode := rfl

@[simp] theorem State.overrun_cmd (s : State) : (s.overrun).cmd = s.cmd := rfl

@[simp] theorem State.overrun_result (s : State) : (s.overrun).result = s.result := rfl

@[simp] theorem State.overrun_level (s : State) : (s.overrun).level = s.level := rfl

@[simp] theorem State.overrun_textLen (s : State) : (s.overrun).textLen = s.textLen := rfl

@[simp] theorem State.overrun_mode (s : State) : (s.overrun).mode = s.mode := rfl

@[simp] theorem State.overrun_version (s : State) : (s.overrun).version = s.version := rfl

@[simp] theorem State.overrun_mask (s : State) : (s.overrun).mask = s.mask := rfl

@[simp] theorem State.overrun_phase (s : State) : (s.overrun).phase = s.phase := rfl

@[simp] theorem State.overrun_src (s : State) : (s.overrun).src = s.src := rfl

@[simp] theorem State.overrun_dst (s : State) : (s.overrun).dst = s.dst := rfl

@[simp] theorem State.overrun_len (s : State) : (s.overrun).len = s.len := rfl

@[simp] theorem State.overrun_dataCw (s : State) : (s.overrun).dataCw = s.dataCw := rfl

@[simp] theorem State.overrun_totalCw (s : State) : (s.overrun).totalCw = s.totalCw := rfl

@[simp] theorem State.overrun_bitLen (s : State) : (s.overrun).bitLen = s.bitLen := rfl

@[simp] theorem State.overrun_mxSize (s : State) : (s.overrun).mxSize = s.mxSize := rfl

@[simp] theorem State.overrun_penalty (s : State) : (s.overrun).penalty = s.penalty := rfl

@[simp] theorem State.overrun_penN1 (s : State) : (s.overrun).penN1 = s.penN1 := rfl

@[simp] theorem State.overrun_penN2 (s : State) : (s.overrun).penN2 = s.penN2 := rfl

@[simp] theorem State.overrun_penN3 (s : State) : (s.overrun).penN3 = s.penN3 := rfl

@[simp] theorem State.overrun_penN4 (s : State) : (s.overrun).penN4 = s.penN4 := rfl

@[simp] theorem State.overrun_scores (s : State) : (s.overrun).scores = s.scores := rfl

@[simp] theorem State.overrun_pixSize (s : State) : (s.overrun).pixSize = s.pixSize := rfl

@[simp] theorem State.overrun_quiet (s : State) : (s.overrun).quiet = s.quiet := rfl

@[simp] theorem State.overrun_dark (s : State) : (s.overrun).dark = s.dark := rfl

@[simp] theorem State.overrun_light (s : State) : (s.overrun).light = s.light := rfl

@[simp] theorem State.overrun_pixSide (s : State) : (s.overrun).pixSide = s.pixSide := rfl

@[simp] theorem State.overrun_pixScale (s : State) : (s.overrun).pixScale = s.pixScale := rfl

@[simp] theorem State.overrun_pixOffset (s : State) : (s.overrun).pixOffset = s.pixOffset := rfl

@[simp] theorem State.overrun_txt (s : State) : (s.overrun).txt = s.txt := rfl

@[simp] theorem State.overrun_cwm (s : State) : (s.overrun).cwm = s.cwm := rfl

@[simp] theorem State.overrun_mxm (s : State) : (s.overrun).mxm = s.mxm := rfl

@[simp] theorem State.overrun_pix (s : State) : (s.overrun).pix = s.pix := rfl

@[simp] theorem State.overrun_pixMax (s : State) : (s.overrun).pixMax = s.pixMax := rfl

@[simp] theorem State.overrun_turns (s : State) : (s.overrun).turns = s.turns := rfl

@[simp] theorem State.overrun_reply (s : State) : (s.overrun).reply = s.reply := rfl

/-! ### A penalty written -/

@[simp] theorem State.setPenalty_status (s : State) (p : Penalty) : (s.setPenalty p).status = s.status := rfl

@[simp] theorem State.setPenalty_errcode (s : State) (p : Penalty) : (s.setPenalty p).errcode = s.errcode := rfl

@[simp] theorem State.setPenalty_cmd (s : State) (p : Penalty) : (s.setPenalty p).cmd = s.cmd := rfl

@[simp] theorem State.setPenalty_result (s : State) (p : Penalty) : (s.setPenalty p).result = s.result := rfl

@[simp] theorem State.setPenalty_level (s : State) (p : Penalty) : (s.setPenalty p).level = s.level := rfl

@[simp] theorem State.setPenalty_textLen (s : State) (p : Penalty) : (s.setPenalty p).textLen = s.textLen := rfl

@[simp] theorem State.setPenalty_mode (s : State) (p : Penalty) : (s.setPenalty p).mode = s.mode := rfl

@[simp] theorem State.setPenalty_version (s : State) (p : Penalty) : (s.setPenalty p).version = s.version := rfl

@[simp] theorem State.setPenalty_mask (s : State) (p : Penalty) : (s.setPenalty p).mask = s.mask := rfl

@[simp] theorem State.setPenalty_phase (s : State) (p : Penalty) : (s.setPenalty p).phase = s.phase := rfl

@[simp] theorem State.setPenalty_src (s : State) (p : Penalty) : (s.setPenalty p).src = s.src := rfl

@[simp] theorem State.setPenalty_dst (s : State) (p : Penalty) : (s.setPenalty p).dst = s.dst := rfl

@[simp] theorem State.setPenalty_len (s : State) (p : Penalty) : (s.setPenalty p).len = s.len := rfl

@[simp] theorem State.setPenalty_dataCw (s : State) (p : Penalty) : (s.setPenalty p).dataCw = s.dataCw := rfl

@[simp] theorem State.setPenalty_totalCw (s : State) (p : Penalty) : (s.setPenalty p).totalCw = s.totalCw := rfl

@[simp] theorem State.setPenalty_bitLen (s : State) (p : Penalty) : (s.setPenalty p).bitLen = s.bitLen := rfl

@[simp] theorem State.setPenalty_mxSize (s : State) (p : Penalty) : (s.setPenalty p).mxSize = s.mxSize := rfl

@[simp] theorem State.setPenalty_penalty (s : State) (p : Penalty) : (s.setPenalty p).penalty = BitVec.ofNat 32 p.total := rfl

@[simp] theorem State.setPenalty_penN1 (s : State) (p : Penalty) : (s.setPenalty p).penN1 = BitVec.ofNat 32 p.n1 := rfl

@[simp] theorem State.setPenalty_penN2 (s : State) (p : Penalty) : (s.setPenalty p).penN2 = BitVec.ofNat 32 p.n2 := rfl

@[simp] theorem State.setPenalty_penN3 (s : State) (p : Penalty) : (s.setPenalty p).penN3 = BitVec.ofNat 32 p.n3 := rfl

@[simp] theorem State.setPenalty_penN4 (s : State) (p : Penalty) : (s.setPenalty p).penN4 = BitVec.ofNat 32 p.n4 := rfl

@[simp] theorem State.setPenalty_scores (s : State) (p : Penalty) : (s.setPenalty p).scores = s.scores := rfl

@[simp] theorem State.setPenalty_pixSize (s : State) (p : Penalty) : (s.setPenalty p).pixSize = s.pixSize := rfl

@[simp] theorem State.setPenalty_quiet (s : State) (p : Penalty) : (s.setPenalty p).quiet = s.quiet := rfl

@[simp] theorem State.setPenalty_dark (s : State) (p : Penalty) : (s.setPenalty p).dark = s.dark := rfl

@[simp] theorem State.setPenalty_light (s : State) (p : Penalty) : (s.setPenalty p).light = s.light := rfl

@[simp] theorem State.setPenalty_pixSide (s : State) (p : Penalty) : (s.setPenalty p).pixSide = s.pixSide := rfl

@[simp] theorem State.setPenalty_pixScale (s : State) (p : Penalty) : (s.setPenalty p).pixScale = s.pixScale := rfl

@[simp] theorem State.setPenalty_pixOffset (s : State) (p : Penalty) : (s.setPenalty p).pixOffset = s.pixOffset := rfl

@[simp] theorem State.setPenalty_txt (s : State) (p : Penalty) : (s.setPenalty p).txt = s.txt := rfl

@[simp] theorem State.setPenalty_cwm (s : State) (p : Penalty) : (s.setPenalty p).cwm = s.cwm := rfl

@[simp] theorem State.setPenalty_mxm (s : State) (p : Penalty) : (s.setPenalty p).mxm = s.mxm := rfl

@[simp] theorem State.setPenalty_pix (s : State) (p : Penalty) : (s.setPenalty p).pix = s.pix := rfl

@[simp] theorem State.setPenalty_pixMax (s : State) (p : Penalty) : (s.setPenalty p).pixMax = s.pixMax := rfl

@[simp] theorem State.setPenalty_turns (s : State) (p : Penalty) : (s.setPenalty p).turns = s.turns := rfl

@[simp] theorem State.setPenalty_reply (s : State) (p : Penalty) : (s.setPenalty p).reply = s.reply := rfl

/-! ### The selection written -/

@[simp] theorem State.selected_status (s : State) (tr : BitVec 3 → Grid) (pens : Vector Penalty 8) : (s.selected tr pens).status = s.status := rfl

@[simp] theorem State.selected_errcode (s : State) (tr : BitVec 3 → Grid) (pens : Vector Penalty 8) : (s.selected tr pens).errcode = s.errcode := rfl

@[simp] theorem State.selected_cmd (s : State) (tr : BitVec 3 → Grid) (pens : Vector Penalty 8) : (s.selected tr pens).cmd = s.cmd := rfl

@[simp] theorem State.selected_result (s : State) (tr : BitVec 3 → Grid) (pens : Vector Penalty 8) : (s.selected tr pens).result = s.result := rfl

@[simp] theorem State.selected_level (s : State) (tr : BitVec 3 → Grid) (pens : Vector Penalty 8) : (s.selected tr pens).level = s.level := rfl

@[simp] theorem State.selected_textLen (s : State) (tr : BitVec 3 → Grid) (pens : Vector Penalty 8) : (s.selected tr pens).textLen = s.textLen := rfl

@[simp] theorem State.selected_mode (s : State) (tr : BitVec 3 → Grid) (pens : Vector Penalty 8) : (s.selected tr pens).mode = s.mode := rfl

@[simp] theorem State.selected_version (s : State) (tr : BitVec 3 → Grid) (pens : Vector Penalty 8) : (s.selected tr pens).version = s.version := rfl

@[simp] theorem State.selected_mask (s : State) (tr : BitVec 3 → Grid) (pens : Vector Penalty 8) : (s.selected tr pens).mask = winner pens := rfl

@[simp] theorem State.selected_phase (s : State) (tr : BitVec 3 → Grid) (pens : Vector Penalty 8) : (s.selected tr pens).phase = 7#3 := rfl

@[simp] theorem State.selected_src (s : State) (tr : BitVec 3 → Grid) (pens : Vector Penalty 8) : (s.selected tr pens).src = s.src := rfl

@[simp] theorem State.selected_dst (s : State) (tr : BitVec 3 → Grid) (pens : Vector Penalty 8) : (s.selected tr pens).dst = s.dst := rfl

@[simp] theorem State.selected_len (s : State) (tr : BitVec 3 → Grid) (pens : Vector Penalty 8) : (s.selected tr pens).len = s.len := rfl

@[simp] theorem State.selected_dataCw (s : State) (tr : BitVec 3 → Grid) (pens : Vector Penalty 8) : (s.selected tr pens).dataCw = s.dataCw := rfl

@[simp] theorem State.selected_totalCw (s : State) (tr : BitVec 3 → Grid) (pens : Vector Penalty 8) : (s.selected tr pens).totalCw = s.totalCw := rfl

@[simp] theorem State.selected_bitLen (s : State) (tr : BitVec 3 → Grid) (pens : Vector Penalty 8) : (s.selected tr pens).bitLen = s.bitLen := rfl

@[simp] theorem State.selected_mxSize (s : State) (tr : BitVec 3 → Grid) (pens : Vector Penalty 8) : (s.selected tr pens).mxSize = s.mxSize := rfl

@[simp] theorem State.selected_penalty (s : State) (tr : BitVec 3 → Grid) (pens : Vector Penalty 8) : (s.selected tr pens).penalty = BitVec.ofNat 32 (penaltyAt pens (winner pens)).total := rfl

@[simp] theorem State.selected_penN1 (s : State) (tr : BitVec 3 → Grid) (pens : Vector Penalty 8) : (s.selected tr pens).penN1 = BitVec.ofNat 32 (penaltyAt pens (winner pens)).n1 := rfl

@[simp] theorem State.selected_penN2 (s : State) (tr : BitVec 3 → Grid) (pens : Vector Penalty 8) : (s.selected tr pens).penN2 = BitVec.ofNat 32 (penaltyAt pens (winner pens)).n2 := rfl

@[simp] theorem State.selected_penN3 (s : State) (tr : BitVec 3 → Grid) (pens : Vector Penalty 8) : (s.selected tr pens).penN3 = BitVec.ofNat 32 (penaltyAt pens (winner pens)).n3 := rfl

@[simp] theorem State.selected_penN4 (s : State) (tr : BitVec 3 → Grid) (pens : Vector Penalty 8) : (s.selected tr pens).penN4 = BitVec.ofNat 32 (penaltyAt pens (winner pens)).n4 := rfl

@[simp] theorem State.selected_scores (s : State) (tr : BitVec 3 → Grid) (pens : Vector Penalty 8) : (s.selected tr pens).scores = pens.map (fun p => BitVec.ofNat 32 p.total) := rfl

@[simp] theorem State.selected_pixSize (s : State) (tr : BitVec 3 → Grid) (pens : Vector Penalty 8) : (s.selected tr pens).pixSize = s.pixSize := rfl

@[simp] theorem State.selected_quiet (s : State) (tr : BitVec 3 → Grid) (pens : Vector Penalty 8) : (s.selected tr pens).quiet = s.quiet := rfl

@[simp] theorem State.selected_dark (s : State) (tr : BitVec 3 → Grid) (pens : Vector Penalty 8) : (s.selected tr pens).dark = s.dark := rfl

@[simp] theorem State.selected_light (s : State) (tr : BitVec 3 → Grid) (pens : Vector Penalty 8) : (s.selected tr pens).light = s.light := rfl

@[simp] theorem State.selected_pixSide (s : State) (tr : BitVec 3 → Grid) (pens : Vector Penalty 8) : (s.selected tr pens).pixSide = s.pixSide := rfl

@[simp] theorem State.selected_pixScale (s : State) (tr : BitVec 3 → Grid) (pens : Vector Penalty 8) : (s.selected tr pens).pixScale = s.pixScale := rfl

@[simp] theorem State.selected_pixOffset (s : State) (tr : BitVec 3 → Grid) (pens : Vector Penalty 8) : (s.selected tr pens).pixOffset = s.pixOffset := rfl

@[simp] theorem State.selected_txt (s : State) (tr : BitVec 3 → Grid) (pens : Vector Penalty 8) : (s.selected tr pens).txt = s.txt := rfl

@[simp] theorem State.selected_cwm (s : State) (tr : BitVec 3 → Grid) (pens : Vector Penalty 8) : (s.selected tr pens).cwm = s.cwm := rfl

@[simp] theorem State.selected_mxm (s : State) (tr : BitVec 3 → Grid) (pens : Vector Penalty 8) : (s.selected tr pens).mxm = storeGrid s.mxm (tr (winner pens)) := rfl

@[simp] theorem State.selected_pix (s : State) (tr : BitVec 3 → Grid) (pens : Vector Penalty 8) : (s.selected tr pens).pix = s.pix := rfl

@[simp] theorem State.selected_pixMax (s : State) (tr : BitVec 3 → Grid) (pens : Vector Penalty 8) : (s.selected tr pens).pixMax = s.pixMax := rfl

@[simp] theorem State.selected_turns (s : State) (tr : BitVec 3 → Grid) (pens : Vector Penalty 8) : (s.selected tr pens).turns = s.turns := rfl

@[simp] theorem State.selected_reply (s : State) (tr : BitVec 3 → Grid) (pens : Vector Penalty 8) : (s.selected tr pens).reply = s.reply := rfl

/-! ### The soft reset -/

@[simp] theorem State.softReset_status (s : State) : (s.softReset).status = ⟨false, false, false, false⟩ := rfl

@[simp] theorem State.softReset_errcode (s : State) : (s.softReset).errcode = 0#8 := rfl

@[simp] theorem State.softReset_cmd (s : State) : (s.softReset).cmd = 0#32 := rfl

@[simp] theorem State.softReset_result (s : State) : (s.softReset).result = 0#8 := rfl

@[simp] theorem State.softReset_level (s : State) : (s.softReset).level = Config.levelReset := rfl

@[simp] theorem State.softReset_textLen (s : State) : (s.softReset).textLen = 0#14 := rfl

@[simp] theorem State.softReset_mode (s : State) : (s.softReset).mode = 0#4 := rfl

@[simp] theorem State.softReset_version (s : State) : (s.softReset).version = 0#6 := rfl

@[simp] theorem State.softReset_mask (s : State) : (s.softReset).mask = 0#3 := rfl

@[simp] theorem State.softReset_phase (s : State) : (s.softReset).phase = 0#3 := rfl

@[simp] theorem State.softReset_src (s : State) : (s.softReset).src = 0#16 := rfl

@[simp] theorem State.softReset_dst (s : State) : (s.softReset).dst = 0#16 := rfl

@[simp] theorem State.softReset_len (s : State) : (s.softReset).len = 0#16 := rfl

@[simp] theorem State.softReset_dataCw (s : State) : (s.softReset).dataCw = 0#16 := rfl

@[simp] theorem State.softReset_totalCw (s : State) : (s.softReset).totalCw = 0#16 := rfl

@[simp] theorem State.softReset_bitLen (s : State) : (s.softReset).bitLen = 0#16 := rfl

@[simp] theorem State.softReset_mxSize (s : State) : (s.softReset).mxSize = 0#8 := rfl

@[simp] theorem State.softReset_penalty (s : State) : (s.softReset).penalty = 0#32 := rfl

@[simp] theorem State.softReset_penN1 (s : State) : (s.softReset).penN1 = 0#32 := rfl

@[simp] theorem State.softReset_penN2 (s : State) : (s.softReset).penN2 = 0#32 := rfl

@[simp] theorem State.softReset_penN3 (s : State) : (s.softReset).penN3 = 0#32 := rfl

@[simp] theorem State.softReset_penN4 (s : State) : (s.softReset).penN4 = 0#32 := rfl

@[simp] theorem State.softReset_scores (s : State) : (s.softReset).scores = #v[0#32, 0#32, 0#32, 0#32, 0#32, 0#32, 0#32, 0#32] := rfl

@[simp] theorem State.softReset_pixSize (s : State) : (s.softReset).pixSize = 0#16 := rfl

@[simp] theorem State.softReset_quiet (s : State) : (s.softReset).quiet = Config.quietReset := rfl

@[simp] theorem State.softReset_dark (s : State) : (s.softReset).dark = Config.darkReset := rfl

@[simp] theorem State.softReset_light (s : State) : (s.softReset).light = Config.lightReset := rfl

@[simp] theorem State.softReset_pixSide (s : State) : (s.softReset).pixSide = 0#16 := rfl

@[simp] theorem State.softReset_pixScale (s : State) : (s.softReset).pixScale = 0#16 := rfl

@[simp] theorem State.softReset_pixOffset (s : State) : (s.softReset).pixOffset = 0#16 := rfl

@[simp] theorem State.softReset_txt (s : State) : (s.softReset).txt = s.txt := rfl

@[simp] theorem State.softReset_cwm (s : State) : (s.softReset).cwm = s.cwm := rfl

@[simp] theorem State.softReset_mxm (s : State) : (s.softReset).mxm = s.mxm := rfl

@[simp] theorem State.softReset_pix (s : State) : (s.softReset).pix = s.pix := rfl

@[simp] theorem State.softReset_pixMax (s : State) : (s.softReset).pixMax = s.pixMax := rfl

@[simp] theorem State.softReset_turns (s : State) : (s.softReset).turns = s.turns := rfl

@[simp] theorem State.softReset_reply (s : State) : (s.softReset).reply = s.reply := rfl

/-! ### The flags -/

@[simp] theorem Status.completed_busy (f : Status) (b : Bool) : (f.completed b).busy = false := rfl

@[simp] theorem Status.completed_done (f : Status) (b : Bool) : (f.completed b).done = true := rfl

@[simp] theorem Status.completed_err (f : Status) (b : Bool) : (f.completed b).err = b := rfl

@[simp] theorem Status.completed_overrun (f : Status) (b : Bool) : (f.completed b).overrun = f.overrun := rfl

@[simp] theorem Status.accepted_busy (f : Status) : f.accepted.busy = true := rfl

@[simp] theorem Status.accepted_done (f : Status) : f.accepted.done = false := rfl

@[simp] theorem Status.accepted_err (f : Status) : f.accepted.err = false := rfl

@[simp] theorem Status.accepted_overrun (f : Status) : f.accepted.overrun = f.overrun := rfl

@[simp] theorem Status.setOverrun_busy (f : Status) : f.setOverrun.busy = f.busy := rfl

@[simp] theorem Status.setOverrun_done (f : Status) : f.setOverrun.done = f.done := rfl

@[simp] theorem Status.setOverrun_err (f : Status) : f.setOverrun.err = f.err := rfl

@[simp] theorem Status.setOverrun_overrun (f : Status) : f.setOverrun.overrun = true := rfl

@[simp] theorem Status.hostWrite_busy (f : Status) (v : Word) : (f.hostWrite v).busy = f.busy := rfl

@[simp] theorem Status.hostWrite_done (f : Status) (v : Word) : (f.hostWrite v).done = f.done := rfl

@[simp] theorem Status.hostWrite_err (f : Status) (v : Word) : (f.hostWrite v).err = f.err := rfl

@[simp] theorem Status.hostWrite_overrun (f : Status) (v : Word) :
    (f.hostWrite v).overrun = (f.overrun && !v.getLsbD 3) := rfl

/-- Two completions leave the flags of the last one. -/
@[simp] theorem Status.completed_completed (f : Status) (a b : Bool) : (f.completed a).completed b = f.completed b := rfl

/-! ### Completion -/

@[simp] theorem State.complete_ok (s t : State) : s.complete (.ok t) = t.succeed := rfl

@[simp] theorem State.complete_error (s : State) (e : ErrorCode) : s.complete (.error e) = s.raise e := rfl

theorem State.finish_eq (s : State) (r : CmdResult) : s.finish r = .next (s.complete r) := rfl

/-- No error has the code 0 of success. -/
theorem ErrorCode.code_ne_zero (e : ErrorCode) : e.code ≠ 0#8 := by cases e <;> decide

/-- Codes 7 to 255 are never written. -/
theorem ErrorCode.code_le (e : ErrorCode) : e.code.toNat ≤ 6 := by cases e <;> decide

theorem ErrorCode.code_injective {a b : ErrorCode} (h : a.code = b.code) : a = b := by
  cases a <;> cases b <;> first | rfl | exact absurd h (by decide)

/-- After a command, ERRCODE is 0 exactly when it succeeded. -/
theorem State.complete_errcode_zero {s : State} {r : CmdResult} :
    (s.complete r).errcode = 0#8 ↔ ∃ t, r = .ok t := by
  cases r with
  | ok t => simp
  | error e => simp [ErrorCode.code_ne_zero]

/-- After a command, ERR is set exactly when it raised. -/
theorem State.complete_err {s : State} {r : CmdResult} :
    (s.complete r).status.err = true ↔ ∃ e, r = .error e := by
  cases r with
  | ok t => simp
  | error e => simp

end Sys2Proof.Machine
end

