-- ==== Sys2Proof/Laws/Commands.lean ====
section
/-! SUPPORT. What each command can do, said once: `exec` is the completion of a command's rule, and for each rule when it
succeeds and with which state. The rules are not unfolded again elsewhere. -/

namespace Sys2Proof.Machine

/-- The rule of a command, before its completion. -/
def runOf : Instr → State → CmdResult
  | .nop, s => runNop s
  | .gfMul a b, s => s.withResult (.ok (gfMul a b))
  | .gfDiv a b, s => s.withResult (gfDiv a b)
  | .gfExp i, s => s.withResult (.ok (gfExp i))
  | .gfLog a, s => s.withResult (gfLog a)
  | .rsGen n, s => runRsGen n s
  | .rsEnc n, s => runRsEnc n s
  | .deAnalyze, s => runDeAnalyze s
  | .deVersion, s => runDeVersion s
  | .dePack, s => runDePack s
  | .cwAssemble, s => runCwAssemble s
  | .mxInit, s => runMxInit s
  | .mxPlace, s => runMxPlace s
  | .mkApply k, s => runMkApply k s
  | .mkScore, s => runMkScore s
  | .mxFormat k, s => runMxFormat k s
  | .mxVersionInfo, s => runMxVersionInfo s
  | .mkSelect, s => runMkSelect s
  | .render, s => runRender s
  | .encode, s => runEncode s

/-- Every command answers a next state: the completion of its rule. -/
theorem exec_eq (i : Instr) (s : State) : exec i s = .next (s.complete (runOf i s)) := by cases i <;> rfl

theorem exec_next {i : Instr} {s t : State} : exec i s = .next t ↔ t = s.complete (runOf i s) := by
  rw [exec_eq]
  exact ⟨fun h => (Host.Outcome.next.inj h).symm, fun h => by rw [h]⟩

theorem exec_ok {i : Instr} {s t : State} (h : runOf i s = .ok t) : exec i s = .next t.succeed := by
  rw [exec_eq, h]; rfl

theorem exec_error {i : Instr} {s : State} {e : ErrorCode} (h : runOf i s = .error e) : exec i s = .next (s.raise e) := by
  rw [exec_eq, h]; rfl

/-! ### When a rule succeeds, and what it writes -/

theorem ite_ok_left {c : Prop} [Decidable c] {x : CmdResult} {e : ErrorCode} {t : State} :
    (if c then x else .error e) = .ok t ↔ c ∧ x = .ok t := by
  by_cases h : c <;> simp [h]

theorem ite_ok_right {c : Prop} [Decidable c] {x : CmdResult} {e : ErrorCode} {t : State} :
    (if c then .error e else x) = .ok t ↔ ¬c ∧ x = .ok t := by
  by_cases h : c <;> simp [h]

theorem ok_eq_ok {a t : State} : (Except.ok a : CmdResult) = .ok t ↔ t = a :=
  ⟨fun h => (Except.ok.inj h).symm, fun h => by rw [h]⟩

theorem withResult_ok {s t : State} {r : Except ErrorCode Byte} :
    s.withResult r = .ok t ↔ ∃ b, r = .ok b ∧ t = { s with result := b } := by
  cases r with
  | ok b => exact ⟨fun h => ⟨b, rfl, (Except.ok.inj h).symm⟩, by rintro ⟨c, hc, rfl⟩; cases hc; rfl⟩
  | error e => simp [State.withResult]

theorem runRsGen_ok {n : Byte} {s t : State} :
    runRsGen n s = .ok t ↔ s.dst.toNat + (n.toNat + 1) ≤ Config.cwmSize ∧
      t = { s with cwm := s.cwm.write s.dst.toNat (genPoly n.toNat) } := by
  simp only [runRsGen, cwmRangeFits, decide_eq_true_eq, ite_ok_left, ok_eq_ok]
  rfl

theorem runRsEnc_ok {n : Byte} {s t : State} :
    runRsEnc n s = .ok t ↔
      (s.src.toNat + s.len.toNat ≤ Config.cwmSize ∧ s.dst.toNat + n.toNat ≤ Config.cwmSize) ∧
      t = { s with cwm := s.cwm.write s.dst.toNat (rsRem (s.cwm.readBytes s.src.toNat s.len.toNat) n.toNat) } := by
  simp only [runRsEnc, cwmRangeFits, Bool.and_eq_true, decide_eq_true_eq, ite_ok_left, ok_eq_ok]
  rfl

theorem runDeAnalyze_ok {s t : State} :
    runDeAnalyze s = .ok t ↔ s.textBytes ≤ Config.txtSize ∧
      t = { s with mode := (modeOf s.text).code, phase := 1#3 } := by
  simp only [runDeAnalyze, legalTextLen, decide_eq_true_eq, ite_ok_left, ok_eq_ok]

theorem runDeVersion_ok {s t : State} :
    runDeVersion s = .ok t ↔ 1 ≤ s.phaseNat ∧ ∃ m, Mode.ofCode s.mode = some m ∧ s.textBytes ≤ Config.txtSize ∧
      ∃ v, selectVersion m s.textBytes s.ecLevel = some v ∧
        t = { s with version := BitVec.ofNat 6 v, phase := 2#3 } := by
  simp only [runDeVersion, ite_ok_right, Nat.not_lt]
  refine and_congr_right fun _ => ?_
  cases Mode.ofCode s.mode with
  | none => simp only [reduceCtorEq, false_and, exists_false]
  | some m =>
    simp only [legalTextLen, decide_eq_true_eq, ite_ok_left, Option.some.injEq, exists_eq_left']
    refine and_congr_right fun _ => ?_
    cases selectVersion m s.textBytes s.ecLevel with
    | none => simp only [reduceCtorEq, false_and, exists_false]
    | some v => simp only [ok_eq_ok, Option.some.injEq, exists_eq_left']

theorem runDePack_ok {s t : State} :
    runDePack s = .ok t ↔ 2 ≤ s.phaseNat ∧ ∃ m, Mode.ofCode s.mode = some m ∧
      (legalVersion s.versionNat = true ∧ s.textBytes ≤ Config.txtSize) ∧ textInClass m s.text = true ∧
      fits m s.textBytes s.versionNat s.ecLevel = true ∧
      t = { s with
        cwm := s.cwm.write 0 (pack s.text m s.versionNat s.ecLevel)
        dataCw := BitVec.ofNat 16 (dataCodewords s.versionNat s.ecLevel)
        bitLen := BitVec.ofNat 16 (reqBits m s.textBytes s.versionNat)
        phase := 3#3 } := by
  simp only [runDePack, ite_ok_right, Nat.not_lt]
  refine and_congr_right fun _ => ?_
  cases Mode.ofCode s.mode with
  | none => simp only [reduceCtorEq, false_and, exists_false]
  | some m =>
    simp only [legalTextLen, Bool.and_eq_true, decide_eq_true_eq, ite_ok_left, ok_eq_ok, Option.some.injEq,
      exists_eq_left']

theorem runCwAssemble_ok {s t : State} :
    runCwAssemble s = .ok t ↔ 3 ≤ s.phaseNat ∧ legalVersion s.versionNat = true ∧
      t = { s with
        cwm := s.cwm.write Config.finalBase
          (interleave s.versionNat s.ecLevel (s.cwm.readBytes 0 (dataCodewords s.versionNat s.ecLevel)))
        totalCw := BitVec.ofNat 16 (totalCodewords s.versionNat)
        phase := 4#3 } := by
  simp only [runCwAssemble, ite_ok_right, ite_ok_left, ok_eq_ok, Nat.not_lt]

theorem runMxInit_ok {s t : State} :
    runMxInit s = .ok t ↔ 4 ≤ s.phaseNat ∧ legalVersion s.versionNat = true ∧
      ∃ g, buildPattern s.versionNat = .ok g ∧ t = { s with
        mxm := storeGrid clearedMxm g
        mxSize := BitVec.ofNat 8 (gridSide s.versionNat)
        phase := 5#3 } := by
  simp only [runMxInit, ite_ok_right, ite_ok_left, Nat.not_lt]
  refine and_congr_right fun _ => and_congr_right fun _ => ?_
  cases buildPattern s.versionNat with
  | error e => simp only [reduceCtorEq, false_and, exists_false]
  | ok g => exact ⟨fun h => ⟨g, rfl, (Except.ok.inj h).symm⟩, by rintro ⟨g', hg, rfl⟩; cases hg; rfl⟩

theorem runMxPlace_ok {s t : State} :
    runMxPlace s = .ok t ↔ s.phaseNat = 5 ∧
      ∃ g, place s.versionNat s.mxSize.toNat
          (s.cwm.readBytes Config.finalBase (totalCodewords s.versionNat)) (loadGrid s.mxm s.mxSize.toNat) = .ok g ∧
        t = { s with mxm := storeGrid s.mxm g, phase := 6#3 } := by
  simp only [runMxPlace, ite_ok_right, ne_eq, Decidable.not_not]
  refine and_congr_right fun _ => ?_
  cases place s.versionNat s.mxSize.toNat
    (s.cwm.readBytes Config.finalBase (totalCodewords s.versionNat)) (loadGrid s.mxm s.mxSize.toNat) with
  | error e => simp only [reduceCtorEq, false_and, exists_false]
  | ok g => exact ⟨fun h => ⟨g, rfl, (Except.ok.inj h).symm⟩, by rintro ⟨g', hg, rfl⟩; cases hg; rfl⟩

theorem runMkApply_ok {k : Byte} {s t : State} :
    runMkApply k s = .ok t ↔ (s.phaseNat = 6 ∨ s.phaseNat = 7) ∧
      ∃ m, maskIndex k = some m ∧ t = { s with mxm := storeGrid s.mxm (applyMask m s.symbol) } := by
  simp only [runMkApply, ite_ok_right, ne_eq, Decidable.not_and_iff_not_or_not, Decidable.not_not]
  refine and_congr_right fun _ => ?_
  cases maskIndex k with
  | none => simp only [reduceCtorEq, false_and, exists_false]
  | some m => simp only [ok_eq_ok, Option.some.injEq, exists_eq_left']

theorem runMkScore_ok {s t : State} :
    runMkScore s = .ok t ↔ 6 ≤ s.phaseNat ∧ s.symbol.allSet = true ∧
      t = s.setPenalty (gridPenalty s.versionNat s.symbol) := by
  simp only [runMkScore, ite_ok_right, ite_ok_left, ok_eq_ok, Nat.not_lt]

theorem runMxFormat_ok {k : Byte} {s t : State} :
    runMxFormat k s = .ok t ↔ 5 ≤ s.phaseNat ∧
      ∃ m, maskIndex k = some m ∧
        t = { s with mxm := storeGrid s.mxm (writeFormat s.versionNat s.ecLevel m s.symbol) } := by
  simp only [runMxFormat, ite_ok_right, Nat.not_lt]
  refine and_congr_right fun _ => ?_
  cases maskIndex k with
  | none => simp only [reduceCtorEq, false_and, exists_false]
  | some m => simp only [ok_eq_ok, Option.some.injEq, exists_eq_left']

theorem runMxVersionInfo_ok {s t : State} :
    runMxVersionInfo s = .ok t ↔ 5 ≤ s.phaseNat ∧
      t = { s with mxm := storeGrid s.mxm (writeVersion s.versionNat s.symbol) } := by
  simp only [runMxVersionInfo, ite_ok_right, ok_eq_ok, Nat.not_lt]

/-- The eight trial matrices of MK_SELECT in a state. -/
def State.trials (s : State) : BitVec 3 → Grid := trialsOf s.versionNat s.ecLevel s.symbol

/-- Their penalties. -/
def State.trialPenalties (s : State) : Vector Penalty 8 :=
  maskPenalties (fun k => gridPenalty s.versionNat (s.trials k))

theorem runMkSelect_ok {s t : State} :
    runMkSelect s = .ok t ↔ s.phaseNat = 6 ∧ maskIndices.all (fun k => (s.trials k).allSet) = true ∧
      t = s.selected s.trials s.trialPenalties := by
  simp only [runMkSelect, ite_ok_right, ite_ok_left, ok_eq_ok, ne_eq, Decidable.not_not]
  rfl

theorem runRender_ok {s t : State} :
    runRender s = .ok t ↔ s.phaseNat = 7 ∧ s.pixSize.toNat ≠ 0 ∧ (loadGrid s.mxm s.mxSize.toNat).allSet = true ∧
      (geometry s.mxSize.toNat s.pixSize.toNat s.quiet.toNat).side *
        (geometry s.mxSize.toNat s.pixSize.toNat s.quiet.toNat).side ≤ s.pixMax ∧
      t = { s with
        pix := s.pix.write 0 (imageBytes (geometry s.mxSize.toNat s.pixSize.toNat s.quiet.toNat) s.mxSize.toNat
          s.quiet.toNat (loadGrid s.mxm s.mxSize.toNat) s.dark s.light)
        pixSide := BitVec.ofNat 16 (geometry s.mxSize.toNat s.pixSize.toNat s.quiet.toNat).side
        pixScale := BitVec.ofNat 16 (geometry s.mxSize.toNat s.pixSize.toNat s.quiet.toNat).scale
        pixOffset := BitVec.ofNat 16 (geometry s.mxSize.toNat s.pixSize.toNat s.quiet.toNat).off } := by
  simp only [runRender, ite_ok_right, ite_ok_left, ok_eq_ok, ne_eq, Decidable.not_not]

theorem runChain_cons (f : State → CmdResult) (fs : List (State → CmdResult)) (s : State) :
    runChain (f :: fs) s = match f s with | .ok t => runChain fs t | .error e => .error e := rfl

/-- A chain succeeds when its first rule does and the rest does from there. -/
theorem runChain_cons_ok {f : State → CmdResult} {fs : List (State → CmdResult)} {s t : State} :
    runChain (f :: fs) s = .ok t ↔ ∃ u, f s = .ok u ∧ runChain fs u = .ok t := by
  rw [runChain_cons]
  cases f s <;> simp

/-- ENCODE succeeds when the seven rules succeed in chain order. -/
theorem runEncode_ok {s t : State} :
    runEncode s = .ok t ↔ ∃ s1, runDeAnalyze s = .ok s1 ∧ ∃ s2, runDeVersion s1 = .ok s2 ∧ ∃ s3, runDePack s2 = .ok s3 ∧
      ∃ s4, runCwAssemble s3 = .ok s4 ∧ ∃ s5, runMxInit s4 = .ok s5 ∧ ∃ s6, runMxPlace s5 = .ok s6 ∧
      runMkSelect s6 = .ok t := by
  simp only [runEncode, pipeline, runChain_cons_ok]
  simp [runChain]

/-! ### What no rule changes -/

/-- The part of the state that belongs to the host and to the completion: no rule writes it. -/
structure State.SameHostPart (s t : State) : Prop where
  status : t.status = s.status
  errcode : t.errcode = s.errcode
  cmd : t.cmd = s.cmd
  level : t.level = s.level
  textLen : t.textLen = s.textLen
  src : t.src = s.src
  dst : t.dst = s.dst
  len : t.len = s.len
  pixSize : t.pixSize = s.pixSize
  quiet : t.quiet = s.quiet
  dark : t.dark = s.dark
  light : t.light = s.light
  txt : t.txt = s.txt
  pixMax : t.pixMax = s.pixMax
  turns : t.turns = s.turns
  reply : t.reply = s.reply

theorem State.SameHostPart.refl (s : State) : s.SameHostPart s := by constructor <;> rfl

theorem State.SameHostPart.trans {s t u : State} (h : s.SameHostPart t) (k : t.SameHostPart u) : s.SameHostPart u := by
  constructor
  · rw [k.status, h.status]
  · rw [k.errcode, h.errcode]
  · rw [k.cmd, h.cmd]
  · rw [k.level, h.level]
  · rw [k.textLen, h.textLen]
  · rw [k.src, h.src]
  · rw [k.dst, h.dst]
  · rw [k.len, h.len]
  · rw [k.pixSize, h.pixSize]
  · rw [k.quiet, h.quiet]
  · rw [k.dark, h.dark]
  · rw [k.light, h.light]
  · rw [k.txt, h.txt]
  · rw [k.pixMax, h.pixMax]
  · rw [k.turns, h.turns]
  · rw [k.reply, h.reply]

theorem runDeAnalyze_host {s t : State} (h : runDeAnalyze s = .ok t) : s.SameHostPart t := by
  obtain ⟨-, rfl⟩ := runDeAnalyze_ok.1 h
  constructor <;> rfl

theorem runDeVersion_host {s t : State} (h : runDeVersion s = .ok t) : s.SameHostPart t := by
  obtain ⟨-, m, -, -, v, -, rfl⟩ := runDeVersion_ok.1 h
  constructor <;> rfl

theorem runDePack_host {s t : State} (h : runDePack s = .ok t) : s.SameHostPart t := by
  obtain ⟨-, m, -, -, -, -, rfl⟩ := runDePack_ok.1 h
  constructor <;> rfl

theorem runCwAssemble_host {s t : State} (h : runCwAssemble s = .ok t) : s.SameHostPart t := by
  obtain ⟨-, -, rfl⟩ := runCwAssemble_ok.1 h
  constructor <;> rfl

theorem runMxInit_host {s t : State} (h : runMxInit s = .ok t) : s.SameHostPart t := by
  obtain ⟨-, -, g, -, rfl⟩ := runMxInit_ok.1 h
  constructor <;> rfl

theorem runMxPlace_host {s t : State} (h : runMxPlace s = .ok t) : s.SameHostPart t := by
  obtain ⟨-, g, -, rfl⟩ := runMxPlace_ok.1 h
  constructor <;> rfl

theorem runMkSelect_host {s t : State} (h : runMkSelect s = .ok t) : s.SameHostPart t := by
  obtain ⟨-, -, rfl⟩ := runMkSelect_ok.1 h
  constructor <;> simp

theorem runEncode_host {s t : State} (h : runEncode s = .ok t) : s.SameHostPart t := by
  obtain ⟨s1, h1, s2, h2, s3, h3, s4, h4, s5, h5, s6, h6, h7⟩ := runEncode_ok.1 h
  have k3 := ((runDeAnalyze_host h1).trans (runDeVersion_host h2)).trans (runDePack_host h3)
  have k6 := ((runCwAssemble_host h4).trans (runMxInit_host h5)).trans (runMxPlace_host h6)
  exact (k3.trans k6).trans (runMkSelect_host h7)

/-- No rule writes the host's inputs, TXT, the flags, ERRCODE or the interleaving. -/
theorem runOf_host {i : Instr} {s t : State} (h : runOf i s = .ok t) : s.SameHostPart t := by
  cases i with
  | nop => cases h; exact .refl s
  | gfMul a b => obtain ⟨r, -, rfl⟩ := withResult_ok.1 (show s.withResult (.ok (gfMul a b)) = .ok t from h); constructor <;> rfl
  | gfDiv a b => obtain ⟨r, -, rfl⟩ := withResult_ok.1 (show s.withResult (gfDiv a b) = .ok t from h); constructor <;> rfl
  | gfExp i => obtain ⟨b, -, rfl⟩ := withResult_ok.1 (show s.withResult (.ok (gfExp i)) = .ok t from h); constructor <;> rfl
  | gfLog a => obtain ⟨b, -, rfl⟩ := withResult_ok.1 (show s.withResult (gfLog a) = .ok t from h); constructor <;> rfl
  | rsGen n => obtain ⟨-, rfl⟩ := runRsGen_ok.1 h; constructor <;> rfl
  | rsEnc n => obtain ⟨-, rfl⟩ := runRsEnc_ok.1 h; constructor <;> rfl
  | deAnalyze => exact runDeAnalyze_host h
  | deVersion => exact runDeVersion_host h
  | dePack => exact runDePack_host h
  | cwAssemble => exact runCwAssemble_host h
  | mxInit => exact runMxInit_host h
  | mxPlace => exact runMxPlace_host h
  | mkApply k => obtain ⟨-, m, -, rfl⟩ := runMkApply_ok.1 h; constructor <;> rfl
  | mkScore => obtain ⟨-, -, rfl⟩ := runMkScore_ok.1 h; constructor <;> rfl
  | mxFormat k => obtain ⟨-, m, -, rfl⟩ := runMxFormat_ok.1 h; constructor <;> rfl
  | mxVersionInfo => obtain ⟨-, rfl⟩ := runMxVersionInfo_ok.1 h; constructor <;> rfl
  | mkSelect => exact runMkSelect_host h
  | render => obtain ⟨-, -, -, -, rfl⟩ := runRender_ok.1 h; constructor <;> rfl
  | encode => exact runEncode_host h

/-! ### What no rule reads -/

/-- The state with other flags and another error code. -/
def State.reflag (s : State) (f : Status) (e : Byte) : State := { s with status := f, errcode := e }

@[simp] theorem State.reflag_result (s : State) (f : Status) (e : Byte) : (s.reflag f e).result = s.result := rfl

@[simp] theorem State.reflag_level (s : State) (f : Status) (e : Byte) : (s.reflag f e).level = s.level := rfl

@[simp] theorem State.reflag_textLen (s : State) (f : Status) (e : Byte) : (s.reflag f e).textLen = s.textLen := rfl

@[simp] theorem State.reflag_mode (s : State) (f : Status) (e : Byte) : (s.reflag f e).mode = s.mode := rfl

@[simp] theorem State.reflag_version (s : State) (f : Status) (e : Byte) : (s.reflag f e).version = s.version := rfl

@[simp] theorem State.reflag_mask (s : State) (f : Status) (e : Byte) : (s.reflag f e).mask = s.mask := rfl

@[simp] theorem State.reflag_phase (s : State) (f : Status) (e : Byte) : (s.reflag f e).phase = s.phase := rfl

@[simp] theorem State.reflag_src (s : State) (f : Status) (e : Byte) : (s.reflag f e).src = s.src := rfl

@[simp] theorem State.reflag_dst (s : State) (f : Status) (e : Byte) : (s.reflag f e).dst = s.dst := rfl

@[simp] theorem State.reflag_len (s : State) (f : Status) (e : Byte) : (s.reflag f e).len = s.len := rfl

@[simp] theorem State.reflag_dataCw (s : State) (f : Status) (e : Byte) : (s.reflag f e).dataCw = s.dataCw := rfl

@[simp] theorem State.reflag_totalCw (s : State) (f : Status) (e : Byte) : (s.reflag f e).totalCw = s.totalCw := rfl

@[simp] theorem State.reflag_bitLen (s : State) (f : Status) (e : Byte) : (s.reflag f e).bitLen = s.bitLen := rfl

@[simp] theorem State.reflag_mxSize (s : State) (f : Status) (e : Byte) : (s.reflag f e).mxSize = s.mxSize := rfl

@[simp] theorem State.reflag_pixSize (s : State) (f : Status) (e : Byte) : (s.reflag f e).pixSize = s.pixSize := rfl

@[simp] theorem State.reflag_quiet (s : State) (f : Status) (e : Byte) : (s.reflag f e).quiet = s.quiet := rfl

@[simp] theorem State.reflag_dark (s : State) (f : Status) (e : Byte) : (s.reflag f e).dark = s.dark := rfl

@[simp] theorem State.reflag_light (s : State) (f : Status) (e : Byte) : (s.reflag f e).light = s.light := rfl

@[simp] theorem State.reflag_txt (s : State) (f : Status) (e : Byte) : (s.reflag f e).txt = s.txt := rfl

@[simp] theorem State.reflag_cwm (s : State) (f : Status) (e : Byte) : (s.reflag f e).cwm = s.cwm := rfl

@[simp] theorem State.reflag_mxm (s : State) (f : Status) (e : Byte) : (s.reflag f e).mxm = s.mxm := rfl

@[simp] theorem State.reflag_pix (s : State) (f : Status) (e : Byte) : (s.reflag f e).pix = s.pix := rfl

@[simp] theorem State.reflag_pixMax (s : State) (f : Status) (e : Byte) : (s.reflag f e).pixMax = s.pixMax := rfl

@[simp] theorem State.reflag_phaseNat (s : State) (f : Status) (e : Byte) : (s.reflag f e).phaseNat = s.phaseNat := rfl

@[simp] theorem State.reflag_versionNat (s : State) (f : Status) (e : Byte) : (s.reflag f e).versionNat = s.versionNat := rfl

@[simp] theorem State.reflag_textBytes (s : State) (f : Status) (e : Byte) : (s.reflag f e).textBytes = s.textBytes := rfl

@[simp] theorem State.reflag_ecLevel (s : State) (f : Status) (e : Byte) : (s.reflag f e).ecLevel = s.ecLevel := rfl

@[simp] theorem State.reflag_text (s : State) (f : Status) (e : Byte) : (s.reflag f e).text = s.text := rfl

@[simp] theorem State.reflag_symbol (s : State) (f : Status) (e : Byte) : (s.reflag f e).symbol = s.symbol := rfl

theorem ite_reflag {c d : Prop} [Decidable c] [Decidable d] (h : d ↔ c) {f : Status} {e : Byte} {x x' y y' : CmdResult}
    (hx : x' = x.map (fun t => t.reflag f e)) (hy : y' = y.map (fun t => t.reflag f e)) :
    (if d then x' else y') = (if c then x else y).map (fun t => t.reflag f e) := by
  by_cases hc : c
  · rw [if_pos (h.2 hc), if_pos hc, hx]
  · rw [if_neg (fun hd => hc (h.1 hd)), if_neg hc, hy]

/-- Each rule on its own reads neither STATUS nor ERRCODE. -/
theorem runDeAnalyze_reflag (s : State) (f : Status) (e : Byte) :
    runDeAnalyze (s.reflag f e) = (runDeAnalyze s).map (fun t => t.reflag f e) :=
  ite_reflag Iff.rfl rfl rfl

theorem runDeVersion_reflag (s : State) (f : Status) (e : Byte) :
    runDeVersion (s.reflag f e) = (runDeVersion s).map (fun t => t.reflag f e) := by
  refine ite_reflag Iff.rfl rfl ?_
  simp only [State.reflag_mode]
  cases Mode.ofCode s.mode with
  | none => rfl
  | some m =>
    refine ite_reflag Iff.rfl ?_ rfl
    simp only [State.reflag_textBytes, State.reflag_ecLevel]
    cases selectVersion m s.textBytes s.ecLevel <;> rfl

theorem runDePack_reflag (s : State) (f : Status) (e : Byte) :
    runDePack (s.reflag f e) = (runDePack s).map (fun t => t.reflag f e) := by
  refine ite_reflag Iff.rfl rfl ?_
  simp only [State.reflag_mode]
  cases Mode.ofCode s.mode with
  | none => rfl
  | some m => exact ite_reflag Iff.rfl (ite_reflag Iff.rfl (ite_reflag Iff.rfl rfl rfl) rfl) rfl

theorem runCwAssemble_reflag (s : State) (f : Status) (e : Byte) :
    runCwAssemble (s.reflag f e) = (runCwAssemble s).map (fun t => t.reflag f e) :=
  ite_reflag Iff.rfl rfl (ite_reflag Iff.rfl rfl rfl)

theorem runMxInit_reflag (s : State) (f : Status) (e : Byte) :
    runMxInit (s.reflag f e) = (runMxInit s).map (fun t => t.reflag f e) := by
  refine ite_reflag Iff.rfl rfl (ite_reflag Iff.rfl ?_ rfl)
  simp only [State.reflag_versionNat]
  cases buildPattern s.versionNat <;> rfl

theorem runMxPlace_reflag (s : State) (f : Status) (e : Byte) :
    runMxPlace (s.reflag f e) = (runMxPlace s).map (fun t => t.reflag f e) := by
  refine ite_reflag Iff.rfl rfl ?_
  simp only [State.reflag_versionNat, State.reflag_mxSize, State.reflag_cwm, State.reflag_mxm]
  cases place s.versionNat s.mxSize.toNat
    (s.cwm.readBytes Config.finalBase (totalCodewords s.versionNat)) (loadGrid s.mxm s.mxSize.toNat) <;> rfl

theorem State.selected_reflag (s : State) (f : Status) (e : Byte) (tr : BitVec 3 → Grid) (pens : Vector Penalty 8) :
    (s.reflag f e).selected tr pens = (s.selected tr pens).reflag f e := by
  simp only [State.selected, State.setPenalty, State.reflag]

theorem runMkSelect_reflag (s : State) (f : Status) (e : Byte) :
    runMkSelect (s.reflag f e) = (runMkSelect s).map (fun t => t.reflag f e) := by
  simp only [runMkSelect, State.reflag_phaseNat, State.reflag_versionNat, State.reflag_ecLevel, State.reflag_symbol,
    State.selected_reflag]
  generalize trialsOf s.versionNat s.ecLevel s.symbol = tr
  generalize maskPenalties (fun k => gridPenalty s.versionNat (tr k)) = pens
  exact ite_reflag Iff.rfl rfl (ite_reflag Iff.rfl rfl rfl)

/-- A chain of rules that read neither reads neither. -/
theorem runChain_reflag {fs : List (State → CmdResult)} {f : Status} {e : Byte}
    (h : ∀ r ∈ fs, ∀ s : State, r (s.reflag f e) = (r s).map (fun t => t.reflag f e)) (s : State) :
    runChain fs (s.reflag f e) = (runChain fs s).map (fun t => t.reflag f e) := by
  induction fs generalizing s with
  | nil => rfl
  | cons r fs ih =>
    rw [runChain_cons, runChain_cons, h r (by simp)]
    cases r s with
    | error c => rfl
    | ok t => exact ih (fun q hq => h q (by simp [hq])) t

theorem runEncode_reflag (s : State) (f : Status) (e : Byte) :
    runEncode (s.reflag f e) = (runEncode s).map (fun t => t.reflag f e) := by
  refine runChain_reflag (fun r hr => ?_) s
  simp only [pipeline, List.mem_cons, List.not_mem_nil, or_false] at hr
  rcases hr with rfl | rfl | rfl | rfl | rfl | rfl | rfl
  · exact fun s => runDeAnalyze_reflag s f e
  · exact fun s => runDeVersion_reflag s f e
  · exact fun s => runDePack_reflag s f e
  · exact fun s => runCwAssemble_reflag s f e
  · exact fun s => runMxInit_reflag s f e
  · exact fun s => runMxPlace_reflag s f e
  · exact fun s => runMkSelect_reflag s f e

/-- No rule reads STATUS or ERRCODE (10_state.md R63). -/
theorem runOf_reflag (i : Instr) (s : State) (f : Status) (e : Byte) :
    runOf i (s.reflag f e) = (runOf i s).map (fun t => t.reflag f e) := by
  cases i with
  | nop => rfl
  | gfMul a b => rfl
  | gfDiv a b => simp only [runOf, State.withResult]; cases gfDiv a b <;> rfl
  | gfExp i => rfl
  | gfLog a => simp only [runOf, State.withResult]; cases gfLog a <;> rfl
  | rsGen n => exact ite_reflag Iff.rfl rfl rfl
  | rsEnc n => exact ite_reflag Iff.rfl rfl rfl
  | deAnalyze => exact runDeAnalyze_reflag s f e
  | deVersion => exact runDeVersion_reflag s f e
  | dePack => exact runDePack_reflag s f e
  | cwAssemble => exact runCwAssemble_reflag s f e
  | mxInit => exact runMxInit_reflag s f e
  | mxPlace => exact runMxPlace_reflag s f e
  | mkApply k =>
    refine ite_reflag Iff.rfl rfl ?_
    cases maskIndex k <;> rfl
  | mkScore =>
    refine ite_reflag Iff.rfl rfl ?_
    simp only [State.reflag_symbol, State.reflag_versionNat]
    generalize gridPenalty s.versionNat s.symbol = p
    exact ite_reflag Iff.rfl rfl rfl
  | mxFormat k =>
    simp only [runOf, runMxFormat, State.reflag_phaseNat, State.reflag_symbol, State.reflag_versionNat,
      State.reflag_ecLevel, State.reflag_mxm]
    cases maskIndex k with
    | none => exact ite_reflag Iff.rfl rfl rfl
    | some m =>
      dsimp only
      generalize storeGrid s.mxm (writeFormat s.versionNat s.ecLevel m s.symbol) = mem
      exact ite_reflag Iff.rfl rfl rfl
  | mxVersionInfo =>
    simp only [runOf, runMxVersionInfo, State.reflag_phaseNat, State.reflag_symbol, State.reflag_versionNat,
      State.reflag_mxm]
    generalize storeGrid s.mxm (writeVersion s.versionNat s.symbol) = mem
    exact ite_reflag Iff.rfl rfl rfl
  | mkSelect => exact runMkSelect_reflag s f e
  | render =>
    exact ite_reflag Iff.rfl rfl (ite_reflag Iff.rfl rfl (ite_reflag Iff.rfl (ite_reflag Iff.rfl rfl rfl) rfl))
  | encode => exact runEncode_reflag s f e

end Sys2Proof.Machine
end

