-- ==== Sys2Proof/Laws/Memory.lean ====
section
/-! SUPPORT. Laws of the memories: what a read sees after a write, that every write keeps the canonical form, and that
two canonical memories that read alike are equal. -/

namespace Sys2Proof.Machine.Memory

/-! ### Reading -/

@[simp] theorem read_nil (a : Nat) : Memory.read [] a = Memory.unlisted := rfl

theorem read_cons (k : Nat) (b : Byte) (m : Memory) (a : Nat) :
    Memory.read ((k, b) :: m) a = if k = a then b else Memory.read m a := rfl

theorem read_of_absent {m : Memory} {a : Nat} (h : ∀ c ∈ m, c.1 ≠ a) : m.read a = Memory.unlisted := by
  induction m with
  | nil => rfl
  | cons c m ih =>
    rw [show c = (c.1, c.2) from rfl, read_cons, if_neg (h c (by simp))]
    exact ih fun d hd => h d (by simp [hd])

theorem read_append {m l : Memory} {a : Nat} (h : ∀ c ∈ m, c.1 ≠ a) : Memory.read (m ++ l) a = l.read a := by
  induction m with
  | nil => rfl
  | cons c m ih =>
    rw [List.cons_append, show c = (c.1, c.2) from rfl, read_cons, if_neg (h c (by simp))]
    exact ih fun d hd => h d (by simp [hd])

theorem read_append_left {m l : Memory} {a : Nat} (h : ∀ c ∈ l, c.1 ≠ a) : Memory.read (m ++ l) a = m.read a := by
  induction m with
  | nil => exact read_of_absent h
  | cons c m ih => rw [List.cons_append, show c = (c.1, c.2) from rfl, read_cons, read_cons, ih]

/-- Dropping entries of other addresses changes no read. -/
theorem read_filter {m : Memory} {a : Nat} {p : Host.Cell → Bool} (h : ∀ b, p (a, b) = true) :
    Memory.read (m.filter p) a = m.read a := by
  induction m with
  | nil => rfl
  | cons c m ih =>
    obtain ⟨k, b⟩ := c
    by_cases hk : k = a
    · subst hk; simp [h, read_cons]
    · by_cases hp : p (k, b) = true <;> simp [hp, read_cons, hk, ih]

/-! ### Entries of a byte sequence -/

theorem ofBytes_cons (a : Nat) (b : Byte) (bs : List Byte) :
    ofBytes a (b :: bs) = if b = Memory.unlisted then ofBytes (a + 1) bs else (a, b) :: ofBytes (a + 1) bs := by
  by_cases h : b = Memory.unlisted <;> simp [ofBytes, List.zipIdx_cons, h]

theorem mem_ofBytes {a : Nat} {bs : List Byte} {c : Host.Cell} (h : c ∈ ofBytes a bs) :
    a ≤ c.1 ∧ c.1 < a + bs.length ∧ c.2 ≠ Memory.unlisted ∧ c.2 ∈ bs := by
  induction bs generalizing a with
  | nil => simp [ofBytes] at h
  | cons b bs ih =>
    rw [ofBytes_cons] at h
    split at h
    · obtain ⟨h1, h2, h3, h4⟩ := ih h
      refine ⟨by omega, by simp; omega, h3, by simp [h4]⟩
    · next hb =>
      rcases List.mem_cons.1 h with rfl | h
      · exact ⟨by simp, by simp, hb, by simp⟩
      · obtain ⟨h1, h2, h3, h4⟩ := ih h
        refine ⟨by omega, by simp; omega, h3, by simp [h4]⟩

theorem read_ofBytes (a : Nat) (bs : List Byte) (x : Nat) :
    (ofBytes a bs).read x = if a ≤ x ∧ x < a + bs.length then bs.getD (x - a) 0#8 else Memory.unlisted := by
  by_cases hx : a ≤ x ∧ x < a + bs.length
  · rw [if_pos hx]
    induction bs generalizing a with
    | nil => simp at hx; omega
    | cons b bs ih =>
      rw [ofBytes_cons]
      rcases Nat.lt_or_ge a x with hlt | hge
      · have hne : a ≠ x := by omega
        have hxa : x - a = (x - (a + 1)) + 1 := by omega
        have := ih (a + 1) (by simp at hx; omega)
        split <;> simp [read_cons, hne, this, hxa]
      · have hax : a = x := by omega
        subst hax
        split
        · next hb =>
          rw [read_of_absent fun c hc => by have := (mem_ofBytes hc).1; omega]
          simp [hb]
        · simp [read_cons]
  · rw [if_neg hx]
    exact read_of_absent fun c hc hce => hx (by have := mem_ofBytes hc; omega)

/-! ### Writing -/

/-- A read after a write: the bytes written inside the range, the old byte outside it. -/
theorem read_write (m : Memory) (a : Nat) (bs : List Byte) (x : Nat) :
    (m.write a bs).read x = if a ≤ x ∧ x < a + bs.length then bs.getD (x - a) 0#8 else m.read x := by
  unfold Memory.write
  by_cases h1 : x < a
  · rw [if_neg (by omega), read_append_left, read_filter (by simp [h1])]
    intro c hc
    rcases List.mem_append.1 hc with hc | hc
    · have := (mem_ofBytes hc).1; omega
    · simp at hc; omega
  · rw [read_append fun c hc => by simp at hc; omega]
    by_cases h2 : x < a + bs.length
    · rw [if_pos ⟨by omega, h2⟩, read_append_left fun c hc => by simp at hc; omega, read_ofBytes,
        if_pos ⟨by omega, h2⟩]
    · rw [if_neg (by omega), read_append fun c hc => by have := (mem_ofBytes hc).2.1; omega,
        read_filter (by simp; omega)]

theorem read_write_outside {m : Memory} {a : Nat} {bs : List Byte} {x : Nat} (h : x < a ∨ a + bs.length ≤ x) :
    (m.write a bs).read x = m.read x := by
  rw [read_write, if_neg (by omega)]

theorem read_write_inside {m : Memory} {a : Nat} {bs : List Byte} {i : Nat} (h : i < bs.length) :
    (m.write a bs).read (a + i) = bs[i] := by
  rw [read_write, if_pos (by omega)]
  simp [h]

@[simp] theorem length_readBytes (m : Memory) (a n : Nat) : (m.readBytes a n).length = n := by
  simp [readBytes]

theorem readBytes_eq (m : Memory) (a n : Nat) : m.readBytes a n = (List.range n).map fun i => m.read (a + i) := by
  unfold readBytes
  apply List.map_congr_left
  intro i hi
  rw [List.mem_range] at hi
  exact read_filter (by simp; omega)

@[simp] theorem getElem_readBytes (m : Memory) (a n i : Nat) (h : i < (m.readBytes a n).length) :
    (m.readBytes a n)[i] = m.read (a + i) := by
  simp [readBytes_eq]

theorem readBytes_congr {m l : Memory} {a n : Nat} (h : ∀ x, a ≤ x → x < a + n → m.read x = l.read x) :
    m.readBytes a n = l.readBytes a n := by
  rw [readBytes_eq, readBytes_eq]
  apply List.map_congr_left
  intro i hi
  rw [List.mem_range] at hi
  exact h _ (by omega) (by omega)

/-- Reading back exactly what was written. -/
theorem readBytes_write_same (m : Memory) (a : Nat) (bs : List Byte) :
    (m.write a bs).readBytes a bs.length = bs := by
  apply List.ext_getElem (by simp)
  intro i h1 h2
  simp [read_write_inside h2]

theorem readBytes_write_outside {m : Memory} {a : Nat} {bs : List Byte} {b n : Nat}
    (h : b + n ≤ a ∨ a + bs.length ≤ b) : (m.write a bs).readBytes b n = m.readBytes b n :=
  readBytes_congr fun x h1 h2 => read_write_outside (by omega)

/-! ### The canonical form -/

theorem wfFrom_iff (lo : Nat) (m : Memory) :
    wfFrom lo m = true ↔
      m.Pairwise (fun x y => x.1 < y.1) ∧ (∀ c ∈ m, c.2 ≠ Memory.unlisted) ∧ ∀ c ∈ m, lo ≤ c.1 := by
  induction m generalizing lo with
  | nil => simp [wfFrom]
  | cons c m ih =>
    obtain ⟨a, b⟩ := c
    simp only [wfFrom, Bool.and_eq_true, decide_eq_true_eq, bne_iff_ne, ne_eq, ih, List.pairwise_cons,
      List.mem_cons, forall_eq_or_imp]
    constructor
    · rintro ⟨⟨h1, h2⟩, h3, h4, h5⟩
      exact ⟨⟨fun x hx => by have := h5 x hx; omega, h3⟩, ⟨h2, h4⟩, h1, fun x hx => by have := h5 x hx; omega⟩
    · rintro ⟨⟨h1, h2⟩, ⟨h3, h4⟩, h5, h6⟩
      exact ⟨⟨h5, h3⟩, h2, h4, fun x hx => by have := h1 x hx; omega⟩

theorem wf_iff (m : Memory) :
    m.wf = true ↔ m.Pairwise (fun x y => x.1 < y.1) ∧ ∀ c ∈ m, c.2 ≠ Memory.unlisted := by
  simp [wf, wfFrom_iff]

@[simp] theorem wf_nil : Memory.wf [] = true := rfl

theorem ofBytes_pairwise (a : Nat) (bs : List Byte) : (ofBytes a bs).Pairwise (fun x y => x.1 < y.1) := by
  induction bs generalizing a with
  | nil => simp [ofBytes]
  | cons b bs ih =>
    rw [ofBytes_cons]
    split
    · exact ih _
    · exact List.pairwise_cons.2 ⟨fun c hc => by have := (mem_ofBytes hc).1; omega, ih _⟩

/-- Every write keeps the canonical form. -/
theorem wf_write {m : Memory} (h : m.wf = true) (a : Nat) (bs : List Byte) : (m.write a bs).wf = true := by
  rw [wf_iff] at h ⊢
  obtain ⟨hp, hn⟩ := h
  unfold Memory.write
  constructor
  · rw [List.pairwise_append, List.pairwise_append]
    refine ⟨hp.filter _, ⟨ofBytes_pairwise a bs, hp.filter _, fun x hx y hy => ?_⟩, fun x hx y hy => ?_⟩
    · have := (mem_ofBytes hx).2.1
      simp at hy; omega
    · simp at hx
      rcases List.mem_append.1 hy with hy | hy
      · have := (mem_ofBytes hy).1; omega
      · simp at hy; omega
  · intro c hc
    simp only [List.mem_append, List.mem_filter] at hc
    rcases hc with hc | hc | hc
    · exact hn c hc.1
    · exact (mem_ofBytes hc).2.2.1
    · exact hn c hc.1

theorem below_iff (m : Memory) (n : Nat) : m.below n = true ↔ ∀ c ∈ m, c.1 < n := by
  simp [below]

/-- A write inside the first `n` addresses lists nothing beyond them. -/
theorem below_write {m : Memory} {n a : Nat} {bs : List Byte} (h : m.below n = true) (hb : a + bs.length ≤ n) :
    (m.write a bs).below n = true := by
  rw [below_iff] at h ⊢
  intro c hc
  simp only [Memory.write, List.mem_append, List.mem_filter] at hc
  rcases hc with hc | hc | hc
  · exact h c hc.1
  · have := (mem_ofBytes hc).2.1; omega
  · exact h c hc.1

/-- A property every stored byte has is kept by a write of bytes that have it. -/
theorem forall_write {m : Memory} {a : Nat} {bs : List Byte} {P : Byte → Prop} (h : ∀ c ∈ m, P c.2)
    (hb : ∀ b ∈ bs, P b) : ∀ c ∈ m.write a bs, P c.2 := by
  intro c hc
  simp only [Memory.write, List.mem_append, List.mem_filter] at hc
  rcases hc with hc | hc | hc
  · exact h c hc.1
  · exact hb _ (mem_ofBytes hc).2.2.2
  · exact h c hc.1

theorem read_of_mem {m : Memory} (h : m.wf = true) {c : Host.Cell} (hc : c ∈ m) : m.read c.1 = c.2 := by
  rw [wf_iff] at h
  obtain ⟨hp, -⟩ := h
  induction m with
  | nil => simp at hc
  | cons d m ih =>
    obtain ⟨k, b⟩ := d
    rw [List.pairwise_cons] at hp
    rcases List.mem_cons.1 hc with rfl | hc
    · simp [read_cons]
    · have := hp.1 c hc
      rw [read_cons, if_neg (by simp at this; omega)]
      exact ih hc hp.2

/-- Equal memories are equal data: two canonical memories that read alike are the same list. -/
theorem eq_of_read {m l : Memory} (hm : m.wf = true) (hl : l.wf = true) (h : ∀ a, m.read a = l.read a) : m = l := by
  have key : ∀ {m l : Memory}, m.wf = true → l.wf = true → (∀ a, m.read a = l.read a) → ∀ c ∈ m, c ∈ l := by
    intro m l hm hl h c hc
    have h1 := read_of_mem hm hc
    by_contra hcl
    have h2 : l.read c.1 = Memory.unlisted := by
      apply read_of_absent
      intro d hd hdc
      have h3 := read_of_mem hl hd
      rw [hdc, ← h, h1] at h3
      exact hcl (by rw [show c = d from Prod.ext hdc.symm h3]; exact hd)
    exact ((wf_iff m).1 hm).2 c hc (by rw [← h1, h, h2])
  have hmp := ((wf_iff m).1 hm).1
  have hlp := ((wf_iff l).1 hl).1
  have hnd : ∀ {k : Memory}, k.Pairwise (fun x y => x.1 < y.1) → k.Nodup := fun hk =>
    hk.imp fun hxy hab => by rw [hab] at hxy; omega
  have hperm : m.Perm l := by
    apply (List.perm_ext_iff_of_nodup (hnd hmp) (hnd hlp)).2
    exact fun c => ⟨key hm hl h c, key hl hm (fun a => (h a).symm) c⟩
  exact hperm.eq_of_pairwise (fun x y _ _ h1 h2 => absurd h1 (by omega)) hmp hlp

end Sys2Proof.Machine.Memory
end

