-- ==== Sys2Proof/Laws/Grid.lean ====
section
/-! SUPPORT. Laws of grids of cells: what a cell is after one is replaced, after every one is mapped, and after the grid is
written into MXM and read back. -/

namespace Sys2Proof.Machine

/-- An n × n grid. -/
def Grid.Sized (g : Grid) (n : Nat) : Prop := g.length = n ∧ ∀ row ∈ g, row.length = n

/-! ### Cells and bytes -/

@[simp] theorem cellOfByte_byteOfCell (x : Cell) : cellOfByte (byteOfCell x) = x := by revert x; decide

theorem byteOfCell_cellOfByte {b : Byte} (h : b.toNat < 8) : byteOfCell (cellOfByte b) = b := by
  apply BitVec.eq_of_toNat_eq
  simp only [byteOfCell, cellOfByte, BitVec.toNat_setWidth]
  omega

theorem byteOfCell_lt (x : Cell) : (byteOfCell x).toNat < 8 := by revert x; decide

theorem cellOfByte_unlisted : cellOfByte Memory.unlisted = CellCode.empty := by decide

/-! ### One cell -/

theorem Grid.get_eq {g : Grid} {n r c : Nat} (h : g.Sized n) (hr : r < n) (hc : c < n) :
    g.get r c = (g[r]'(by rw [h.1]; exact hr))[c]'(by rw [h.2 _ (List.getElem_mem _)]; exact hc) := by
  have hr' : r < g.length := by rw [h.1]; exact hr
  have hc' : c < (g[r]).length := by rw [h.2 _ (List.getElem_mem _)]; exact hc
  simp [Grid.get, hr', hc']

theorem Grid.ext {g k : Grid} {n : Nat} (hg : g.Sized n) (hk : k.Sized n)
    (h : ∀ r c, r < n → c < n → g.get r c = k.get r c) : g = k := by
  apply List.ext_getElem (by rw [hg.1, hk.1])
  intro r h1 h2
  have hr : r < n := hg.1 ▸ h1
  apply List.ext_getElem (by rw [hg.2 _ (List.getElem_mem _), hk.2 _ (List.getElem_mem _)])
  intro c h3 h4
  have hc : c < n := by rw [hg.2 _ (List.getElem_mem _)] at h3; exact h3
  have := h r c hr hc
  rwa [Grid.get_eq hg hr hc, Grid.get_eq hk hr hc] at this

theorem Grid.sized_blank (n : Nat) : (Grid.blank n).Sized n := by
  refine ⟨by simp [Grid.blank], fun row hrow => ?_⟩
  rw [List.eq_of_mem_replicate hrow, List.length_replicate]

theorem Grid.get_blank (n r c : Nat) : (Grid.blank n).get r c = CellCode.empty := by
  unfold Grid.get Grid.blank
  by_cases hr : r < n
  · by_cases hc : c < n <;> simp [hr, hc]
  · simp [hr]

theorem Grid.sized_put {g : Grid} {n : Nat} (h : g.Sized n) (r c : Nat) (x : Cell) : (g.put r c x).Sized n := by
  refine ⟨by simp [Grid.put, h.1], fun row hrow => ?_⟩
  rw [Grid.put] at hrow
  obtain ⟨i, hi, rfl⟩ := List.getElem_of_mem hrow
  rw [List.getElem_modify]
  have hi' : i < g.length := by simpa using hi
  split
  · simpa using h.2 _ (List.getElem_mem hi')
  · exact h.2 _ (List.getElem_mem hi')

/-- A replaced cell holds the new code; every other cell is as it was. -/
theorem Grid.get_put {g : Grid} {n : Nat} (h : g.Sized n) {r c : Nat} (_ : r < n) (_ : c < n) (x : Cell)
    {r' c' : Nat} (hr' : r' < n) (hc' : c' < n) :
    (g.put r c x).get r' c' = if r' = r ∧ c' = c then x else g.get r' c' := by
  rw [Grid.get_eq (Grid.sized_put h r c x) hr' hc', Grid.get_eq h hr' hc']
  simp only [Grid.put, List.getElem_modify]
  by_cases h1 : r = r'
  · subst h1
    by_cases h2 : c = c'
    · subst h2; simp
    · simp [h2, show ¬c' = c from fun h => h2 h.symm]
  · simp [h1, show ¬r' = r from fun h => h1 h.symm]

theorem Grid.sized_mapCells {g : Grid} {n : Nat} (h : g.Sized n) (f : Nat → Nat → Cell → Cell) :
    (g.mapCells f).Sized n := by
  refine ⟨by simp [Grid.mapCells, h.1], fun row hrow => ?_⟩
  obtain ⟨i, hi, rfl⟩ := List.getElem_of_mem hrow
  have hi' : i < g.length := by simpa [Grid.mapCells] using hi
  simpa [Grid.mapCells] using h.2 _ (List.getElem_mem hi')

theorem Grid.get_mapCells {g : Grid} {n : Nat} (h : g.Sized n) (f : Nat → Nat → Cell → Cell) {r c : Nat}
    (hr : r < n) (hc : c < n) : (g.mapCells f).get r c = f r c (g.get r c) := by
  rw [Grid.get_eq (Grid.sized_mapCells h f) hr hc, Grid.get_eq h hr hc]
  simp [Grid.mapCells]

/-- Every cell holds a colour. -/
theorem Grid.allSet_iff {g : Grid} {n : Nat} (h : g.Sized n) :
    g.allSet = true ↔ ∀ r c, r < n → c < n → cellSet (g.get r c) = true := by
  simp only [Grid.allSet, List.all_eq_true]
  constructor
  · intro hall r c hr hc
    rw [Grid.get_eq h hr hc]
    exact hall _ (List.getElem_mem _) _ (List.getElem_mem _)
  · intro hall row hrow x hx
    obtain ⟨r, hr, rfl⟩ := List.getElem_of_mem hrow
    obtain ⟨c, hc, rfl⟩ := List.getElem_of_mem hx
    have hr' : r < n := h.1 ▸ hr
    have hc' : c < n := by rw [h.2 _ (List.getElem_mem _)] at hc; exact hc
    rw [← Grid.get_eq h hr' hc']
    exact hall r c hr' hc'

/-! ### MXM -/

theorem sized_loadGrid (m : Memory) (n : Nat) : (loadGrid m n).Sized n := by
  refine ⟨by simp [loadGrid], fun row hrow => ?_⟩
  simp only [loadGrid, List.mem_map] at hrow
  obtain ⟨r, -, rfl⟩ := hrow
  simp

theorem get_loadGrid (m : Memory) {n r c : Nat} (hr : r < n) (hc : c < n) :
    (loadGrid m n).get r c = cellOfByte (m.read (r * Config.mxmStride + c)) := by
  rw [Grid.get_eq (sized_loadGrid m n) hr hc]
  simp [loadGrid]

/-- The address of a cell names its row and its column. -/
theorem cell_addr {r c : Nat} (hc : c < 177) : (r * 177 + c) / 177 = r ∧ (r * 177 + c) % 177 = c := by omega

theorem read_storeGridFrom (m : Memory) (n : Nat) (hn : n ≤ 177) (g : Grid) (hg : ∀ row ∈ g, row.length = n) (r0 a : Nat) :
    (storeGridFrom m r0 g).read a =
      if r0 ≤ a / 177 ∧ a / 177 < r0 + g.length ∧ a % 177 < n then byteOfCell (g.get (a / 177 - r0) (a % 177))
      else m.read a := by
  induction g generalizing m r0 with
  | nil =>
    rw [if_neg (by simp; omega)]
    rfl
  | cons row rows ih =>
    have hrow : row.length = n := hg row (by simp)
    rw [storeGridFrom, ih _ (fun x hx => hg x (by simp [hx]))]
    simp only [Config.mxmStride, List.length_cons]
    by_cases h1 : r0 + 1 ≤ a / 177 ∧ a / 177 < r0 + 1 + rows.length ∧ a % 177 < n
    · rw [if_pos h1, if_pos (by omega)]
      have : a / 177 - r0 = (a / 177 - (r0 + 1)) + 1 := by omega
      rw [this]
      simp [Grid.get]
    · rw [if_neg h1, Memory.read_write]
      simp only [List.length_map, hrow]
      by_cases h2 : r0 ≤ a / 177 ∧ a / 177 < r0 + (rows.length + 1) ∧ a % 177 < n
      · have h3 : a / 177 = r0 := by omega
        have h4 : a - r0 * 177 = a % 177 := by omega
        rw [if_pos (by omega), if_pos h2, h3, h4]
        have h5 : a % 177 < row.length := by omega
        simp [Grid.get, h5]
      · rw [if_neg (by omega), if_neg h2]

/-- MXM after a grid of n × n cells is written: the cells inside, the old bytes outside (10_state.md R72). -/
theorem read_storeGrid (m : Memory) {n : Nat} (hn : n ≤ 177) {g : Grid} (hg : g.Sized n) (a : Nat) :
    (storeGrid m g).read a =
      if a / 177 < n ∧ a % 177 < n then byteOfCell (g.get (a / 177) (a % 177)) else m.read a := by
  rw [storeGrid, read_storeGridFrom m n hn g hg.2 0 a, hg.1]
  simp

theorem read_storeGrid_cell (m : Memory) {n : Nat} (hn : n ≤ 177) {g : Grid} (hg : g.Sized n) {r c : Nat} (hr : r < n)
    (hc : c < n) : (storeGrid m g).read (r * 177 + c) = byteOfCell (g.get r c) := by
  have h := cell_addr (r := r) (c := c) (by omega)
  rw [read_storeGrid m hn hg, h.1, h.2, if_pos ⟨hr, hc⟩]

/-- Reading back the grid that was written. -/
theorem loadGrid_storeGrid (m : Memory) {n : Nat} (hn : n ≤ 177) {g : Grid} (hg : g.Sized n) :
    loadGrid (storeGrid m g) n = g :=
  Grid.ext (sized_loadGrid _ _) hg fun r c hr hc => by
    rw [get_loadGrid _ hr hc, show Config.mxmStride = 177 from rfl, read_storeGrid_cell m hn hg hr hc,
      cellOfByte_byteOfCell]

theorem wf_storeGridFrom {m : Memory} (h : m.wf = true) (r : Nat) (g : Grid) : (storeGridFrom m r g).wf = true := by
  induction g generalizing m r with
  | nil => exact h
  | cons row rows ih => exact ih (Memory.wf_write h _ _) _

theorem wf_storeGrid {m : Memory} (h : m.wf = true) (g : Grid) : (storeGrid m g).wf = true := wf_storeGridFrom h 0 g

theorem below_storeGridFrom {m : Memory} {n : Nat} (hn : n ≤ 177) (h : m.below Config.mxmSize = true) {g : Grid}
    (hg : ∀ row ∈ g, row.length = n) {r : Nat} (hr : r + g.length ≤ 177) :
    (storeGridFrom m r g).below Config.mxmSize = true := by
  induction g generalizing m r with
  | nil => exact h
  | cons row rows ih =>
    simp only [List.length_cons] at hr
    refine ih (Memory.below_write h ?_) (fun x hx => hg x (by simp [hx])) (by omega)
    simp only [List.length_map, hg row (by simp), Config.mxmStride, Config.mxmSize]
    have : r * 177 ≤ 176 * 177 := Nat.mul_le_mul_right 177 (by omega)
    omega

theorem below_storeGrid {m : Memory} {n : Nat} (hn : n ≤ 177) (h : m.below Config.mxmSize = true) {g : Grid}
    (hg : g.Sized n) : (storeGrid m g).below Config.mxmSize = true :=
  below_storeGridFrom hn h hg.2 (by rw [hg.1]; omega)

/-- MXM keeps three bits a byte. -/
theorem small_storeGridFrom {m : Memory} (h : ∀ c ∈ m, c.2.toNat < 8) (r : Nat) (g : Grid) :
    ∀ c ∈ storeGridFrom m r g, c.2.toNat < 8 := by
  induction g generalizing m r with
  | nil => exact h
  | cons row rows ih =>
    refine ih (Memory.forall_write (P := fun b => b.toNat < 8) h fun b hb => ?_) _
    obtain ⟨x, -, rfl⟩ := List.mem_map.1 hb
    exact byteOfCell_lt x

theorem small_storeGrid {m : Memory} (h : ∀ c ∈ m, c.2.toNat < 8) (g : Grid) : ∀ c ∈ storeGrid m g, c.2.toNat < 8 :=
  small_storeGridFrom h 0 g

theorem read_small {m : Memory} (h : ∀ c ∈ m, c.2.toNat < 8) (a : Nat) : (m.read a).toNat < 8 := by
  induction m with
  | nil => exact (by decide : Memory.unlisted.toNat < 8)
  | cons c m ih =>
    rw [show c = (c.1, c.2) from rfl, Memory.read_cons]
    split
    · exact h c (by simp)
    · exact ih fun d hd => h d (by simp [hd])

/-! ### Listed cells -/

theorem sized_writeBits {w : Nat} (bits : BitVec w) (cells : List (Nat × Nat × Nat)) {g : Grid} {n : Nat}
    (h : g.Sized n) : (writeBits bits cells g).Sized n := by
  unfold writeBits
  induction cells generalizing g with
  | nil => exact h
  | cons x xs ih => exact ih (Grid.sized_put h _ _ _)

/-- A cell no listed cell names is as it was. -/
theorem get_writeBits_other {w : Nat} {bits : BitVec w} {cells : List (Nat × Nat × Nat)} {g : Grid} {n : Nat}
    (h : g.Sized n) (hin : ∀ x ∈ cells, x.2.1 < n ∧ x.2.2 < n) {r c : Nat} (hr : r < n) (hc : c < n)
    (hne : ∀ x ∈ cells, ¬(r = x.2.1 ∧ c = x.2.2)) : (writeBits bits cells g).get r c = g.get r c := by
  unfold writeBits
  induction cells generalizing g with
  | nil => rfl
  | cons x xs ih =>
    rw [List.foldl_cons, ih (Grid.sized_put h _ _ _) (fun y hy => hin y (by simp [hy])) (fun y hy => hne y (by simp [hy])),
      Grid.get_put h (hin x (by simp)).1 (hin x (by simp)).2 _ hr hc, if_neg (hne x (by simp))]

/-- A listed cell shows its bit, when the list names each cell for one bit only. -/
theorem get_writeBits {w : Nat} {bits : BitVec w} {cells : List (Nat × Nat × Nat)} {g : Grid} {n : Nat}
    (h : g.Sized n) (hin : ∀ x ∈ cells, x.2.1 < n ∧ x.2.2 < n)
    (hone : ∀ x ∈ cells, ∀ y ∈ cells, x.2 = y.2 → x.1 = y.1) {b r c : Nat} (hx : (b, r, c) ∈ cells) :
    (writeBits bits cells g).get r c = funcCell (bits.getLsbD b) := by
  induction cells generalizing g with
  | nil => simp at hx
  | cons x xs ih =>
    have hr : r < n := (hin _ hx).1
    have hc : c < n := (hin _ hx).2
    by_cases hlater : ∃ b', (b', r, c) ∈ xs
    · obtain ⟨b', hb'⟩ := hlater
      have hbb : b' = b := hone (b', r, c) (by simp [hb']) (b, r, c) hx rfl
      subst hbb
      exact ih (Grid.sized_put h _ _ _) (fun y hy => hin y (by simp [hy]))
        (fun y hy z hz => hone y (by simp [hy]) z (by simp [hz])) hb'
    · have hxe : x = (b, r, c) := by
        rcases List.mem_cons.1 hx with h1 | h1
        · exact h1.symm
        · exact absurd ⟨b, h1⟩ hlater
      subst hxe
      have := get_writeBits_other (bits := bits) (Grid.sized_put h r c (funcCell (bits.getLsbD b)))
        (fun y hy => hin y (by simp [hy])) hr hc (cells := xs)
        (fun y hy hyc => hlater ⟨y.1, by rw [hyc.1, hyc.2]; exact hy⟩)
      unfold writeBits at this ⊢
      rw [List.foldl_cons, this, Grid.get_put h hr hc _ hr hc, if_pos ⟨rfl, rfl⟩]

end Sys2Proof.Machine
end

