-- ==== Sys2Proof/Laws/Pattern.lean ====
section
/-! SUPPORT. The function patterns of all 40 versions: MX_INIT's writes meet no conflict and leave exactly the raw data
modules EMPTY. The writes are followed on bitmaps (one bit a cell, in numbers), which the kernel computes quickly, and the
bitmaps are related to the grid once. -/

namespace Sys2Proof.Machine

/-- The cells written so far as bitmaps: function cells, the dark ones among them, reservations, and how many cells are
not EMPTY. -/
structure CellBits where
  func : Nat
  dark : Nat
  rsv : Nat
  used : Nat

/-- The code the bitmaps give a cell. -/
def CellBits.code (m : CellBits) (i : Nat) : Cell :=
  if m.func.testBit i then funcCell (m.dark.testBit i)
  else if m.rsv.testBit i then CellCode.reservedUnset else CellCode.empty

/-- One write on the bitmaps; none where `applyWrite` raises or the cell is outside the grid, and where a function cell
covers a reservation, which no version does. -/
def CellBits.apply (n : Nat) (m : CellBits) : PatternWrite → Option CellBits
  | .func r c dark =>
    let i := r * n + c
    if r < n && c < n && !m.rsv.testBit i then
      if m.func.testBit i then if m.dark.testBit i == dark then some m else none
      else some ⟨m.func ||| 1 <<< i, if dark then m.dark ||| 1 <<< i else m.dark, m.rsv, m.used + 1⟩
    else none
  | .reserve r c =>
    let i := r * n + c
    if r < n && c < n && !m.func.testBit i && !m.rsv.testBit i then some ⟨m.func, m.dark, m.rsv ||| 1 <<< i, m.used + 1⟩
    else none

/-- All writes on the bitmaps. -/
def CellBits.applyAll (n : Nat) : CellBits → List PatternWrite → Option CellBits
  | m, [] => some m
  | m, w :: ws =>
    match m.apply n w with
    | some m' => CellBits.applyAll n m' ws
    | none => none

/-- The bitmaps agree with a grid. -/
structure CellBits.Models (n : Nat) (m : CellBits) (g : Grid) : Prop where
  sized : g.Sized n
  code : ∀ r c, r < n → c < n → g.get r c = m.code (r * n + c)
  dark_sub : ∀ i, m.dark.testBit i = true → m.func.testBit i = true
  count : m.used = ((Finset.range (n * n)).filter (fun i => m.func.testBit i || m.rsv.testBit i)).card

theorem index_inj {n r c r' c' : Nat} (hc : c < n) (hc' : c' < n) (h : r * n + c = r' * n + c') : r = r' ∧ c = c' := by
  have h1 : (r * n + c) / n = r := by
    rw [Nat.add_comm, Nat.add_mul_div_right _ _ (by omega), Nat.div_eq_of_lt hc, Nat.zero_add]
  have h2 : (r' * n + c') / n = r' := by
    rw [Nat.add_comm, Nat.add_mul_div_right _ _ (by omega), Nat.div_eq_of_lt hc', Nat.zero_add]
  have hr : r = r' := by rw [← h1, ← h2, h]
  subst hr
  exact ⟨rfl, by omega⟩

theorem index_lt {n r c : Nat} (hr : r < n) (hc : c < n) : r * n + c < n * n := by
  calc r * n + c < r * n + n := by omega
    _ = (r + 1) * n := by ring
    _ ≤ n * n := Nat.mul_le_mul_right n hr

theorem testBit_or_bit (x i j : Nat) : (x ||| 1 <<< i).testBit j = (x.testBit j || decide (i = j)) := by
  rw [Nat.testBit_or, Nat.one_shiftLeft, Nat.testBit_two_pow]

theorem card_insert_bit {n i : Nat} (hi : i < n) {p : Nat → Bool} (hp : p i = false) :
    ((Finset.range n).filter (fun j => p j || decide (i = j))).card = ((Finset.range n).filter (fun j => p j)).card + 1 := by
  have : (Finset.range n).filter (fun j => p j || decide (i = j)) = insert i ((Finset.range n).filter (fun j => p j)) := by
    ext j
    simp only [Finset.mem_filter, Finset.mem_range, Bool.or_eq_true, decide_eq_true_eq, Finset.mem_insert]
    constructor
    · rintro ⟨h1, h2 | h2⟩
      · exact .inr ⟨h1, h2⟩
      · exact .inl h2.symm
    · rintro (rfl | ⟨h1, h2⟩)
      · exact ⟨hi, .inr rfl⟩
      · exact ⟨h1, .inl h2⟩
  rw [this, Finset.card_insert_of_notMem (by simp [hp])]

/-- One write on a grid is one write on its bitmaps. -/
theorem CellBits.apply_models {n : Nat} {m m' : CellBits} {g : Grid} {w : PatternWrite} (h : m.Models n g)
    (hw : m.apply n w = some m') : ∃ g', applyWrite g w = .ok g' ∧ m'.Models n g' := by
  cases w with
  | func r c dark =>
    simp only [CellBits.apply] at hw
    split at hw
    · next hin =>
      simp only [Bool.and_eq_true, decide_eq_true_eq, Bool.not_eq_true'] at hin
      obtain ⟨⟨hr, hc⟩, hrsv⟩ := hin
      have hold := h.code r c hr hc
      simp only [CellBits.code, hrsv, Bool.false_eq_true, if_false] at hold
      split at hw
      · next hf =>
        split at hw
        · next hd =>
          cases hw
          rw [if_pos hf, beq_iff_eq.1 hd] at hold
          refine ⟨g.put r c (funcCell dark), ?_, Grid.sized_put h.sized _ _ _, ?_, h.dark_sub, h.count⟩
          · simp [applyWrite, hold]
          · intro r' c' hr' hc'
            rw [Grid.get_put h.sized hr hc _ hr' hc']
            split
            · next he => rw [he.1, he.2, ← h.code r c hr hc, hold]
            · exact h.code r' c' hr' hc'
        · cases hw
      · next hf =>
        cases hw
        rw [if_neg hf] at hold
        simp only [Bool.not_eq_true] at hf
        refine ⟨g.put r c (funcCell dark), ?_, Grid.sized_put h.sized _ _ _, ?_, ?_, ?_⟩
        · simp [applyWrite, hold, CellCode.empty, CellCode.funcLight, CellCode.funcDark]
        · intro r' c' hr' hc'
          rw [Grid.get_put h.sized hr hc _ hr' hc']
          have hdk : m.dark.testBit (r * n + c) = false := by
            by_contra hd
            rw [h.dark_sub _ (by simpa using hd)] at hf
            cases hf
          by_cases he : r' = r ∧ c' = c
          · obtain ⟨rfl, rfl⟩ := he
            rw [if_pos ⟨rfl, rfl⟩, CellBits.code, if_pos (by simp)]
            cases dark
            · simp [hdk]
            · simp
          · have hne : r * n + c ≠ r' * n + c' := fun hi => he (by have := index_inj hc hc' hi; omega)
            rw [if_neg he, h.code r' c' hr' hc', CellBits.code, CellBits.code]
            cases dark <;> simp only [testBit_or_bit, hne, decide_false, Bool.or_false, if_true, Bool.false_eq_true, if_false]
        · intro i
          cases dark
          · simp only [Bool.false_eq_true, if_false, testBit_or_bit]
            intro hi; simp [h.dark_sub i hi]
          · simp only [if_true, testBit_or_bit, Bool.or_eq_true, decide_eq_true_eq]
            rintro (hi | hi)
            · exact .inl (h.dark_sub i hi)
            · exact .inr hi
        · have := card_insert_bit (index_lt hr hc) (p := fun i => m.func.testBit i || m.rsv.testBit i)
            (by simp [hf, hrsv])
          show m.used + 1 = ((Finset.range (n * n)).filter
            (fun i => (m.func ||| 1 <<< (r * n + c)).testBit i || m.rsv.testBit i)).card
          rw [h.count, ← this]
          congr 1
          apply Finset.filter_congr
          intro i _
          simp only [testBit_or_bit]
          cases m.func.testBit i <;> cases m.rsv.testBit i <;> simp
    · cases hw
  | reserve r c =>
    simp only [CellBits.apply] at hw
    split at hw
    · next hin =>
      simp only [Bool.and_eq_true, decide_eq_true_eq, Bool.not_eq_true'] at hin
      obtain ⟨⟨⟨hr, hc⟩, hf⟩, hrsv⟩ := hin
      cases hw
      have hold := h.code r c hr hc
      simp only [CellBits.code, hf, hrsv, Bool.false_eq_true, if_false] at hold
      refine ⟨g.put r c CellCode.reservedUnset, by simp [applyWrite, hold], Grid.sized_put h.sized _ _ _, ?_,
        h.dark_sub, ?_⟩
      · intro r' c' hr' hc'
        rw [Grid.get_put h.sized hr hc _ hr' hc']
        by_cases he : r' = r ∧ c' = c
        · obtain ⟨rfl, rfl⟩ := he
          rw [if_pos ⟨rfl, rfl⟩, CellBits.code]
          simp [hf]
        · have hne : r * n + c ≠ r' * n + c' := fun hi => he (by have := index_inj hc hc' hi; omega)
          rw [if_neg he, h.code r' c' hr' hc', CellBits.code, CellBits.code]
          simp only [testBit_or_bit, hne, decide_false, Bool.or_false]
      · have := card_insert_bit (index_lt hr hc) (p := fun i => m.func.testBit i || m.rsv.testBit i) (by simp [hf, hrsv])
        show m.used + 1 = ((Finset.range (n * n)).filter
          (fun i => m.func.testBit i || (m.rsv ||| 1 <<< (r * n + c)).testBit i)).card
        rw [h.count, ← this]
        congr 1
        apply Finset.filter_congr
        intro i _
        simp only [testBit_or_bit]
        cases m.func.testBit i <;> cases m.rsv.testBit i <;> simp
    · cases hw

theorem CellBits.applyAll_models {n : Nat} {ws : List PatternWrite} {m m' : CellBits} {g : Grid} (h : m.Models n g)
    (hw : m.applyAll n ws = some m') : ∃ g', applyWrites g ws = .ok g' ∧ m'.Models n g' := by
  induction ws generalizing m g with
  | nil => cases hw; exact ⟨g, rfl, h⟩
  | cons w ws ih =>
    rw [CellBits.applyAll] at hw
    split at hw
    · next m1 h1 =>
      obtain ⟨g1, hg1, hm1⟩ := CellBits.apply_models h h1
      rw [applyWrites, hg1]
      exact ih hm1 hw
    · cases hw

/-- A bit of a bitmap, in operations the kernel computes at once. -/
def bitAt (m i : Nat) : Bool := Nat.beq (Nat.land (Nat.shiftRight m i) 1) 1

theorem bitAt_eq (m i : Nat) : bitAt m i = m.testBit i := by
  rw [Nat.testBit_eq_decide_div_mod_eq]
  show Nat.beq (m >>> i &&& 1) 1 = _
  rw [Nat.and_one_is_mod, Nat.shiftRight_eq_div_pow, Bool.eq_iff_iff, decide_eq_true_eq, Nat.beq_eq]

/-- `CellBits.apply` in operations the kernel computes at once. -/
def CellBits.fastApply (n : Nat) (m : CellBits) : PatternWrite → Option CellBits
  | .func r c dark =>
    let i := Nat.add (Nat.mul r n) c
    bif Nat.blt r n then bif Nat.blt c n then bif bitAt m.rsv i then none else
      bif bitAt m.func i then bif Bool.xor (bitAt m.dark i) dark then none else some m
      else some ⟨Nat.lor m.func (Nat.shiftLeft 1 i), bif dark then Nat.lor m.dark (Nat.shiftLeft 1 i) else m.dark, m.rsv,
        Nat.add m.used 1⟩
    else none else none
  | .reserve r c =>
    let i := Nat.add (Nat.mul r n) c
    bif Nat.blt r n then bif Nat.blt c n then bif bitAt m.func i then none else bif bitAt m.rsv i then none else
      some ⟨m.func, m.dark, Nat.lor m.rsv (Nat.shiftLeft 1 i), Nat.add m.used 1⟩
    else none else none

theorem blt_eq (a b : Nat) : Nat.blt a b = decide (a < b) := by
  rw [Bool.eq_iff_iff, Nat.blt_eq, decide_eq_true_eq]

theorem CellBits.fastApply_eq (n : Nat) (m : CellBits) (w : PatternWrite) : m.fastApply n w = m.apply n w := by
  cases w with
  | func r c dark =>
    show (bif Nat.blt r n then bif Nat.blt c n then bif bitAt m.rsv (r * n + c) then none else
      bif bitAt m.func (r * n + c) then bif Bool.xor (bitAt m.dark (r * n + c)) dark then none else some m
      else some (CellBits.mk (m.func ||| 1 <<< (r * n + c)) (bif dark then m.dark ||| 1 <<< (r * n + c) else m.dark) m.rsv (m.used + 1))
      else none else none) = _
    simp only [bitAt_eq, blt_eq, CellBits.apply]
    by_cases h1 : r < n <;> by_cases h2 : c < n <;> simp only [h1, h2, decide_true, decide_false, cond_true, cond_false] <;> try rfl
    cases m.rsv.testBit (r * n + c) <;> cases m.func.testBit (r * n + c) <;> cases m.dark.testBit (r * n + c) <;> cases dark <;> rfl
  | reserve r c =>
    show (bif Nat.blt r n then bif Nat.blt c n then bif bitAt m.func (r * n + c) then none else bif bitAt m.rsv (r * n + c) then none else
      some (CellBits.mk m.func m.dark (m.rsv ||| 1 <<< (r * n + c)) (m.used + 1)) else none else none) = _
    simp only [bitAt_eq, blt_eq, CellBits.apply]
    by_cases h1 : r < n <;> by_cases h2 : c < n <;> simp only [h1, h2, decide_true, decide_false, cond_true, cond_false] <;> try rfl
    cases m.rsv.testBit (r * n + c) <;> cases m.func.testBit (r * n + c) <;> rfl

/-- `CellBits.applyAll` over the same operations, the recursion written on the list. -/
def CellBits.fastAll (n : Nat) (l : List PatternWrite) : CellBits → Option CellBits :=
  l.rec (motive := fun _ => CellBits → Option CellBits) some
    (fun w _ ih m => match m.fastApply n w with | some m' => ih m' | none => none)

theorem CellBits.fastAll_eq (n : Nat) (l : List PatternWrite) (m : CellBits) : CellBits.fastAll n l m = m.applyAll n l := by
  induction l generalizing m with
  | nil => rfl
  | cons w ws ih =>
    show (match m.fastApply n w with | some m' => CellBits.fastAll n ws m' | none => none) = _
    rw [CellBits.fastApply_eq, CellBits.applyAll]
    split <;> simp_all

/-- The bitmaps of a version's patterns. -/
def patternBits (v : Nat) : Option CellBits := CellBits.fastAll (gridSide v) (patternWrites v) ⟨0, 0, 0, 0⟩

/-- The patterns of a version meet no conflict and leave as many EMPTY cells as there are raw data modules. -/
def patternFits (v : Nat) : Bool :=
  match patternBits v with
  | some m => m.used + rawModules v == gridSide v * gridSide v
  | none => false

set_option Elab.async false in
theorem patternFits_low : (List.range' 1 20).all patternFits = true := by decide +kernel

set_option Elab.async false in
theorem patternFits_mid : (List.range' 21 10).all patternFits = true := by decide +kernel

set_option Elab.async false in
theorem patternFits_high : (List.range' 31 10).all patternFits = true := by decide +kernel

theorem patternFits_of_legal {v : Nat} (h : legalVersion v = true) : patternFits v = true := by
  rw [legalVersion_iff] at h
  by_cases h1 : v ≤ 20
  · exact List.all_eq_true.1 patternFits_low v (by simp; omega)
  · by_cases h2 : v ≤ 30
    · exact List.all_eq_true.1 patternFits_mid v (by simp; omega)
    · exact List.all_eq_true.1 patternFits_high v (by simp; omega)

/-- MX_INIT's patterns exist for every legal version (45_matrix.md R351, R360). -/
theorem buildPattern_models {v : Nat} (h : legalVersion v = true) :
    ∃ (g : Grid) (m : CellBits), buildPattern v = .ok g ∧ m.Models (gridSide v) g ∧ m.used + rawModules v = gridSide v * gridSide v := by
  have hf := patternFits_of_legal h
  unfold patternFits at hf
  split at hf
  · next m hm =>
    obtain ⟨g, hg, hmod⟩ := CellBits.applyAll_models (m := ⟨0, 0, 0, 0⟩) (g := Grid.blank (gridSide v))
      ⟨Grid.sized_blank _, fun r c _ _ => by simp [Grid.get_blank, CellBits.code], fun i hi => by simp at hi, by simp⟩
      (by rw [← CellBits.fastAll_eq]; exact hm)
    exact ⟨g, m, hg, hmod, beq_iff_eq.1 hf⟩
  · cases hf

end Sys2Proof.Machine
end

