-- ==== Sys2Proof/Laws/PerInstr.lean ====
section
/-! SUPPORT. The family Encoding: every command's word passes the checks of 30_encoding.md R145. -/

namespace Sys2Proof

theorem Fields.ofWord_toWord (f : Fields) : Fields.ofWord f.toWord = f := by
  obtain ⟨opc, a, b, c⟩ := f
  simp only [Fields.ofWord, Fields.toWord, Fields.mk.injEq]
  refine ⟨?_, ?_, ?_, ?_⟩ <;>
    (apply BitVec.eq_of_getLsbD_eq; intro i hi; simp [hi]; grind)

end Sys2Proof

namespace Sys2Proof.Laws.Encoding

/-- The word of the command is well formed: an assigned opcode, and zero in every byte it does not use. -/
def Statement (i : Instr) : Prop := (Fields.ofWord (encode i)).wellFormed = true

theorem of_fields {i : Instr} (h : i.fields.wellFormed = true) : Statement i := by
  rw [Statement, encode, Fields.ofWord_toWord]; exact h

theorem nop : Statement .nop := of_fields rfl

theorem gfMul (a b : Byte) : Statement (.gfMul a b) := of_fields rfl

theorem gfDiv (a b : Byte) : Statement (.gfDiv a b) := of_fields rfl

theorem gfExp (i : Byte) : Statement (.gfExp i) := of_fields rfl

theorem gfLog (a : Byte) : Statement (.gfLog a) := of_fields rfl

theorem rsGen (n : Byte) : Statement (.rsGen n) := of_fields rfl

theorem rsEnc (n : Byte) : Statement (.rsEnc n) := of_fields rfl

theorem deAnalyze : Statement .deAnalyze := of_fields rfl

theorem deVersion : Statement .deVersion := of_fields rfl

theorem dePack : Statement .dePack := of_fields rfl

theorem cwAssemble : Statement .cwAssemble := of_fields rfl

theorem mxInit : Statement .mxInit := of_fields rfl

theorem mxPlace : Statement .mxPlace := of_fields rfl

theorem mkApply (k : Byte) : Statement (.mkApply k) := of_fields rfl

theorem mkScore : Statement .mkScore := of_fields rfl

theorem mxFormat (k : Byte) : Statement (.mxFormat k) := of_fields rfl

theorem mxVersionInfo : Statement .mxVersionInfo := of_fields rfl

theorem mkSelect : Statement .mkSelect := of_fields rfl

theorem render : Statement .render := of_fields rfl

theorem encode : Statement .encode := of_fields rfl

end Sys2Proof.Laws.Encoding
end

