-- ==== Sys2Proof/Laws/Step.lean ====
section
/-! SUPPORT. What a step can do: the engine's turn, the host's turn and the bus, each said once. -/

namespace Sys2Proof.Machine

/-! ### The bus -/

/-- The accesses QRE answers (20_memory.md R100 to R103). -/
theorem busTarget_ok {pixMax : Nat} {w : Width} {addr : BusAddr} {place : Place} :
    busTarget pixMax w addr = .ok place ↔
      placeOf pixMax addr.toNat = some place ∧
        match place with
        | .reg off => w = .word ∧ off % 4 = 0
        | .mem sp a => w = .byte ∨ w = .word ∧ addr.toNat % 4 = 0 ∧ a + 4 ≤ sp.size pixMax := by
  unfold busTarget
  generalize addr.toNat % 4 = z
  generalize placeOf pixMax addr.toNat = p
  cases p with
  | none => simp
  | some p =>
    simp only [Option.some.injEq]
    cases p with
    | reg off =>
      dsimp only
      by_cases h : w = .word ∧ off % 4 = 0
      · rw [if_pos h]
        exact ⟨fun hp => (by cases hp; exact ⟨rfl, h⟩), fun hp => (by obtain ⟨rfl, -⟩ := hp; rfl)⟩
      · rw [if_neg h]
        exact ⟨fun hp => (by cases hp), fun ⟨hp, hq⟩ => by subst hp; exact absurd hq h⟩
    | mem sp a =>
      cases w with
      | byte => exact ⟨fun hp => (by cases hp; exact ⟨rfl, .inl rfl⟩), fun hp => (by obtain ⟨rfl, -⟩ := hp; rfl)⟩
      | half => exact ⟨fun hp => (by cases hp), fun ⟨hp, hq⟩ => by subst hp; simp at hq⟩
      | word =>
        dsimp only
        by_cases hz : z = 0
        · by_cases ha : a + 4 ≤ sp.size pixMax
          · rw [if_pos hz, if_pos ha]
            exact ⟨fun hp => (by cases hp; exact ⟨rfl, .inr ⟨rfl, hz, ha⟩⟩), fun hp => (by obtain ⟨rfl, -⟩ := hp; rfl)⟩
          · rw [if_pos hz, if_neg ha]
            exact ⟨fun hp => (by cases hp), fun ⟨hp, hq⟩ => by subst hp; simp at hq; omega⟩
        · rw [if_neg hz]
          exact ⟨fun hp => (by cases hp), fun ⟨hp, hq⟩ => by subst hp; simp at hq; omega⟩

/-- What a host address reaches, and where the memories lie in the address space (20_memory.md R100). -/
theorem placeOf_reg {pixMax a off : Nat} : placeOf pixMax a = some (.reg off) ↔ a < 0x100 ∧ off = a := by
  unfold placeOf
  by_cases h : a < 0x100
  · rw [if_pos h]
    exact ⟨fun hp => (by cases hp; exact ⟨h, rfl⟩), fun hp => (by rw [hp.2])⟩
  · rw [if_neg h]
    constructor
    · intro hp; split at hp <;> cases hp
    · exact fun hp => absurd hp.1 h

theorem Space.holds_iff {pixMax a : Nat} {sp : Space} :
    Space.holds pixMax a sp = true ↔ sp.base ≤ a ∧ a < sp.base + sp.size pixMax := by
  simp [Space.holds]

/-- The memories do not overlap (20_memory.md R100). -/
theorem Space.holds_unique {pixMax a : Nat} {sp q : Space} (h : Space.holds pixMax a sp = true)
    (hq : Space.holds pixMax a q = true) : q = sp := by
  rw [Space.holds_iff] at h hq
  cases sp <;> cases q <;> first
    | rfl
    | (simp only [Space.base, Space.size, Config.txtSize, Config.cwmSize, Config.mxmSize] at h hq; omega)

theorem placeOf_mem {pixMax a : Nat} {sp : Space} {b : Nat} :
    placeOf pixMax a = some (.mem sp b) ↔ a = sp.base + b ∧ b < sp.size pixMax := by
  unfold placeOf
  by_cases h : a < 0x100
  · rw [if_pos h]
    constructor
    · intro hp; cases hp
    · rintro ⟨rfl, -⟩
      have hb : 0x10000 ≤ sp.base := by cases sp <;> decide
      omega
  · rw [if_neg h]
    cases hf : [Space.txt, Space.cwm, Space.mxm, Space.pix].find? (Space.holds pixMax a) with
    | none =>
      constructor
      · intro hp; cases hp
      · rintro ⟨rfl, hb⟩
        have := List.find?_eq_none.1 hf sp (by cases sp <;> simp)
        exact absurd (Space.holds_iff.2 ⟨by omega, by omega⟩) this
    | some q =>
      have hq := List.find?_some hf
      constructor
      · intro hp
        cases hp
        rw [Space.holds_iff] at hq
        omega
      · rintro ⟨rfl, hb⟩
        have hsp : Space.holds pixMax (sp.base + b) sp = true := Space.holds_iff.2 ⟨by omega, by omega⟩
        obtain rfl := Space.holds_unique hsp hq
        simp

/-! ### Registers -/

/-- STATUS as a number: its four flags (10_state.md R36). -/
theorem Status.toWord_toNat (f : Status) :
    f.toWord.toNat = f.busy.toNat + 2 * f.done.toNat + 4 * f.err.toNat + 8 * f.overrun.toNat := by
  obtain ⟨b, d, e, o⟩ := f
  cases b <;> cases d <;> cases e <;> cases o <;> rfl

/-- A register reads as its used field, zero-extended (10_state.md R34). -/
theorem readReg_toNat (s : State) (r : Reg) : (s.readReg r).toNat = registerShows s r := by
  cases r <;> first
    | rfl
    | exact Status.toWord_toNat _

/-! ### The host's turn -/

/-- The state an access moves to (20_memory.md R106 to R114). -/
def accessState (acc : Access) (place : Place) (s : State) : State :=
  match acc with
  | .read w _ => { s with reply := s.hostRead w place }
  | .write w _ v => { s.hostWrite w place v with reply := .written }

/-- An access's width and address. -/
def accessTarget (pixMax : Nat) : Access → Except Fault Place
  | .read w addr => busTarget pixMax w addr
  | .write w addr _ => busTarget pixMax w addr

theorem hostAccess_eq (acc : Access) (s : State) : hostAccess acc s =
    match accessTarget s.pixMax acc with
    | .ok place => .ok (accessState acc place s)
    | .error f => .error f := by
  cases acc with
  | read w addr => simp only [hostAccess, accessTarget, accessState]; cases busTarget s.pixMax w addr <;> rfl
  | write w addr v => simp only [hostAccess, accessTarget, accessState]; cases busTarget s.pixMax w addr <;> rfl

theorem hostStep_next {acc : Access} {s t : State} :
    hostStep acc s = .next t ↔ ∃ place, accessTarget s.pixMax acc = .ok place ∧ t = accessState acc place s := by
  rw [hostStep, hostAccess_eq]
  cases accessTarget s.pixMax acc with
  | error f => simp
  | ok place =>
    dsimp only
    generalize accessState acc = f
    simp only [Host.Outcome.next.injEq, Except.ok.injEq, exists_eq_left']
    exact eq_comm

theorem hostStep_fault {acc : Access} {s : State} {f : Fault} :
    hostStep acc s = .fault f ↔ accessTarget s.pixMax acc = .error f := by
  rw [hostStep, hostAccess_eq]
  cases accessTarget s.pixMax acc <;> simp

/-- What the host's turn leaves: the state of the answered access, or the answer that it is a bus error and nothing else
(20_memory.md R101). -/
theorem hostTurn_eq (acc : Access) (s : State) : hostTurn acc s =
    .next (match accessTarget s.pixMax acc with
      | .ok place => accessState acc place s
      | .error f => { s with reply := .busError f }) := by
  rw [hostTurn, hostStep, hostAccess_eq]
  cases accessTarget s.pixMax acc <;> rfl

theorem hostTurn_fault {acc : Access} {s : State} {f : Fault} (h : hostStep acc s = .fault f) :
    hostTurn acc s = .next { s with reply := .busError f } := by rw [hostTurn, h]

/-- With a command pending, a host write changes OVERRUN at most, a soft reset apart (20_memory.md R106). -/
theorem hostWrite_busy (s : State) (w : Width) (pl : Place) (v : Word) (h : s.status.busy = true)
    (hc : pl = .reg 4 → v.getLsbD 0 = false) :
    ∃ o, s.hostWrite w pl v = { s with status := { s.status with overrun := o } } := by
  cases pl with
  | mem sp a => exact ⟨true, by simp [State.hostWrite, h, State.overrun, Status.setOverrun]⟩
  | reg off =>
    simp only [State.hostWrite]
    cases hr : Reg.ofOffset off with
    | none => exact ⟨s.status.overrun, rfl⟩
    | some r =>
      by_cases h1 : r = .ctrl
      · subst h1
        have : off = 4 := by
          unfold Reg.ofOffset at hr
          split at hr <;> simp_all
        refine ⟨s.status.overrun, ?_⟩
        have := hc (by rw [this])
        simp [State.writeReg, -BitVec.getLsbD_eq_getElem, this]
      · by_cases h2 : r = .status
        · subst h2; exact ⟨_, by simp [State.writeReg, Status.hostWrite]; rfl⟩
        · exact ⟨true, by simp [h, h1, h2, State.overrun, Status.setOverrun]⟩

/-- With a command pending, the host's turn changes OVERRUN and the answer at most, a soft reset apart. -/
theorem hostTurn_busy (s : State) (acc : Access) (h : s.status.busy = true)
    (hc : ∀ v, acc = .write .word 0x000004#24 v → v.getLsbD 0 = false) :
    ∃ o r, hostTurn acc s = .next { s with status := { s.status with overrun := o }, reply := r } := by
  rw [hostTurn_eq]
  split
  · next pl hp =>
    cases acc with
    | read w a => exact ⟨s.status.overrun, _, rfl⟩
    | write w a v =>
      have : pl = .reg 4 → v.getLsbD 0 = false := by
        rintro rfl
        apply hc
        simp only [accessTarget, busTarget] at hp
        split at hp
        · cases hp
        · next off ho =>
          split at hp
          · next hh =>
            cases hp
            obtain ⟨rfl, -⟩ := hh
            obtain ⟨-, h4⟩ := placeOf_reg.1 ho
            have : a = 4#24 := by apply BitVec.eq_of_toNat_eq; exact h4.symm
            rw [this]
          · cases hp
        · split at hp <;> try split at hp
          all_goals try split at hp
          all_goals cases hp
      obtain ⟨o, ho⟩ := hostWrite_busy s w pl v h this
      exact ⟨o, .written, by simp only [accessState]; rw [ho]⟩
  · exact ⟨s.status.overrun, _, rfl⟩

/-! ### The engine's turn -/

/-- The engine's turn in its three cases (20_memory.md R104, 30_encoding.md R145). -/
theorem engineStep_eq (s : State) : engineStep s = .next
    (if s.status.busy then
      match decodeWord s.cmd with
      | .ok i => s.complete (runOf i s)
      | .error _ => s.raise .illegalCommand
    else s) := by
  unfold engineStep
  cases s.status.busy with
  | false => rfl
  | true =>
    cases decodeWord s.cmd with
    | ok i => exact exec_eq i s
    | error e => rfl

theorem engineStep_idle {s : State} (h : s.status.busy = false) : engineStep s = .next s := by
  rw [engineStep_eq, h]; rfl

theorem engineStep_run {s : State} {i : Instr} (h : s.status.busy = true) (hi : decodeWord s.cmd = .ok i) :
    engineStep s = exec i s := by
  rw [engineStep, if_pos h, hi]

/-- With a command pending, the engine's turn completes it (20_memory.md R104). -/
theorem engineStep_done (s : State) (h : s.status.busy = true) :
    ∃ u, engineStep s = .next u ∧ u.status.busy = false ∧ u.status.done = true := by
  refine ⟨_, engineStep_eq s, ?_⟩
  rw [h]
  simp only [if_true]
  cases decodeWord s.cmd with
  | error e => exact ⟨rfl, rfl⟩
  | ok i => dsimp only; cases runOf i s <;> exact ⟨rfl, rfl⟩

/-! ### The step -/

/-- A step is the engine's turn, an answered access, or a bus error that is answered and changes nothing else (20_memory.md
R101, R116). -/
theorem step_next {s t : State} :
    step s = .next t ↔
      (s.turns = [] ∧ engineStep s = .next t) ∨
        (∃ ts, s.turns = .engine :: ts ∧ engineStep { s with turns := ts } = .next t) ∨
        (∃ acc ts place, s.turns = .host acc :: ts ∧ accessTarget s.pixMax acc = .ok place ∧
          t = accessState acc place { s with turns := ts }) ∨
        ∃ acc ts f, s.turns = .host acc :: ts ∧ accessTarget s.pixMax acc = .error f ∧
          t = { s with turns := ts, reply := .busError f } := by
  unfold step
  split
  · next h => simp [h]
  · next ts h => simp [h]
  · next a ts h =>
    rw [hostTurn_eq]
    constructor
    · intro ht
      have ht := (Host.Outcome.next.inj ht).symm
      dsimp only at ht
      split at ht
      · next place hp => exact .inr (.inr (.inl ⟨a, ts, place, h, hp, ht⟩))
      · next f hf => exact .inr (.inr (.inr ⟨a, ts, f, h, hf, ht⟩))
    · rintro (⟨h', -⟩ | ⟨ts', h', -⟩ | ⟨a', ts', place, h', hp, rfl⟩ | ⟨a', ts', f, h', hf, rfl⟩)
      · rw [h] at h'; cases h'
      · rw [h] at h'; cases h'
      · rw [h] at h'; cases h'; dsimp only; rw [hp]
      · rw [h] at h'; cases h'; dsimp only; rw [hf]

/-- The state a step moves to. -/
def nextState (s : State) : State :=
  match step s with
  | .next t => t
  | .fault _ => s
  | .refused _ => s

theorem step_eq (s : State) : step s = .next (nextState s) := by
  have h : ∃ t, step s = .next t := by
    unfold step
    split
    · exact ⟨_, engineStep_eq _⟩
    · exact ⟨_, engineStep_eq _⟩
    · exact ⟨_, hostTurn_eq _ _⟩
  obtain ⟨t, ht⟩ := h
  rw [nextState, ht]

end Sys2Proof.Machine
end

