-- ==== Sys2Proof/Tests/Slice0.lean ====
section
/-! SUPPORT. Tests of the model: expected values from the spec's worked examples and from 95_test_vectors.md (named at
each test), and for each obligation with hypotheses a theorem `hyp_<its name>` with states and operands that meet them. -/

open Sys2Proof Sys2Proof.Machine

namespace Sys2Proof.Tests

set_option Elab.async false

/-! ### Well-formedness: one word for each check (30_encoding.md R143 to R146) -/

theorem test_wf_opcode : (Fields.ofWord 0x00000105#32).wellFormed = false := by decide

theorem test_wf_byte_c : (Fields.ofWord 0x01000001#32).wellFormed = false := by decide

theorem test_wf_byte_b : (Fields.ofWord 0x00010850#32).wellFormed = false := by decide

theorem test_wf_byte_a : (Fields.ofWord 0x00000160#32).wellFormed = false := by decide

theorem test_wf_good : (Fields.ofWord 0x00CA5301#32).wellFormed = true := by decide

/-! ### Decoding, each word written out from the table of 30_encoding.md R142: C, B, A, OPC -/

theorem test_decode_nop : decodeWord 0b00000000000000000000000000000000#32 = .ok .nop := by decide

theorem test_decode_gfMul : decodeWord 0b00000000110010100101001100000001#32 = .ok (.gfMul 0x53#8 0xCA#8) := by decide

theorem test_decode_gfDiv : decodeWord 0b00000000000000101000111000000010#32 = .ok (.gfDiv 0x8E#8 0x02#8) := by decide

theorem test_decode_gfExp : decodeWord 0b00000000000000000001100100000011#32 = .ok (.gfExp 25#8) := by decide

theorem test_decode_gfLog : decodeWord 0b00000000000000001111111100000100#32 = .ok (.gfLog 0xFF#8) := by decide

theorem test_decode_rsGen : decodeWord 0b00000000000000000000001000010000#32 = .ok (.rsGen 2#8) := by decide

theorem test_decode_rsEnc : decodeWord 0b00000000000000000000110100010001#32 = .ok (.rsEnc 13#8) := by decide

theorem test_decode_deAnalyze : decodeWord 0b00000000000000000000000000100000#32 = .ok .deAnalyze := by decide

theorem test_decode_deVersion : decodeWord 0b00000000000000000000000000100001#32 = .ok .deVersion := by decide

theorem test_decode_dePack : decodeWord 0b00000000000000000000000000100010#32 = .ok .dePack := by decide

theorem test_decode_cwAssemble : decodeWord 0b00000000000000000000000000110000#32 = .ok .cwAssemble := by decide

theorem test_decode_mxInit : decodeWord 0b00000000000000000000000001000000#32 = .ok .mxInit := by decide

theorem test_decode_mxPlace : decodeWord 0b00000000000000000000000001000001#32 = .ok .mxPlace := by decide

theorem test_decode_mkApply : decodeWord 0b00000000000000000000011001010000#32 = .ok (.mkApply 6#8) := by decide

theorem test_decode_mkScore : decodeWord 0b00000000000000000000000001010001#32 = .ok .mkScore := by decide

theorem test_decode_mxFormat : decodeWord 0b00000000000000000000011001010010#32 = .ok (.mxFormat 6#8) := by decide

theorem test_decode_mxVersionInfo : decodeWord 0b00000000000000000000000001010011#32 = .ok .mxVersionInfo := by decide

theorem test_decode_mkSelect : decodeWord 0b00000000000000000000000001010100#32 = .ok .mkSelect := by decide

theorem test_decode_render : decodeWord 0b00000000000000000000000001100000#32 = .ok .render := by decide

theorem test_decode_encode : decodeWord 0b00000000000000000000000001110000#32 = .ok .encode := by decide

theorem test_decode_table_word : decodeTableWord 32 0x00CA5301 = some (.gfMul 0x53#8 0xCA#8) := by decide

/-! ### States for the tests -/

/-- The state after a step, or the state itself where the step stops. -/
def after (o : Host.Outcome State Fault Refusal) (s : State) : State :=
  match o with
  | .next t => t
  | .fault _ => s
  | .refused _ => s

/-- ERRCODE and RESULT after a command. -/
def errAndResult (i : Instr) (s : State) : Byte × Byte :=
  let t := after (exec i s) s
  (t.errcode, t.result)

/-- A state with a CWM, SRC, DST and LEN. -/
def rsState (cwm : Memory) (src dst len : Nat) : State :=
  { State.reset with cwm := cwm, src := BitVec.ofNat 16 src, dst := BitVec.ofNat 16 dst, len := BitVec.ofNat 16 len }

/-- A state with a text, at a PHASE. -/
def textState (t : List Byte) (phase : BitVec 3) (mode : BitVec 4) (version : BitVec 6) (level : BitVec 2) : State :=
  { State.reset with
    txt := Memory.write [] 0 t, textLen := BitVec.ofNat 14 t.length, phase := phase, mode := mode, version := version
    level := level }

/-- "HELLO WORLD". -/
def hello : List Byte := [72#8, 69#8, 76#8, 76#8, 79#8, 32#8, 87#8, 79#8, 82#8, 76#8, 68#8]

/-- Its 13 data codewords at 1-Q (43_data_encoder.md R300). -/
def helloData : List Byte := [32#8, 91#8, 11#8, 120#8, 209#8, 114#8, 220#8, 77#8, 67#8, 64#8, 236#8, 17#8, 236#8]

/-- Their 13 EC codewords (42_rs.md R241). -/
def helloEc : List Byte := [168#8, 72#8, 22#8, 82#8, 217#8, 54#8, 156#8, 0#8, 46#8, 15#8, 180#8, 122#8, 16#8]

/-- The empty text at version 1-M, numeric, at a PHASE, with an MXM; it meets the invariant. -/
def emptyText (phase : BitVec 3) (mxm : Memory) : State :=
  { State.reset with
    phase := phase, mode := 1#4, version := 1#6, dataCw := 16#16, totalCw := 26#16, bitLen := 14#16, mxSize := 21#8
    mxm := mxm }

/-- A version 1 matrix of dark data cells only. -/
def darkGrid : Grid := List.replicate 21 (List.replicate 21 CellCode.dataDark)

def darkMatrix : Memory := storeGrid [] darkGrid

/-- A version 1 matrix with 208 empty cells on the zig-zag and light data cells elsewhere. -/
def holedGrid : Grid :=
  List.replicate 10 (List.replicate 21 CellCode.empty) ++ [List.replicate 9 CellCode.empty ++ List.replicate 12 CellCode.dataLight] ++
    List.replicate 10 (List.replicate 21 CellCode.dataLight)

def holedMatrix : Memory := storeGrid [] holedGrid

/-- A command pending in CMD. -/
def pending (w : Word) (turns : List Turn) : State := { State.reset.accept w with turns := turns }

/-- The reset state with one access of the host to come. -/
def hosting (acc : Access) : State := { State.reset with turns := [.host acc] }

/-- The same with a command pending. -/
def busyHosting (acc : Access) : State := pending 0#32 [.host acc]

/-! ### The commands -/

theorem test_nop : after (exec .nop State.reset) State.reset =
    { State.reset with status := ⟨false, true, false, false⟩ } := by decide

/-- V-GF-1 -/
theorem test_gfMul : errAndResult (.gfMul 0x53#8 0xCA#8) State.reset = (0#8, 0x8F#8) := by decide

/-- V-GF-1: the product by R199 agrees. -/
theorem test_gfPolyMul : gfPolyMul 0xFF#8 0xFF#8 = 0xE2#8 ∧ gfMul 0xFF#8 0xFF#8 = 0xE2#8 := by decide

/-- V-GF-2 -/
theorem test_gfDiv : errAndResult (.gfDiv 0x53#8 0xCA#8) State.reset = (0#8, 0x6D#8) := by decide

/-- V-GF-2: division by zero keeps RESULT. -/
theorem test_gfDiv_zero : errAndResult (.gfDiv 5#8 0#8) { State.reset with result := 7#8 } = (2#8, 7#8) := by decide

/-- V-GF-3 -/
theorem test_gfExp : errAndResult (.gfExp 254#8) State.reset = (0#8, 0x8E#8) ∧
    errAndResult (.gfExp 255#8) State.reset = (0#8, 1#8) := by decide

/-- V-GF-4 -/
theorem test_gfLog : errAndResult (.gfLog 0xFF#8) State.reset = (0#8, 175#8) ∧
    errAndResult (.gfLog 0#8) State.reset = (2#8, 0#8) := by decide

/-- V-RS-1 -/
theorem test_rsGen : (after (exec (.rsGen 4#8) (rsState [] 0 8187 0)) State.reset).cwm =
    [(8187, 1#8), (8188, 15#8), (8189, 54#8), (8190, 120#8), (8191, 64#8)] := by decide +kernel

/-- V-RS-4 -/
theorem test_rsGen_bounds : errAndResult (.rsGen 2#8) (rsState [] 0 8190 0) = (3#8, 0#8) := by decide +kernel

/-- V-RS-2 -/
theorem test_rsEnc : ((after (exec (.rsEnc 13#8) (rsState (Memory.write [] 0 helloData) 0 13 13)) State.reset).cwm).readBytes
    0 26 = helloData ++ helloEc := by decide +kernel

/-- V-RS-3: the data byte is read before it is overwritten. -/
theorem test_rsEnc_overlap : (after (exec (.rsEnc 2#8) (rsState [(0, 1#8)] 0 0 1)) State.reset).cwm =
    [(0, 3#8), (1, 2#8)] := by decide +kernel

/-- V-DE-1 -/
theorem test_deAnalyze : (after (exec .deAnalyze (textState hello 0#3 0#4 0#6 2#2)) State.reset).mode = 0b0010#4 := by
  decide +kernel

/-- V-DE-1: one byte 0x00. -/
theorem test_deAnalyze_byte : (after (exec .deAnalyze (textState [0#8] 0#3 0#4 0#6 2#2)) State.reset).mode = 0b0100#4 := by
  decide +kernel

/-- V-DE-2 -/
theorem test_deVersion : (after (exec .deVersion (textState (List.replicate 107 97#8) 1#3 4#4 0#6 1#2)) State.reset).version =
    7#6 := by decide +kernel

/-- V-DE-3 -/
theorem test_dePack : ((after (exec .dePack (textState hello 2#3 2#4 1#6 2#2)) State.reset).cwm).readBytes 0 13 =
    helloData := by decide +kernel

/-- V-DE-4: 76 bits do not fit in 72. -/
theorem test_dePack_too_large : errAndResult .dePack
    (textState [48#8, 49#8, 50#8, 51#8, 52#8, 53#8, 54#8, 55#8] 2#3 4#4 1#6 3#2) = (1#8, 0#8) := by decide +kernel

/-- V-CW-2 -/
theorem test_cwAssemble : ((after (exec .cwAssemble
    { State.reset with cwm := Memory.write [] 0 helloData, phase := 3#3, version := 1#6, level := 2#2 }) State.reset).cwm).readBytes
    0x1000 26 = helloData ++ helloEc := by decide +kernel

/-- V-CW-1, and the order of 44_interleaver.md R331 -/
theorem test_interleave : (shortBlocks 5 .q, longBlocks 5 .q, shortLen 5 .q, dataCodewords 40 .h) = (2, 2, 15, 1276) ∧
    (interleave 5 .q ((List.range 62).map (fun i => BitVec.ofNat 8 i))).take 8 =
      [0#8, 15#8, 30#8, 46#8, 1#8, 16#8, 31#8, 47#8] := by decide +kernel

/-- V-MX-1, V-MX-4: cells of version 1 after MX_INIT. -/
theorem test_mxInit : ((after (exec .mxInit { State.reset with phase := 4#3, version := 1#6 }) State.reset).mxm.readBytes
    (13 * 177) 10) = [6#8, 6#8, 6#8, 6#8, 6#8, 6#8, 6#8, 6#8, 7#8, 0#8] := by decide +kernel

/-- V-MX-3: the cells of the first codeword. -/
theorem test_zigzag : (zigzag 21).take 8 =
    [(20, 20), (20, 19), (19, 20), (19, 19), (18, 20), (18, 19), (17, 20), (17, 19)] := by decide +kernel

/-- V-MX-5 -/
theorem test_mxPlace_sequence : errAndResult .mxPlace (emptyText 4#3 []) = (5#8, 0#8) := by decide +kernel

/-- 46_mask.md R430: mask 6 keeps (20, 20) and inverts (19, 20). -/
theorem test_mkApply : let t := after (exec (.mkApply 6#8) (emptyText 6#3 [(19 * 177 + 20, 3#8), (20 * 177 + 20, 3#8)])) State.reset
    (t.cell 20 20, t.cell 19 20) = (CellCode.dataDark, CellCode.dataLight) := by decide +kernel

/-- V-MK-6: the PHASE check comes first. -/
theorem test_mkApply_errors : errAndResult (.mkApply 8#8) (emptyText 6#3 []) = (3#8, 0#8) ∧
    errAndResult (.mkApply 8#8) (emptyText 0#3 []) = (5#8, 0#8) := by decide +kernel

/-- The picture of V-ENC-1, dark cells `#`. -/
def helloPicture : List String :=
  ["#######....#..#######", "#.....#.##..#.#.....#", "#.###.#..#.##.#.###.#", "#.###.#.#####.#.###.#",
   "#.###.#.##.#..#.###.#", "#.....#..#..#.#.....#", "#######.#.#.#.#######", "........##.##........",
   ".#.####.##..###.##.#.", "#.####.#....####.###.", "..#.#.##...#..##.....", "#.##.#...#.##...##...",
   "##.########.###.#####", "........#...#..#.#...", "#######..##..##..####", "#.....#.#.#..#..#.###",
   "#.###.#.##.#..#...###", "#.###.#.#.###...#.#..", "#.###.#..#....#....##", "#.....#.###..###..##.",
   "#######..#.#.......#."]

/-- V-MK-3: the penalties of V-ENC-1. -/
theorem test_mkScore : penaltyOf 21 (helloPicture.map (fun row => row.toList.map (fun c => c == '#'))) =
    ⟨172, 102, 40, 0⟩ := by decide +kernel

/-- V-MK-6: an unset cell. -/
theorem test_mkScore_unset : errAndResult .mkScore (emptyText 6#3 []) = (5#8, 0#8) := by decide +kernel

/-- 46_mask.md R432's worked example: Q, mask 6; (0, 8) light, (1, 8) dark, (8, 0) light. -/
theorem test_mxFormat : let t := after (exec (.mxFormat 6#8) { emptyText 5#3 [] with level := 2#2 }) State.reset
    (t.cell 0 8, t.cell 1 8, t.cell 8 0, t.cell 8 20) =
      (CellCode.funcLight, CellCode.funcDark, CellCode.funcLight, CellCode.funcLight) := by decide +kernel

/-- 46_mask.md R433's worked example: version 7; (0, 34) light, (0, 36) dark, (36, 5) light. -/
theorem test_mxVersionInfo : let t := after (exec .mxVersionInfo { emptyText 5#3 [] with version := 7#6 }) State.reset
    (t.cell 0 34, t.cell 0 36, t.cell 36 0, t.cell 36 5) =
      (CellCode.funcLight, CellCode.funcDark, CellCode.funcDark, CellCode.funcLight) := by decide +kernel

/-- V-MK-4: the tie of masks 3 and 4. -/
theorem test_mkSelect_tie : bestMask (fun k => [352, 397, 393, 346, 346, 433, 367, 480].getD k.toNat 0) = 3#3 := by decide

/-- V-MK-6 -/
theorem test_mkSelect_sequence : errAndResult .mkSelect (emptyText 7#3 []) = (5#8, 0#8) := by decide +kernel

/-- V-RD-1, and 47_raster.md R465. -/
theorem test_render_geometry : geometry 21 210 4 = ⟨7, 203, 210, 3⟩ := by decide

/-- 47_raster.md R470: PIX_SIZE 0. -/
theorem test_render_size : errAndResult .render (emptyText 7#3 darkMatrix) = (3#8, 0#8) := by decide +kernel

/-- 48_top.md R495: a length above 8192. -/
theorem test_encode_length : errAndResult .encode { State.reset with textLen := 8193#14 } = (3#8, 0#8) := by decide +kernel

/-- 30_encoding.md R149 -/
theorem test_spelling : spelling (.mkApply 3#8) = "MK_APPLY 3" ∧ spelling .mkSelect = "MK_SELECT" := by decide

/-! ### Witnesses: states and operands that meet each obligation's hypotheses -/

theorem hyp_EncodeOfDecode : decodeWord 0x00CA5301#32 = .ok (.gfMul 0x53#8 0xCA#8) := by decide

theorem hyp_IllegalWordsRaise : (pending 0x00000105#32 []).status.busy = true ∧ ¬isCommandWord (pending 0x00000105#32 []).cmd ∧
    (pending 0x00CA5301#32 []).status.busy = true ∧ isCommandWord (pending 0x00CA5301#32 []).cmd := by
  unfold isCommandWord; decide

theorem hyp_StepRunsDecodedCommand : (pending 0x70#32 []).status.busy = true ∧ decodeWord (pending 0x70#32 []).cmd = .ok .encode ∧
    (pending 0x70#32 []).turns = [] ∧ (pending 0x70#32 [.engine, .engine]).turns = .engine :: [.engine] := by decide

theorem hyp_NoCommandNoEffect : State.reset.status.busy = false ∧ State.reset.turns = [] ∧
    ({ State.reset with turns := [.engine] } : State).turns = .engine :: [] := by decide

theorem hyp_FailedCommandChangesNothingElse : ∃ t, (pending 0x00000105#32 []).status.busy = true ∧
    engineStep (pending 0x00000105#32 []) = .next t ∧ t.status.err = true := ⟨_, rfl, rfl, rfl⟩

theorem hyp_CommandsKeepHostPart : ∃ t, exec (.gfMul 2#8 3#8) State.reset = .next t := ⟨_, rfl⟩

theorem hyp_SequencingTable : phaseAllows .deVersion State.reset.phase.toNat = false ∧
    ∃ t, exec .deAnalyze State.reset = .next t ∧ t.errcode = 0#8 := ⟨by decide, _, rfl, by decide +kernel⟩

theorem hyp_NoCommandReadsFlags : ∃ t, exec (.gfMul 2#8 3#8) State.reset = .next t := ⟨_, rfl⟩

theorem hyp_GfDivIsFieldQuotient : (0#8 : Byte) = 0#8 ∧ (255#8 : Byte) ≠ 0#8 := by decide

theorem hyp_GfLogIsExponent : (255#8 : Byte) ≠ 0#8 ∧ (254 : Nat) ≤ 254 ∧ alphaPow 254 = 0x8E#8 := by decide +kernel

theorem hyp_GeneratorPolynomial : (1 : Nat) ≤ 4 ∧ (4 : Nat) ≤ 4 ∧ (254 : Nat) < 255 ∧ alphaPow 254 = alphaPow 254 := by
  decide +kernel

theorem hyp_RsGenWritesGenerator : (rsState [] 0 8189 0).dst.toNat + (2#8 : Byte).toNat + 1 ≤ 8192 ∧
    8192 < (rsState [] 0 8190 0).dst.toNat + (2#8 : Byte).toNat + 1 := by decide

theorem hyp_RemainderDividesOut : (0 : Nat) < 1 ∧ (12 : Nat) < 13 := by decide

theorem hyp_RemainderLaws : ([1#8, 2#8] : List Byte).length = [3#8, 4#8].length ∧ (12 : Nat) < 13 := by decide

theorem hyp_RsEncWritesRemainder :
    ((rsState [] 8000 8179 192).src.toNat + (rsState [] 8000 8179 192).len.toNat ≤ 8192 ∧
      (rsState [] 8000 8179 192).dst.toNat + (13#8 : Byte).toNat ≤ 8192) ∧
    8192 < (rsState [] 8000 0 193).src.toNat + (rsState [] 8000 0 193).len.toNat ∧
    8192 < (rsState [] 0 8180 0).dst.toNat + (13#8 : Byte).toNat := by decide

/-- A text of 8192 zero bytes. -/
def longText : State := { State.reset with textLen := 8192#14, mode := 4#4, phase := 2#3, version := 40#6 }

theorem hyp_DeAnalyzeSelectsMode :
    (textState [0x30#8, 0x39#8] 0#3 0#4 0#6 1#2).textLen.toNat ≤ 8192 ∧
    (∀ i < 2, 0x30 ≤ ((textState [0x30#8, 0x39#8] 0#3 0#4 0#6 1#2).txt.read i).toNat ∧
      ((textState [0x30#8, 0x39#8] 0#3 0#4 0#6 1#2).txt.read i).toNat ≤ 0x39) ∧
    (∃ i < 2, ((textState [0x39#8, 0x3A#8] 0#3 0#4 0#6 1#2).txt.read i).toNat < 0x30 ∨
      0x39 < ((textState [0x39#8, 0x3A#8] 0#3 0#4 0#6 1#2).txt.read i).toNat) ∧
    (∀ i < 2, (textState [0x39#8, 0x3A#8] 0#3 0#4 0#6 1#2).txt.read i ∈ alnumAlphabet) ∧
    (longText.textLen.toNat ≤ 8192 ∧ ∃ i < longText.textLen.toNat, longText.txt.read i ∉ alnumAlphabet) ∧
    8192 < ({ State.reset with textLen := 8193#14 } : State).textLen.toNat := by
  refine ⟨by decide, by decide +kernel, ⟨1, by decide +kernel⟩, by decide +kernel, ⟨by decide, 0, by decide +kernel⟩, by decide⟩

theorem hyp_CapacityIsMonotone : reqBits .byte 2953 40 ≤ 8 * dataCodewords 40 .l ∧ fits .byte 2954 40 .l = false ∧
    fits .numeric 17 1 .h = true ∧ (39 : Nat) < 40 := by decide +kernel

theorem hyp_DeVersionSelectsSmallest : 1 ≤ (textState hello 1#3 2#4 0#6 2#2).phase.toNat ∧
    Mode.ofCode (textState hello 1#3 2#4 0#6 2#2).mode = some .alphanumeric ∧
    (textState hello 1#3 2#4 0#6 2#2).textLen.toNat ≤ 8192 ∧
    reqBits .alphanumeric (textState hello 1#3 2#4 0#6 2#2).textLen.toNat 1 ≤ 8 * dataCodewords 1 .q ∧
    (∀ u, 1 ≤ u → u < 1 → 8 * dataCodewords u .q < reqBits .alphanumeric (textState hello 1#3 2#4 0#6 2#2).textLen.toNat u) ∧
    Mode.ofCode longText.mode = some .byte ∧ longText.textLen.toNat ≤ 8192 ∧
    ∀ u, 1 ≤ u → u ≤ 40 → 8 * dataCodewords u (EcLevel.ofCode longText.level) < reqBits .byte longText.textLen.toNat u := by
  refine ⟨by decide, by decide, by decide, by decide, by omega, by decide, by decide, ?_⟩
  have h : ∀ u < 41, 8 * dataCodewords u (EcLevel.ofCode longText.level) < reqBits .byte longText.textLen.toNat u := by
    decide +kernel
  exact fun u _ hu => h u (by omega)

theorem hyp_BitstreamParts : hello.length < 2 ^ ccBits .alphanumeric 1 ∧
    (∀ b ∈ ([0x30#8, 0x31#8, 0x32#8, 0x38#8, 0x39#8] : List Byte), 0x30 ≤ b.toNat ∧ b.toNat ≤ 0x39) ∧
    (0 < 5 / 3 ∧ 5 % 3 = 2 ∧ 4 % 3 = 1) ∧ (∀ b ∈ hello, b ∈ alnumAlphabet) ∧ (4 < 11 / 2 ∧ 11 % 2 = 1) ∧
    10 < hello.length := by decide +kernel

theorem hyp_DePackWritesCodewords : 2 ≤ (textState hello 2#3 2#4 1#6 2#2).phase.toNat ∧
    Mode.ofCode (textState hello 2#3 2#4 1#6 2#2).mode = some .alphanumeric ∧
    1 ≤ (textState hello 2#3 2#4 1#6 2#2).version.toNat ∧ (textState hello 2#3 2#4 1#6 2#2).version.toNat ≤ 40 ∧
    (textState hello 2#3 2#4 1#6 2#2).textLen.toNat ≤ 8192 ∧
    textInClass .alphanumeric (textState hello 2#3 2#4 1#6 2#2).text = true ∧
    reqBits .alphanumeric (textState hello 2#3 2#4 1#6 2#2).textLen.toNat 1 ≤ 8 * dataCodewords 1 .q := by decide +kernel

theorem hyp_DataEncoderErrors :
    (1 ≤ (textState [] 1#3 3#4 1#6 1#2).phase.toNat ∧ (textState [] 1#3 3#4 1#6 1#2).mode ∉ [0b0001#4, 0b0010#4, 0b0100#4]) ∧
    (2 ≤ (textState [] 2#3 1#4 0#6 1#2).phase.toNat ∧ (textState [] 2#3 1#4 0#6 1#2).version.toNat = 0) ∧
    ((textState [0x41#8] 2#3 1#4 40#6 1#2).mode = 0b0001#4 ∧
      ∃ i < (textState [0x41#8] 2#3 1#4 40#6 1#2).textLen.toNat,
        0x39 < ((textState [0x41#8] 2#3 1#4 40#6 1#2).txt.read i).toNat) ∧
    ((textState [0x61#8] 2#3 2#4 40#6 1#2).mode = 0b0010#4 ∧
      ∃ i < (textState [0x61#8] 2#3 2#4 40#6 1#2).textLen.toNat,
        (textState [0x61#8] 2#3 2#4 40#6 1#2).txt.read i ∉ alnumAlphabet) ∧
    (2 ≤ longText.phase.toNat ∧ longText.mode = 0b0100#4 ∧ longText.version.toNat ≤ 40 ∧
      longText.textLen.toNat ≤ 8192 ∧ textInClass .byte longText.text = true ∧
      8 * dataCodewords 40 (EcLevel.ofCode longText.level) < reqBits .byte longText.textLen.toNat 40) := by
  refine ⟨by decide, by decide, ⟨by decide, 0, by decide +kernel⟩, ⟨by decide, 0, by decide +kernel⟩, by decide, by decide,
    by decide, by decide, rfl, by decide +kernel⟩

theorem hyp_BlockStructure : (1 : Nat) ≤ 1 ∧ (40 : Nat) ≤ 40 := by decide

theorem hyp_CwAssembleInterleaves : 3 ≤ (emptyText 3#3 []).phase.toNat ∧ 1 ≤ (emptyText 3#3 []).version.toNat ∧
    (emptyText 3#3 []).version.toNat ≤ 40 ∧ 40 < ({ emptyText 3#3 [] with version := 41#6 } : State).version.toNat ∧
    (2 ≤ 3 ∧ 3 < blockCount 5 .q ∧ 14 < shortLen 5 .q) := by decide

theorem hyp_MxInitBuildsPatterns : 4 ≤ (emptyText 4#3 []).phase.toNat ∧ 1 ≤ (emptyText 4#3 []).version.toNat ∧
    (emptyText 4#3 []).version.toNat ≤ 40 ∧ ({ emptyText 4#3 [] with version := 0#6 } : State).version.toNat = 0 := by decide

theorem hyp_MxInitLeavesDataCells : ∃ t, 4 ≤ (emptyText 4#3 []).phase.toNat ∧ 1 ≤ (emptyText 4#3 []).version.toNat ∧
    (emptyText 4#3 []).version.toNat ≤ 40 ∧ exec .mxInit (emptyText 4#3 []) = .next t := ⟨_, by decide, by decide, by decide, rfl⟩

theorem emptyText_inv (phase : BitVec 3) : (emptyText phase []).Inv := by
  revert phase; decide +kernel

theorem cell_emptyText {phase : BitVec 3} {g : Grid} (hg : g.Sized 21) {r c : Nat} (hr : r < 21) (hc : c < 21) :
    (emptyText phase (storeGrid [] g)).cell r c = g.get r c := by
  show cellOfByte ((storeGrid [] g).read (r * 177 + c)) = _
  rw [read_storeGrid_cell [] (by decide) hg hr hc, cellOfByte_byteOfCell]

theorem holedGrid_sized : holedGrid.Sized 21 := ⟨rfl, by decide⟩

theorem holedMatrix_cells : ((zigzag 21).filter (fun p => !((emptyText 5#3 holedMatrix).cell p.1 p.2).getLsbD 2 &&
    !((emptyText 5#3 holedMatrix).cell p.1 p.2).getLsbD 1)).length = 8 * totalCodewords 1 + remainderBits 1 := by
  have hz : ∀ p ∈ zigzag 21, p.1 < 21 ∧ p.2 < 21 := by decide +kernel
  rw [List.filter_congr (q := fun p => !(holedGrid.get p.1 p.2).getLsbD 2 && !(holedGrid.get p.1 p.2).getLsbD 1)
    (fun p hp => by rw [holedMatrix, cell_emptyText holedGrid_sized (hz p hp).1 (hz p hp).2])]
  decide +kernel

theorem hyp_MxPlacePutsBits : ((emptyText 5#3 holedMatrix).Inv ∧ (emptyText 5#3 holedMatrix).phase.toNat = 5 ∧
    ((zigzag 21).filter (fun p => !((emptyText 5#3 holedMatrix).cell p.1 p.2).getLsbD 2 &&
      !((emptyText 5#3 holedMatrix).cell p.1 p.2).getLsbD 1)).length = 8 * totalCodewords 1 + remainderBits 1) ∧
    (emptyText 5#3 []).Inv ∧ (emptyText 5#3 []).phase.toNat = 5 ∧
    ((zigzag 21).filter (fun p => !((emptyText 5#3 []).cell p.1 p.2).getLsbD 2 &&
      !((emptyText 5#3 []).cell p.1 p.2).getLsbD 1)).length ≠ 8 * totalCodewords 1 + remainderBits 1 := by
  refine ⟨⟨by decide +kernel, by decide, holedMatrix_cells⟩, emptyText_inv _, by decide, by decide +kernel⟩

theorem hyp_MkApplyInvertsDataCells : (emptyText 7#3 []).Inv ∧ (emptyText 7#3 []).phase.toNat = 7 ∧ (7#8 : Byte).toNat ≤ 7 ∧
    7 < (8#8 : Byte).toNat := ⟨emptyText_inv _, by decide, by decide, by decide⟩

theorem hyp_MkApplyTwiceRestores : ∃ t, (emptyText 6#3 []).Inv ∧ exec (.mkApply 7#8) (emptyText 6#3 []) = .next t ∧
    t.errcode = 0#8 := ⟨_, emptyText_inv _, rfl, by decide +kernel⟩

theorem darkMatrix_inv : (emptyText 6#3 darkMatrix).Inv ∧ (emptyText 7#3 darkMatrix).Inv := by decide +kernel

theorem darkGrid_sized : darkGrid.Sized 21 := ⟨rfl, by decide⟩

theorem darkMatrix_set : ∀ r c, r < 21 → c < 21 → ((emptyText 6#3 darkMatrix).cell r c).getLsbD 1 = true := by
  intro r c hr hc
  rw [darkMatrix, cell_emptyText darkGrid_sized hr hc]
  simp only [Grid.get, darkGrid, List.getD_eq_getElem?_getD, List.getElem?_replicate, hr, hc, if_true, Option.getD_some]
  rfl

theorem hyp_MkScoreWritesPenalty : ((emptyText 6#3 darkMatrix).Inv ∧ 6 ≤ (emptyText 6#3 darkMatrix).phase.toNat ∧
    ∀ r c, r < gridSide (emptyText 6#3 darkMatrix).version.toNat → c < gridSide (emptyText 6#3 darkMatrix).version.toNat →
      ((emptyText 6#3 darkMatrix).cell r c).getLsbD 1 = true) ∧
    (emptyText 6#3 []).Inv ∧ ∃ r c, r < gridSide (emptyText 6#3 []).version.toNat ∧
      c < gridSide (emptyText 6#3 []).version.toNat ∧ ((emptyText 6#3 []).cell r c).getLsbD 1 = false :=
  ⟨⟨darkMatrix_inv.1, by decide, darkMatrix_set⟩, emptyText_inv _, 20, 20, by decide +kernel⟩

theorem hyp_MxFormatWritesFormat : (emptyText 5#3 []).Inv ∧ 5 ≤ (emptyText 5#3 []).phase.toNat ∧ (7#8 : Byte).toNat ≤ 7 ∧
    7 < (8#8 : Byte).toNat ∧ formatBitAt 21 0 8 = some 0 ∧ formatBitAt 21 14 8 = some 8 ∧ formatBitAt 21 13 8 = none :=
  ⟨emptyText_inv _, by decide, by decide, by decide, by decide, by decide, by decide⟩

theorem hyp_MxVersionInfoWritesVersion : (emptyText 5#3 []).Inv ∧ 5 ≤ (emptyText 5#3 []).phase.toNat ∧
    versionBitAt 7 45 0 34 = some 0 ∧ versionBitAt 7 45 36 5 = some 17 ∧ versionBitAt 7 45 0 37 = none ∧
    versionBitAt 6 41 0 30 = none := ⟨emptyText_inv _, by decide, by decide, by decide, by decide, by decide⟩

theorem hyp_MkSelectKeepsBestMask : ((emptyText 6#3 darkMatrix).Inv ∧ (emptyText 6#3 darkMatrix).phase.toNat = 6 ∧
    ∀ r c, r < 21 → c < 21 → ((emptyText 6#3 darkMatrix).cell r c).getLsbD 1 = true ∨ (formatBitAt 21 r c).isSome = true ∨
      (versionBitAt 1 21 r c).isSome = true) ∧
    (emptyText 6#3 []).Inv ∧ ∃ r c, r < 21 ∧ c < 21 ∧ ((emptyText 6#3 []).cell r c).getLsbD 1 = false ∧
      formatBitAt 21 r c = none ∧ versionBitAt 1 21 r c = none :=
  ⟨⟨darkMatrix_inv.1, by decide, fun r c hr hc => .inl (darkMatrix_set r c hr hc)⟩, emptyText_inv _, 20, 20,
    by decide +kernel⟩

theorem darkTrials : ∀ k : BitVec 3, (trialsOf 1 .m darkGrid k).allSet = true ∧
    ((trialsOf 1 .m darkGrid k).get 10 10).getLsbD 2 = false := by decide +kernel

theorem hyp_XorLaw : ∃ t, (emptyText 6#3 darkMatrix).Inv ∧ exec .mkSelect (emptyText 6#3 darkMatrix) = .next t ∧
    t.errcode = 0#8 ∧ (t.cell 10 10).getLsbD 2 = false := by
  have hsym : (emptyText 6#3 darkMatrix).symbol = darkGrid := loadGrid_storeGrid [] (by decide) darkGrid_sized
  have hrun : runMkSelect (emptyText 6#3 darkMatrix) = .ok ((emptyText 6#3 darkMatrix).selected (trialsOf 1 .m darkGrid)
      (maskPenalties (fun k => gridPenalty 1 (trialsOf 1 .m darkGrid k)))) := by
    rw [runMkSelect, if_neg (by decide), hsym]
    exact if_pos (List.all_eq_true.2 fun k _ => (darkTrials k).1)
  refine ⟨_, darkMatrix_inv.1, exec_ok (i := .mkSelect) hrun, State.succeed_errcode _, ?_⟩
  generalize maskPenalties (fun k => gridPenalty 1 (trialsOf 1 .m darkGrid k)) = pens
  rw [State.cell, State.succeed_mxm, State.selected_mxm]
  generalize winner pens = k
  have hk : (trialsOf 1 .m darkGrid k).Sized 21 :=
    sized_writeBits _ _ (Grid.sized_mapCells (sized_writeBits _ _ darkGrid_sized) _)
  rw [read_storeGrid_cell _ (by decide) hk (by decide) (by decide), cellOfByte_byteOfCell]
  exact (darkTrials k).2

/-- Square matrices of the least and the greatest side, and states MK_SCORE and MK_SELECT succeed in. -/
theorem hyp_PenaltyBounds : ((11 : Nat) ≤ 11 ∧ (List.replicate 11 (List.replicate 11 true)).length = 11 ∧
      ∀ row ∈ List.replicate 11 (List.replicate 11 true), row.length = 11) ∧
    ((177 : Nat) ≤ 177 ∧ (List.replicate 177 (List.replicate 177 true)).length = 177 ∧
      ∀ row ∈ List.replicate 177 (List.replicate 177 true), row.length = 177) ∧
    ((emptyText 6#3 darkMatrix).Inv ∧ 6 ≤ (emptyText 6#3 darkMatrix).phase.toNat ∧
      ∀ r c, r < gridSide (emptyText 6#3 darkMatrix).version.toNat → c < gridSide (emptyText 6#3 darkMatrix).version.toNat →
        ((emptyText 6#3 darkMatrix).cell r c).getLsbD 1 = true) ∧
    ∃ t, (emptyText 6#3 darkMatrix).Inv ∧ exec .mkSelect (emptyText 6#3 darkMatrix) = .next t ∧ t.errcode = 0#8 := by
  obtain ⟨t, hi, ht, he, -⟩ := hyp_XorLaw
  refine ⟨⟨by decide, List.length_replicate, ?_⟩, ⟨by decide, List.length_replicate, ?_⟩, hyp_MkScoreWritesPenalty.1,
    t, hi, ht, he⟩ <;> (intro row hrow; rw [List.eq_of_mem_replicate hrow, List.length_replicate])

theorem hyp_RenderPaintsModules : ((emptyText 7#3 darkMatrix).Inv ∧ (emptyText 7#3 darkMatrix).phase.toNat = 7 ∧
    (∀ r c, r < 21 → c < 21 → ((emptyText 7#3 darkMatrix).cell r c).getLsbD 1 = true) ∧
    max 210 (max 1 (210 / (21 + 2 * 4)) * (21 + 2 * 4)) ^ 2 ≤ (emptyText 7#3 darkMatrix).pixMax ∧
    (emptyText 7#3 darkMatrix).pixMax < max 1025 (max 1 (1025 / (21 + 2 * 4)) * (21 + 2 * 4)) ^ 2 ∧
    (3 + (4 + 0) * 7 ≤ 37 ∧ 37 < 3 + (4 + 0 + 1) * 7)) ∧
    (emptyText 7#3 []).Inv ∧ ∃ r c, r < 21 ∧ c < 21 ∧ ((emptyText 7#3 []).cell r c).getLsbD 1 = false :=
  ⟨⟨darkMatrix_inv.2, by decide, darkMatrix_set, by decide, by decide, by decide⟩, emptyText_inv _, 20, 20, by decide +kernel⟩

theorem hyp_EncodeIsTheChain : (State.execSeq encodeChain { State.reset with textLen := 8193#14 }).errcode ≠ 0#8 ∧
    (State.execSeq encodeChain State.reset).errcode = 0#8 := by decide +kernel

theorem hyp_EncodeCompletes : State.reset.textLen.toNat ≤ 8192 ∧ reqBits (modeOf State.reset.text) 0 1 ≤ 8 * dataCodewords 1 .m ∧
    (∀ u, 1 ≤ u → u < 1 → 8 * dataCodewords u .m < reqBits (modeOf State.reset.text) 0 u) ∧
    (longText.textLen.toNat ≤ 8192 ∧ ∀ v, 1 ≤ v → v ≤ 40 →
      8 * dataCodewords v (EcLevel.ofCode longText.level) < reqBits (modeOf longText.text) longText.textLen.toNat v) ∧
    8192 < ({ State.reset with textLen := 8193#14 } : State).textLen.toNat := by
  refine ⟨by decide, by decide +kernel, by omega, ⟨by decide, ?_⟩, by decide⟩
  have hm : modeOf longText.text = .byte := by decide +kernel
  rw [hm]
  exact hyp_DeVersionSelectsSmallest.2.2.2.2.2.2.2

/-- One access for each clause: below 0x100 and beyond it, the last byte of TXT and of MXM, and the words there. -/
theorem hyp_BusErrors :
    (¬(0x000100 : Nat) < 0x100 ∧ ¬inMemoryRegion 1048576 0x000100) ∧ (¬(0x037A61 : Nat) < 0x100 ∧ ¬inMemoryRegion 1048576 0x037A61) ∧
    ((0xFC : Nat) < 0x100 ∧ ¬(Width.byte = .word ∧ 0xFC % 4 = 0)) ∧ inMemoryRegion 1048576 0x011FFF ∧
    (inMemoryRegion 1048576 0x020001 ∧ 0x020001 % 4 ≠ 0) ∧
    (inMemoryRegion 1048576 0x037A60 ∧ 0x037A60 % 4 = 0 ∧ ¬inMemoryRegion 1048576 (0x037A60 + 3)) ∧
    (inMemoryRegion 1048576 0x7FFFFC ∧ inMemoryRegion 1048576 (0x7FFFFC + 3)) ∧
    (hosting (.read .byte 0x011FFF#24)).turns = .host (.read .byte 0x011FFF#24) :: [] := by
  unfold inMemoryRegion
  exact ⟨by decide, by decide, by decide, by decide, by decide, by decide, by decide, rfl⟩

theorem hyp_HostReads : (hosting (.read .word 0x000098#24)).turns = .host (.read .word 0x000098#24) :: [] ∧
    (0x000098#24 : BusAddr).toNat = Reg.pixOffset.offset ∧ (0x000008#24 : BusAddr).toNat = 0x08 ∧
    (0x9C ≤ (0x00009C#24 : BusAddr).toNat ∧ (0x0000FC#24 : BusAddr).toNat ≤ 0xFC ∧ (0x0000FC#24 : BusAddr).toNat % 4 = 0) ∧
    ((0x037A60#24 : BusAddr).toNat = Space.mxm.base + 31328 ∧ 31328 < Space.mxm.size 31329) ∧
    ((0x021FFC#24 : BusAddr).toNat = Space.cwm.base + 8188 ∧ 8188 + 3 < Space.cwm.size 31329 ∧ 8188 % 4 = 0) ∧
    ∃ t, step (hosting (.read .word 0x000098#24)) = .next t := ⟨rfl, by decide, by decide, by decide, by decide, by decide, _, rfl⟩

theorem hyp_BusyDropsWrites :
    (busyHosting (.write .word 0x000098#24 1#32)).status.busy = true ∧
    (busyHosting (.write .word 0x000098#24 1#32)).turns = .host (.write .word 0x000098#24 1#32) :: [] ∧
    ((0x000098#24 : BusAddr).toNat < 0x9C ∧ (0x000098#24 : BusAddr).toNat % 4 = 0 ∧ (0x000098#24 : BusAddr).toNat ≠ 4 ∧
      (0x000098#24 : BusAddr).toNat ≠ 8) ∧
    inMemoryRegion 1048576 (0x010000#24 : BusAddr).toNat ∧
    (inMemoryRegion 1048576 (0x037A5C#24 : BusAddr).toNat ∧ inMemoryRegion 1048576 ((0x037A5C#24 : BusAddr).toNat + 3)) ∧
    (0x9C ≤ (0x00009C#24 : BusAddr).toNat ∧ (0x00009C#24 : BusAddr).toNat ≤ 0xFC) := by
  unfold inMemoryRegion; decide

theorem hyp_CommandAcceptance : (hosting (.write .word 0x000010#24 0x70#32)).status.busy = false ∧
    (hosting (.write .word 0x000010#24 0x70#32)).turns = .host (.write .word 0x000010#24 0x70#32) :: [] := by decide

theorem hyp_HostWritesMovePhase :
    (hosting (.write .byte 0x011FFF#24 5#32)).status.busy = false ∧
    (∃ t, step (hosting (.write .byte 0x011FFF#24 5#32)) = .next t ∧ t.reply = .written) ∧
    (∃ t, step (hosting (.write .word 0x00001C#24 5#32)) = .next t ∧ t.reply = .written) ∧
    (∃ t, step (hosting (.write .word 0x000020#24 5#32)) = .next t ∧ t.reply = .written) ∧
    (∃ t, step (hosting (.write .word 0x000018#24 5#32)) = .next t ∧ t.reply = .written) ∧
    (∃ t, step (hosting (.write .word 0x000024#24 5#32)) = .next t ∧ t.reply = .written) ∧
    (∃ t, step (hosting (.write .word 0x00002C#24 5#32)) = .next t ∧ t.reply = .written) ∧
    ∃ t, step (hosting (.write .byte 0x00001C#24 5#32)) = .next t ∧ t.reply ≠ .written :=
  ⟨rfl, ⟨_, rfl, rfl⟩, ⟨_, rfl, rfl⟩, ⟨_, rfl, rfl⟩, ⟨_, rfl, rfl⟩, ⟨_, rfl, rfl⟩, ⟨_, rfl, rfl⟩, _, rfl, by decide⟩

theorem hyp_HostWritesRegisters : (hosting (.write .word Reg.light.addr 5#32)).status.busy = false ∧
    storedBits .light = some 0xFFFFFFFF#32 ∧
    (hosting (.write .word Reg.light.addr 5#32)).turns = .host (.write .word Reg.light.addr 5#32) :: [] ∧
    readOnlyReg (.score 7) = true ∧ 0x9C ≤ (0x0000FC#24 : BusAddr).toNat ∧ (0x0000FC#24 : BusAddr).toNat ≤ 0xFC := by decide

theorem hyp_HostWritesMemories : (hosting (.write .byte 0x037A60#24 5#32)).status.busy = false ∧
    (hosting (.write .byte 0x037A60#24 5#32)).turns = .host (.write .byte 0x037A60#24 5#32) :: [] ∧
    (0x037A60#24 : BusAddr).toNat = Space.mxm.base + 31328 ∧ 31328 < Space.mxm.size 1048576 ∧
    ((0x011FFC#24 : BusAddr).toNat = Space.txt.base + 8188 ∧ 8188 % 4 = 0 ∧ 8188 + 3 < Space.txt.size 1048576) := by decide

theorem hyp_SoftResetAndStatusWrites :
    ((busyHosting (.write .word 0x000004#24 1#32)).turns = .host (.write .word 0x000004#24 1#32) :: [] ∧
      (1#32 : Word).getLsbD 0 = true) ∧ (2#32 : Word).getLsbD 0 = false ∧
    (busyHosting (.write .word 0x000008#24 8#32)).turns = .host (.write .word 0x000008#24 8#32) :: [] := by decide

theorem hyp_ResetMeetsInvariant : (State.powerOn [(0, 65#8)] [] [(31328, 7#8)] [] 31329 []).memoriesOk = true := by decide

theorem hyp_StepKeepsInvariant : ∃ t, (pending 0x30#32 []).Inv ∧ step (pending 0x30#32 []) = .next t := ⟨_, by decide, rfl⟩

theorem hyp_BusyProtocol :
    (∃ t, step (hosting (.write .word 0x000010#24 0x70#32)) = .next t ∧ t.status.busy = true) ∧
    (∃ t, step (busyHosting (.read .word 0x000010#24)) = .next t ∧ t.status.busy = true) ∧
    (∃ t, step (pending 0#32 []) = .next t ∧ t.status.busy = false) ∧
    ∃ t, step (busyHosting (.write .word 0x000004#24 1#32)) = .next t ∧ t.status.busy = false :=
  ⟨⟨_, rfl, by decide⟩, ⟨_, rfl, by decide⟩, ⟨_, rfl, by decide⟩, _, rfl, by decide⟩

/-- 20_memory.md R101, 70_reset_and_hazards.md R583: a bus error while a command is pending, then the engine's step. -/
theorem test_busError_then_engine :
    Sys2Proof.core.run 2 (pending 0#32 [.host (.read .word 0xFFFFFC#24)]) =
      .next { State.reset with status := ⟨false, true, false, false⟩, reply := .busError .unmapped } := rfl

/-- The clauses' premises, with a CTRL write that is no soft reset among the turns, and with none but a bus error. -/
theorem hyp_PendingCommandCompletes : ∀ ts ∈ [[.host (.read .half 0x010000#24), .engine],
      [Turn.host (.write .word 0x000004#24 2#32)]], (pending 0x70#32 ts).status.busy = true ∧
    ∀ v : Word, .host (.write .word 0x000004#24 v) ∈ (pending 0x70#32 ts).turns → v.getLsbD 0 = false := by
  simp [pending, State.accept, Status.accepted]

end Sys2Proof.Tests
end

/-! The bounds of the penalties (46_mask.md R425) and the mask MK_SELECT keeps (R440). -/

namespace Sys2Proof.Machine

/-! ### The bounds of the penalties (46_mask.md R425) -/

/-- A sum of terms that are each at most `b`. -/
theorem sum_map_le {α : Type} {f : α → Nat} {l : List α} {b : Nat} (h : ∀ x ∈ l, f x ≤ b) :
    (l.map f).sum ≤ l.length * b := by
  have := List.sum_le_card_nsmul (l.map f) b (by simpa using h)
  simpa using this

theorem runScore_le (n : Nat) : runScore n ≤ n - 2 := by
  unfold runScore; split <;> omega

theorem runsFrom_le (cur : Bool) (n : Nat) (line : List Bool) : runsFrom cur n line ≤ n + line.length - 2 := by
  induction line generalizing cur n with
  | nil => exact runScore_le n
  | cons b t ih =>
    have hsame := ih cur (n + 1)
    have hother := ih b 1
    have hrun := runScore_le n
    rw [runsFrom, List.length_cons]
    split <;> omega

/-- N1 of a line (46_mask.md R425): one run over the whole line scores most. -/
theorem lineRuns_le (line : List Bool) : lineRuns line ≤ line.length - 2 := by
  cases line with
  | nil => exact Nat.zero_le _
  | cons b t =>
    have := runsFrom_le b 1 t
    rw [lineRuns, List.length_cons]
    omega

/-- N3 of a line (46_mask.md R425): a window of 11 equals at most one of the two patterns. -/
theorem lineFinderLike_le (line : List Bool) : lineFinderLike line ≤ 40 * (line.length - 10) := by
  induction line with
  | nil => exact Nat.zero_le _
  | cons b t ih =>
    have hlen : ∀ {p : List Bool}, p.length = 11 → (b :: t).take 11 = p → 11 ≤ t.length + 1 := by
      intro p hp hw
      have := congrArg List.length hw
      rw [List.length_take, List.length_cons, hp] at this
      omega
    rw [lineFinderLike, List.length_cons]
    by_cases hA : (b :: t).take 11 = finderLikeA
    · have hB : (b :: t).take 11 ≠ finderLikeB := by rw [hA]; decide
      have := hlen rfl hA
      rw [if_pos hA, if_neg hB]
      omega
    · rw [if_neg hA]
      by_cases hB : (b :: t).take 11 = finderLikeB
      · have := hlen rfl hB
        rw [if_pos hB]
        omega
      · rw [if_neg hB]
        omega

theorem rowPairBlocks_le (r1 r2 : List Bool) : rowPairBlocks r1 r2 ≤ 3 * (r1.length - 1) := by
  induction r1, r2 using rowPairBlocks.induct with
  | case1 a b t c d u ih =>
    rw [rowPairBlocks]
    simp only [List.length_cons] at ih ⊢
    split <;> omega
  | case2 r1 r2 h => rw [rowPairBlocks]; exacts [Nat.zero_le _, h]

/-- N2 (46_mask.md R425): every 2 × 2 block of one colour. -/
theorem blockScore_le {n : Nat} {rows : List (List Bool)} (h : ∀ row ∈ rows, row.length = n) :
    blockScore rows ≤ 3 * (n - 1) * (rows.length - 1) := by
  induction rows using blockScore.induct with
  | case1 r1 r2 t ih =>
    have hrest := ih fun row hrow => h row (List.mem_cons_of_mem _ hrow)
    have hpair := rowPairBlocks_le r1 r2
    rw [h r1 (by simp)] at hpair
    rw [blockScore]
    simp only [List.length_cons, Nat.add_sub_cancel] at hrest ⊢
    calc rowPairBlocks r1 r2 + blockScore (r2 :: t) ≤ 3 * (n - 1) + 3 * (n - 1) * t.length := by omega
      _ = 3 * (n - 1) * (t.length + 1) := by ring
  | case2 rows h' => rw [blockScore]; exacts [Nat.zero_le _, h']

/-- N4 (46_mask.md R425). -/
theorem darkScore_le {dark t : Nat} (h : dark ≤ t) : darkScore dark t ≤ 100 := by
  have hdiff : absDiff (20 * dark) (10 * t) ≤ 10 * t := by unfold absDiff; omega
  have : absDiff (20 * dark) (10 * t) / t ≤ 10 := Nat.div_le_of_le_mul (by omega)
  unfold darkScore
  omega

/-- The total of penalties within their bounds does not reach 2,520,000 up to the greatest side (46_mask.md R425). -/
theorem penaltiesWithin_of_parts {n : Nat} {p : Penalty} (hn : n ≤ 177) (h1 : p.n1 ≤ 2 * n * (n - 2))
    (h2 : p.n2 ≤ 3 * (n - 1) ^ 2) (h3 : p.n3 ≤ 40 * (2 * n * (n - 10))) (h4 : p.n4 ≤ 100) : penaltiesWithin n p := by
  refine ⟨h1, h2, h3, h4, ?_⟩
  have b1 : 2 * n * (n - 2) ≤ 2 * 177 * 175 := Nat.mul_le_mul (by omega) (by omega)
  have b2 : (n - 1) ^ 2 ≤ 176 ^ 2 := Nat.pow_le_pow_left (by omega) 2
  have b3 : 2 * n * (n - 10) ≤ 2 * 177 * 167 := Nat.mul_le_mul (by omega) (by omega)
  unfold Penalty.total
  omega

/-- The machine's penalty of a square grid of colours is within the bounds (46_mask.md R425). -/
theorem penaltyOf_within {n : Nat} {rows : List (List Bool)} (hn : n ≤ 177) (hlen : rows.length = n)
    (hrows : ∀ row ∈ rows, row.length = n) : penaltiesWithin n (penaltyOf n rows) := by
  have hlines : (rows ++ columnLines n rows).length = 2 * n := by simp [columnLines, hlen]; omega
  have hline : ∀ line ∈ rows ++ columnLines n rows, line.length = n := by
    intro line hl
    rcases List.mem_append.1 hl with hl | hl
    · exact hrows line hl
    · obtain ⟨c, -, rfl⟩ := List.mem_map.1 hl
      rw [List.length_map, hlen]
  refine penaltiesWithin_of_parts hn ?_ ?_ ?_ (darkScore_le ?_)
  · have := sum_map_le (f := lineRuns) (b := n - 2) fun line hl => hline line hl ▸ lineRuns_le line
    rwa [hlines] at this
  · have := blockScore_le hrows
    rw [hlen] at this
    calc blockScore rows ≤ 3 * (n - 1) * (n - 1) := this
      _ = 3 * (n - 1) ^ 2 := by ring
  · have := sum_map_le (f := lineFinderLike) (b := 40 * (n - 10)) fun line hl => hline line hl ▸ lineFinderLike_le line
    rw [hlines] at this
    calc _ ≤ 2 * n * (40 * (n - 10)) := this
      _ = 40 * (2 * n * (n - 10)) := by ring
  · have := sum_map_le (f := List.count true) (l := rows) fun row hrow => hrows row hrow ▸ List.count_le_length
    rwa [hlen] at this

theorem gridSide_le {v : Nat} (h : legalVersion v = true) : gridSide v ≤ 177 := by
  rw [legalVersion_iff] at h
  unfold gridSide
  omega

/-- The penalty of a symbol's grid is within the bounds for every legal version. -/
theorem gridPenalty_within {v : Nat} {g : Grid} (h : legalVersion v = true) (hg : g.Sized (gridSide v)) :
    penaltiesWithin (gridSide v) (gridPenalty v g) := by
  refine penaltyOf_within (gridSide_le h) (by simp [Grid.colours, hg.1]) fun row hrow => ?_
  obtain ⟨cells, hcells, rfl⟩ := List.mem_map.1 hrow
  rw [List.length_map, hg.2 cells hcells]

/-! ### The lowest index of the least score (46_mask.md R440) -/

/-- Among the indices `seen`, `best` is the lowest of those with the least score. -/
def LowestLeast (score : BitVec 3 → Nat) (seen : List (BitVec 3)) (best : BitVec 3) : Prop :=
  ∀ j ∈ seen, score best ≤ score j ∧ (j < best → score best < score j)

/-- One more index, above those seen, replaces the best only with a lower score. -/
theorem LowestLeast.append {score : BitVec 3 → Nat} {seen : List (BitVec 3)} {best k : BitVec 3}
    (h : LowestLeast score seen best) (hk : ∀ j ∈ seen, j < k) (hbest : best ∈ seen) :
    LowestLeast score (seen ++ [k]) (if score k < score best then k else best) := by
  intro j hj
  rw [List.mem_append, List.mem_singleton] at hj
  split
  · next hlt =>
    rcases hj with hj | rfl
    · have := (h j hj).1
      exact ⟨by omega, fun _ => by omega⟩
    · exact ⟨Nat.le_refl _, fun hjj => absurd hjj (BitVec.lt_irrefl _)⟩
  · next hge =>
    rcases hj with hj | rfl
    · exact h j hj
    · exact ⟨by omega, fun hjb => absurd (hk best hbest) (BitVec.not_lt.2 (BitVec.le_of_lt hjb))⟩

theorem LowestLeast.foldl {score : BitVec 3 → Nat} (ks : List (BitVec 3)) {seen : List (BitVec 3)} {best : BitVec 3}
    (h : LowestLeast score seen best) (hbest : best ∈ seen) (hk : (seen ++ ks).Pairwise (· < ·)) :
    LowestLeast score (seen ++ ks) (ks.foldl (fun best k => if score k < score best then k else best) best) := by
  induction ks generalizing seen best with
  | nil => simpa using h
  | cons k ks ih =>
    have hbelow : ∀ j ∈ seen, j < k := fun j hj => (List.pairwise_append.1 hk).2.2 j hj k (by simp)
    rw [List.append_cons] at hk ⊢
    refine ih (h.append hbelow hbest) ?_ hk
    dsimp only
    split <;> simp [hbest]

/-- The mask MK_SELECT keeps is the lowest index of the least score (46_mask.md R440). -/
theorem bestMask_lowestLeast (score : BitVec 3 → Nat) : LowestLeast score maskIndices (bestMask score) := by
  have h0 : LowestLeast score [0#3] 0#3 := by
    intro j hj
    rw [List.mem_singleton] at hj
    subst hj
    exact ⟨Nat.le_refl _, fun h => absurd h (BitVec.lt_irrefl _)⟩
  have := h0.foldl [1#3, 2#3, 3#3, 4#3, 5#3, 6#3, 7#3] (by simp) (by decide)
  simpa [bestMask, maskIndices] using this

theorem mem_maskIndices (k : BitVec 3) : k ∈ maskIndices := by revert k; decide

theorem winner_le (pens : Vector Penalty 8) (k : BitVec 3) :
    (penaltyAt pens (winner pens)).total ≤ (penaltyAt pens k).total :=
  (bestMask_lowestLeast (fun k => (penaltyAt pens k).total) k (mem_maskIndices k)).1

theorem winner_lt {pens : Vector Penalty 8} {k : BitVec 3} (h : k < winner pens) :
    (penaltyAt pens (winner pens)).total < (penaltyAt pens k).total :=
  (bestMask_lowestLeast (fun k => (penaltyAt pens k).total) k (mem_maskIndices k)).2 h

theorem penaltyAt_maskPenalties (f : BitVec 3 → Penalty) (k : BitVec 3) : penaltyAt (maskPenalties f) k = f k := by
  obtain ⟨⟨i, hi⟩⟩ := k
  interval_cases i <;> rfl

end Sys2Proof.Machine

/-! The invariant as named facts, and that every command's rule keeps them. -/

namespace Sys2Proof.Machine

/-! ### The memories -/

/-- A memory in canonical form that lists nothing from address `n` on. -/
structure Memory.Fits (m : Memory) (n : Nat) : Prop where
  wf : m.wf = true
  below : m.below n = true

theorem Memory.Fits.write {m : Memory} {n a : Nat} {bs : List Byte} (h : m.Fits n) (hb : a + bs.length ≤ n) :
    (m.write a bs).Fits n := ⟨Memory.wf_write h.wf a bs, Memory.below_write h.below hb⟩

/-- A memory that can be MXM: canonical, within its size, three bits a byte (10_state.md R70). -/
structure Memory.HoldsCells (m : Memory) : Prop extends m.Fits Config.mxmSize where
  small : ∀ c ∈ m, c.2.toNat < 8

theorem holdsCells_clearedMxm : clearedMxm.HoldsCells := ⟨⟨rfl, rfl⟩, by simp [clearedMxm]⟩

theorem Memory.HoldsCells.storeGrid {m : Memory} {n : Nat} {g : Grid} (h : m.HoldsCells) (hn : n ≤ 177)
    (hg : g.Sized n) : (storeGrid m g).HoldsCells :=
  ⟨⟨wf_storeGrid h.wf g, below_storeGrid hn h.below hg⟩, small_storeGrid h.small g⟩

/-- The host's writes keep bits [2:0] only (20_memory.md R111). -/
theorem Memory.HoldsCells.hostWrite {m : Memory} {a : Nat} {bs : List Byte} (h : m.HoldsCells)
    (hb : a + bs.length ≤ Config.mxmSize) : (m.write a (bs.map (Space.keep .mxm))).HoldsCells := by
  refine ⟨h.toFits.write (by simpa using hb), Memory.forall_write (P := fun b => b.toNat < 8) h.small fun b hb => ?_⟩
  obtain ⟨x, -, rfl⟩ := List.mem_map.1 hb
  have : (x &&& 0b111#8).toNat ≤ 7 := Nat.and_le_right
  exact Nat.lt_succ_of_le this

/-! ### The invariant -/

/-- What MODE, VERSION, LEVEL and the text satisfy from PACKED on, with DATA_CW and BITLEN theirs (10_state.md R45). -/
def State.PackedAs (s : State) (m : Mode) : Prop :=
  Mode.ofCode s.mode = some m ∧ legalVersion s.versionNat = true ∧ legalTextLen s.textBytes = true ∧
    textInClass m s.text = true ∧ fits m s.textBytes s.versionNat s.ecLevel = true ∧
    s.dataCw.toNat = dataCodewords s.versionNat s.ecLevel ∧ s.bitLen.toNat = reqBits m s.textBytes s.versionNat

/-- The invariant but for the flags, by named facts: what a command's rule keeps before its completion. -/
structure State.DataInv (s : State) : Prop where
  txt : s.txt.Fits Config.txtSize
  cwm : s.cwm.Fits Config.cwmSize
  mxm : s.mxm.HoldsCells
  pix : s.pix.Fits (4 * s.pixMax)
  pixMax_ge : Config.pixMaxLeast ≤ s.pixMax
  pixMax_le : s.pixMax ≤ Config.pixMaxGreatest
  packed : 3 ≤ s.phaseNat → ∃ m, s.PackedAs m
  assembled : 4 ≤ s.phaseNat → s.totalCw.toNat = totalCodewords s.versionNat
  patterned : 5 ≤ s.phaseNat → s.mxSize.toNat = gridSide s.versionNat
  dataCw_le : s.dataCw.toNat ≤ 2956
  totalCw_le : s.totalCw.toNat ≤ 3706
  bitLen_le : s.bitLen.toNat ≤ 8 * 2956
  mxSize : s.mxSize.toNat = 0 ∨ 21 ≤ s.mxSize.toNat ∧ s.mxSize.toNat ≤ 177 ∧ s.mxSize.toNat % 4 = 1
  pixSide : s.pixSide.toNat * s.pixSide.toNat ≤ s.pixMax
  penalty : s.penalty.toNat = s.penN1.toNat + s.penN2.toNat + s.penN3.toNat + s.penN4.toNat
  penalty_lt : s.penalty.toNat < 2520000
  selection : ∀ k : Fin 8, s.scores[s.mask.toFin] ≤ s.scores[k] ∧
    (k < s.mask.toFin → s.scores[s.mask.toFin] < s.scores[k])

theorem State.memoriesOk_iff {s : State} : s.memoriesOk = true ↔
    s.txt.Fits Config.txtSize ∧ s.cwm.Fits Config.cwmSize ∧ s.mxm.HoldsCells ∧ s.pix.Fits (4 * s.pixMax) ∧
      Config.pixMaxLeast ≤ s.pixMax ∧ s.pixMax ≤ Config.pixMaxGreatest := by
  simp only [State.memoriesOk, Bool.and_eq_true, decide_eq_true_eq, List.all_eq_true]
  constructor
  · rintro ⟨⟨⟨⟨⟨⟨⟨⟨⟨⟨h1, h2⟩, h3⟩, h4⟩, h5⟩, h6⟩, h7⟩, h8⟩, h9⟩, h10⟩, h11⟩
    exact ⟨⟨h1, h2⟩, ⟨h3, h4⟩, ⟨⟨h5, h6⟩, h7⟩, ⟨h8, h9⟩, h10, h11⟩
  · rintro ⟨⟨h1, h2⟩, ⟨h3, h4⟩, ⟨⟨h5, h6⟩, h7⟩, ⟨h8, h9⟩, h10, h11⟩
    exact ⟨⟨⟨⟨⟨⟨⟨⟨⟨⟨h1, h2⟩, h3⟩, h4⟩, h5⟩, h6⟩, h7⟩, h8⟩, h9⟩, h10⟩, h11⟩

theorem State.pipelineOk_iff {s : State} : s.pipelineOk = true ↔
    (3 ≤ s.phaseNat → ∃ m, s.PackedAs m) ∧ (4 ≤ s.phaseNat → s.totalCw.toNat = totalCodewords s.versionNat) ∧
      (5 ≤ s.phaseNat → s.mxSize.toNat = gridSide s.versionNat) := by
  have himp : ∀ {k : Nat} {b : Bool}, (decide (s.phaseNat < k) || b) = true ↔ (k ≤ s.phaseNat → b = true) := by
    intro k b
    by_cases h : s.phaseNat < k <;> simp [h, Nat.not_le.2, Nat.not_lt.1]
  rw [State.pipelineOk, Bool.and_eq_true, Bool.and_eq_true, himp, himp, himp, and_assoc, beq_iff_eq, beq_iff_eq]
  refine and_congr_left fun _ => imp_congr_right fun _ => ?_
  cases hm : Mode.ofCode s.mode with
  | none => simp [State.PackedAs, hm]
  | some m => simp only [State.PackedAs, hm, Bool.and_eq_true, beq_iff_eq, Option.some.injEq, exists_eq_left', and_assoc]

theorem State.sizesOk_iff {s : State} : s.sizesOk = true ↔
    s.dataCw.toNat ≤ 2956 ∧ s.totalCw.toNat ≤ 3706 ∧ s.bitLen.toNat ≤ 8 * 2956 ∧
      (s.mxSize.toNat = 0 ∨ 21 ≤ s.mxSize.toNat ∧ s.mxSize.toNat ≤ 177 ∧ s.mxSize.toNat % 4 = 1) ∧
      s.pixSide.toNat * s.pixSide.toNat ≤ s.pixMax := by
  simp only [State.sizesOk, Bool.and_eq_true, Bool.or_eq_true, decide_eq_true_eq, beq_iff_eq, and_assoc]

theorem State.penaltyOk_iff {s : State} : s.penaltyOk = true ↔
    s.penalty.toNat = s.penN1.toNat + s.penN2.toNat + s.penN3.toNat + s.penN4.toNat ∧ s.penalty.toNat < 2520000 := by
  simp only [State.penaltyOk, Bool.and_eq_true, beq_iff_eq, decide_eq_true_eq]

theorem State.selectionOk_iff {s : State} : s.selectionOk = true ↔
    ∀ k : Fin 8, s.scores[s.mask.toFin] ≤ s.scores[k] ∧
      (k < s.mask.toFin → s.scores[s.mask.toFin] < s.scores[k]) := by
  simp only [State.selectionOk, List.all_eq_true, List.mem_finRange, forall_const, Bool.and_eq_true, decide_eq_true_eq,
    Bool.or_eq_true, Bool.not_eq_true', decide_eq_false_iff_not, imp_iff_not_or]

/-- The invariant is its named facts and the flags' agreement. -/
theorem State.inv_iff {s : State} : s.Inv ↔ s.DataInv ∧ s.flagsOk = true := by
  rw [State.Inv, State.memoriesOk_iff, State.pipelineOk_iff, State.sizesOk_iff, State.penaltyOk_iff, State.selectionOk_iff]
  constructor
  · rintro ⟨⟨h1, h2, h3, h4, h5, h6⟩, hf, ⟨h7, h8, h9⟩, ⟨h10, h11, h12, h13, h14⟩, ⟨h15, h16⟩, h17⟩
    exact ⟨⟨h1, h2, h3, h4, h5, h6, h7, h8, h9, h10, h11, h12, h13, h14, h15, h16, h17⟩, hf⟩
  · rintro ⟨h, hf⟩
    exact ⟨⟨h.txt, h.cwm, h.mxm, h.pix, h.pixMax_ge, h.pixMax_le⟩, hf, ⟨h.packed, h.assembled, h.patterned⟩,
      ⟨h.dataCw_le, h.totalCw_le, h.bitLen_le, h.mxSize, h.pixSide⟩, ⟨h.penalty, h.penalty_lt⟩, h.selection⟩

/-- From PACKED on, VERSION is legal. -/
theorem State.DataInv.legal {s : State} (hs : s.DataInv) (h : 3 ≤ s.phaseNat) : legalVersion s.versionNat = true := by
  obtain ⟨m, -, hv, -⟩ := hs.packed h
  exact hv

theorem State.DataInv.mxSize_le {s : State} (hs : s.DataInv) : s.mxSize.toNat ≤ 177 := by
  have := hs.mxSize
  omega

/-! ### What the rules write -/

theorem sized_symbol (s : State) : s.symbol.Sized (gridSide s.versionNat) := sized_loadGrid _ _

theorem sized_applyMask {g : Grid} {n : Nat} (h : g.Sized n) (k : BitVec 3) : (applyMask k g).Sized n :=
  Grid.sized_mapCells h _

theorem sized_trialsOf {v n : Nat} {g : Grid} (h : g.Sized n) (lev : EcLevel) (k : BitVec 3) :
    (trialsOf v lev g k).Sized n :=
  sized_writeBits _ _ (sized_applyMask (sized_writeBits _ _ h) k)

theorem sized_placeBits {n : Nat} (cells : List (Nat × Nat)) (bits : List Bool) {g : Grid} (h : g.Sized n) :
    (placeBits g cells bits).Sized n := by
  unfold placeBits
  generalize cells.zip bits = l
  induction l generalizing g with
  | nil => exact h
  | cons x xs ih => exact ih (Grid.sized_put h _ _ _)

theorem place_ok {v n : Nat} {c : List Byte} {g g' : Grid} (h : place v n c g = .ok g') :
    g' = placeBits g (dataEmptyCells g n) (placementStream v c) := by
  unfold place at h
  dsimp only at h
  split at h
  · exact (Except.ok.inj h).symm
  · cases h

/-- A command that writes grids of the symbol's side over MXM keeps the rest of the invariant. -/
theorem State.DataInv.withSymbol {s : State} (hs : s.DataInv) (h : 3 ≤ s.phaseNat) {g : Grid}
    (hg : g.Sized (gridSide s.versionNat)) : ({ s with mxm := storeGrid s.mxm g } : State).DataInv :=
  { hs with mxm := hs.mxm.storeGrid (gridSide_le (hs.legal h)) hg }

/-- A penalty below the bound is written with no wrap (10_state.md R51). -/
theorem State.DataInv.setPenalty {s : State} (hs : s.DataInv) {p : Penalty} (hp : p.total < 2520000) :
    (s.setPenalty p).DataInv := by
  have hsum : p.total = p.n1 + p.n2 + p.n3 + p.n4 := rfl
  refine { hs with penalty := ?_, penalty_lt := ?_ } <;>
    simp only [State.setPenalty_penalty, State.setPenalty_penN1, State.setPenalty_penN2, State.setPenalty_penN3,
      State.setPenalty_penN4, BitVec.toNat_ofNat] <;> omega

/-- Below PACKED the pipeline's registers and the text are free: whatever moves PHASE there keeps the invariant
(10_state.md R46). -/
theorem State.DataInv.restart {s : State} (hs : s.DataInv) {txt : Memory} (htxt : txt.Fits Config.txtSize)
    {phase : BitVec 3} (hphase : phase.toNat < 3) (level : BitVec 2) (textLen : BitVec 14) (mode : BitVec 4)
    (version : BitVec 6) :
    ({ s with txt := txt, phase := phase, level := level, textLen := textLen, mode := mode, version := version } :
      State).DataInv :=
  have hlow : ∀ {k : Nat}, 3 ≤ k → ¬k ≤ phase.toNat := fun hk hle => by omega
  { hs with
    txt := htxt
    packed := fun h => absurd h (hlow (by decide))
    assembled := fun h => absurd h (hlow (by decide))
    patterned := fun h => absurd h (hlow (by decide)) }

/-! ### The rules one by one -/

theorem withResult_dataInv {s t : State} {r : Except ErrorCode Byte} (hs : s.DataInv) (h : s.withResult r = .ok t) :
    t.DataInv := by
  obtain ⟨b, -, rfl⟩ := withResult_ok.1 h
  exact { hs with }

theorem runRsGen_dataInv {n : Byte} {s t : State} (hs : s.DataInv) (h : runRsGen n s = .ok t) : t.DataInv := by
  obtain ⟨hfit, rfl⟩ := runRsGen_ok.1 h
  exact { hs with cwm := hs.cwm.write (by simpa using hfit) }

theorem runRsEnc_dataInv {n : Byte} {s t : State} (hs : s.DataInv) (h : runRsEnc n s = .ok t) : t.DataInv := by
  obtain ⟨⟨-, hfit⟩, rfl⟩ := runRsEnc_ok.1 h
  exact { hs with cwm := hs.cwm.write (by simpa using hfit) }

theorem runDeAnalyze_dataInv {s t : State} (hs : s.DataInv) (h : runDeAnalyze s = .ok t) : t.DataInv := by
  obtain ⟨-, rfl⟩ := runDeAnalyze_ok.1 h
  exact hs.restart hs.txt (by decide) _ _ _ _

theorem runDeVersion_dataInv {s t : State} (hs : s.DataInv) (h : runDeVersion s = .ok t) : t.DataInv := by
  obtain ⟨-, m, -, -, v, -, rfl⟩ := runDeVersion_ok.1 h
  exact hs.restart hs.txt (by decide) _ _ _ _

theorem runDePack_dataInv {s t : State} (hs : s.DataInv) (h : runDePack s = .ok t) : t.DataInv := by
  obtain ⟨-, m, hm, ⟨hv, hlen⟩, hclass, hfits, rfl⟩ := runDePack_ok.1 h
  obtain ⟨-, -, -, hD⟩ := blockFacts_of_legal hv s.ecLevel
  obtain ⟨hreq, -⟩ := fits_iff.1 hfits
  have hpack : (pack s.text m s.versionNat s.ecLevel).length = dataCodewords s.versionNat s.ecLevel :=
    length_pack (by simpa [State.text] using hreq)
  have hdata : (BitVec.ofNat 16 (dataCodewords s.versionNat s.ecLevel)).toNat = dataCodewords s.versionNat s.ecLevel :=
    Nat.mod_eq_of_lt (by omega)
  have hbits : (BitVec.ofNat 16 (reqBits m s.textBytes s.versionNat)).toNat = reqBits m s.textBytes s.versionNat :=
    Nat.mod_eq_of_lt (by omega)
  exact { hs with
    cwm := hs.cwm.write (by rw [hpack, Config.cwmSize]; omega)
    packed := fun _ => ⟨m, hm, hv, decide_eq_true hlen, hclass, hfits, hdata, hbits⟩
    assembled := fun h => absurd h (by simp [State.phaseNat])
    patterned := fun h => absurd h (by simp [State.phaseNat])
    dataCw_le := hdata.trans_le hD
    bitLen_le := hbits.trans_le (by omega) }

theorem runCwAssemble_dataInv {s t : State} (hs : s.DataInv) (h : runCwAssemble s = .ok t) : t.DataInv := by
  obtain ⟨hphase, hv, rfl⟩ := runCwAssemble_ok.1 h
  obtain ⟨-, -, hT, -⟩ := blockFacts_of_legal hv s.ecLevel
  have htotal : (BitVec.ofNat 16 (totalCodewords s.versionNat)).toNat = totalCodewords s.versionNat :=
    Nat.mod_eq_of_lt (by omega)
  exact { hs with
    cwm := hs.cwm.write (by
      rw [length_interleave hv (Memory.length_readBytes _ _ _), Config.finalBase, Config.cwmSize]; omega)
    packed := fun _ => hs.packed (by omega)
    assembled := fun _ => htotal
    patterned := fun h => absurd h (by simp [State.phaseNat])
    totalCw_le := htotal.trans_le hT }

theorem sized_of_buildPattern {v : Nat} {g : Grid} (hv : legalVersion v = true) (h : buildPattern v = .ok g) :
    g.Sized (gridSide v) := by
  obtain ⟨g', m, hg', hm, -⟩ := buildPattern_models hv
  obtain rfl := Except.ok.inj (h.symm.trans hg')
  exact hm.sized

theorem runMxInit_dataInv {s t : State} (hs : s.DataInv) (h : runMxInit s = .ok t) : t.DataInv := by
  obtain ⟨hphase, hv, g, hg, rfl⟩ := runMxInit_ok.1 h
  have hside := gridSide_le hv
  have hsize : (BitVec.ofNat 8 (gridSide s.versionNat)).toNat = gridSide s.versionNat := Nat.mod_eq_of_lt (by omega)
  exact { hs with
    mxm := holdsCells_clearedMxm.storeGrid hside (sized_of_buildPattern hv hg)
    packed := fun _ => hs.packed (by omega)
    assembled := fun _ => hs.assembled hphase
    patterned := fun _ => hsize
    mxSize := .inr (by
      rw [legalVersion_iff] at hv
      simp only [hsize]
      unfold gridSide at hside ⊢
      omega) }

theorem runMxPlace_dataInv {s t : State} (hs : s.DataInv) (h : runMxPlace s = .ok t) : t.DataInv := by
  obtain ⟨hphase, g, hg, rfl⟩ := runMxPlace_ok.1 h
  have hsized : g.Sized s.mxSize.toNat := by
    rw [place_ok hg]
    exact sized_placeBits _ _ (sized_loadGrid _ _)
  exact { hs with
    mxm := hs.mxm.storeGrid hs.mxSize_le hsized
    packed := fun _ => hs.packed (by omega)
    assembled := fun _ => hs.assembled (by omega)
    patterned := fun _ => hs.patterned (by omega) }

theorem runMkApply_dataInv {k : Byte} {s t : State} (hs : s.DataInv) (h : runMkApply k s = .ok t) : t.DataInv := by
  obtain ⟨hphase, m, -, rfl⟩ := runMkApply_ok.1 h
  exact hs.withSymbol (by omega) (sized_applyMask (sized_symbol s) m)

theorem runMkScore_dataInv {s t : State} (hs : s.DataInv) (h : runMkScore s = .ok t) : t.DataInv := by
  obtain ⟨hphase, -, rfl⟩ := runMkScore_ok.1 h
  obtain ⟨-, -, -, -, htotal⟩ := gridPenalty_within (hs.legal (by omega)) (sized_symbol s)
  exact hs.setPenalty htotal

theorem runMxFormat_dataInv {k : Byte} {s t : State} (hs : s.DataInv) (h : runMxFormat k s = .ok t) : t.DataInv := by
  obtain ⟨hphase, m, -, rfl⟩ := runMxFormat_ok.1 h
  exact hs.withSymbol (by omega) (sized_writeBits _ _ (sized_symbol s))

theorem runMxVersionInfo_dataInv {s t : State} (hs : s.DataInv) (h : runMxVersionInfo s = .ok t) : t.DataInv := by
  obtain ⟨hphase, rfl⟩ := runMxVersionInfo_ok.1 h
  exact hs.withSymbol (by omega) (sized_writeBits _ _ (sized_symbol s))

/-- Scores below 2,520,000 are written with no wrap, and MASK is the lowest index of the least (10_state.md R50, R52). -/
theorem selected_selection {s : State} {tr : BitVec 3 → Grid} {pens : Vector Penalty 8}
    (hp : ∀ k, (penaltyAt pens k).total < 2520000) (k : Fin 8) :
    (s.selected tr pens).scores[(winner pens).toFin] ≤ (s.selected tr pens).scores[k] ∧
      (k < (winner pens).toFin → (s.selected tr pens).scores[(winner pens).toFin] < (s.selected tr pens).scores[k]) := by
  have hscore : ∀ j : BitVec 3, ((s.selected tr pens).scores[j.toFin]).toNat = (penaltyAt pens j).total := by
    intro j
    rw [State.selected_scores, Fin.getElem_fin, Vector.getElem_map]
    exact Nat.mod_eq_of_lt (by have := hp j; simp only [penaltyAt, Fin.getElem_fin] at this; omega)
  have hk : (s.selected tr pens).scores[k].toNat = (penaltyAt pens (BitVec.ofFin k)).total := hscore (BitVec.ofFin k)
  rw [BitVec.le_def, BitVec.lt_def, hscore, hk]
  exact ⟨winner_le pens _, fun hlt => winner_lt hlt⟩

theorem State.DataInv.selected {s : State} (hs : s.DataInv) (h : 5 ≤ s.phaseNat) {tr : BitVec 3 → Grid}
    {pens : Vector Penalty 8} (htr : ∀ k, (tr k).Sized (gridSide s.versionNat))
    (hp : ∀ k, (penaltyAt pens k).total < 2520000) : (s.selected tr pens).DataInv :=
  { hs.setPenalty (hp (winner pens)) with
    mxm := hs.mxm.storeGrid (gridSide_le (hs.legal (by omega))) (htr _)
    packed := fun _ => hs.packed (by omega)
    assembled := fun _ => hs.assembled (by omega)
    patterned := fun _ => hs.patterned h
    selection := selected_selection hp }

theorem runMkSelect_dataInv {s t : State} (hs : s.DataInv) (h : runMkSelect s = .ok t) : t.DataInv := by
  obtain ⟨hphase, -, rfl⟩ := runMkSelect_ok.1 h
  have hsized : ∀ k, (s.trials k).Sized (gridSide s.versionNat) := sized_trialsOf (sized_symbol s) s.ecLevel
  refine hs.selected (by omega) hsized fun k => ?_
  obtain ⟨-, -, -, -, hlt⟩ := gridPenalty_within (hs.legal (by omega)) (hsized k)
  rwa [State.trialPenalties, penaltyAt_maskPenalties]

theorem runRender_dataInv {s t : State} (hs : s.DataInv) (h : runRender s = .ok t) : t.DataInv := by
  obtain ⟨-, -, -, hside, rfl⟩ := runRender_ok.1 h
  have hmod : (BitVec.ofNat 16 (geometry s.mxSize.toNat s.pixSize.toNat s.quiet.toNat).side).toNat ≤
      (geometry s.mxSize.toNat s.pixSize.toNat s.quiet.toNat).side := Nat.mod_le _ _
  exact { hs with
    pix := hs.pix.write (by rw [length_imageBytes]; omega)
    pixSide := (Nat.mul_le_mul hmod hmod).trans hside }

theorem runEncode_dataInv {s t : State} (hs : s.DataInv) (h : runEncode s = .ok t) : t.DataInv := by
  obtain ⟨s1, h1, s2, h2, s3, h3, s4, h4, s5, h5, s6, h6, h7⟩ := runEncode_ok.1 h
  have hs3 := runDePack_dataInv (runDeVersion_dataInv (runDeAnalyze_dataInv hs h1) h2) h3
  have hs6 := runMxPlace_dataInv (runMxInit_dataInv (runCwAssemble_dataInv hs3 h4) h5) h6
  exact runMkSelect_dataInv hs6 h7

/-- Every command's rule keeps the invariant but for the flags. -/
theorem runOf_dataInv {i : Instr} {s t : State} (hs : s.DataInv) (h : runOf i s = .ok t) : t.DataInv := by
  cases i with
  | nop => cases h; exact hs
  | gfMul a b => exact withResult_dataInv (r := .ok (gfMul a b)) hs h
  | gfDiv a b => exact withResult_dataInv hs h
  | gfExp i => exact withResult_dataInv (r := .ok (gfExp i)) hs h
  | gfLog a => exact withResult_dataInv hs h
  | rsGen n => exact runRsGen_dataInv hs h
  | rsEnc n => exact runRsEnc_dataInv hs h
  | deAnalyze => exact runDeAnalyze_dataInv hs h
  | deVersion => exact runDeVersion_dataInv hs h
  | dePack => exact runDePack_dataInv hs h
  | cwAssemble => exact runCwAssemble_dataInv hs h
  | mxInit => exact runMxInit_dataInv hs h
  | mxPlace => exact runMxPlace_dataInv hs h
  | mkApply k => exact runMkApply_dataInv hs h
  | mkScore => exact runMkScore_dataInv hs h
  | mxFormat k => exact runMxFormat_dataInv hs h
  | mxVersionInfo => exact runMxVersionInfo_dataInv hs h
  | mkSelect => exact runMkSelect_dataInv hs h
  | render => exact runRender_dataInv hs h
  | encode => exact runEncode_dataInv hs h

end Sys2Proof.Machine

/-! What a host write does, said once: the register an address reaches, the step of an answered write, and what it
changes of PHASE, BUSY and the invariant. -/

namespace Sys2Proof.Machine

/-! ### Register offsets and addresses -/

/-- The register map is one to one (10_state.md R33). -/
theorem Reg.ofOffset_eq_some {off : Nat} {r : Reg} : Reg.ofOffset off = some r ↔ off = r.offset := by
  constructor
  · intro h
    unfold Reg.ofOffset at h
    split at h <;> cases h <;> rfl
  · rintro rfl
    cases r with
    | score k => fin_cases k <;> rfl
    | _ => rfl

theorem Reg.offset_lt (r : Reg) : r.offset < 0x9C := by
  cases r with
  | score k => simp only [Reg.offset]; omega
  | _ => decide

theorem Reg.offset_aligned (r : Reg) : r.offset % 4 = 0 := by
  cases r with
  | score k => simp only [Reg.offset]; omega
  | _ => rfl

theorem Reg.ofOffset_reserved {off : Nat} (h : 0x9C ≤ off) : Reg.ofOffset off = none := by
  cases hr : Reg.ofOffset off with
  | none => rfl
  | some r =>
    have := r.offset_lt
    rw [Reg.ofOffset_eq_some] at hr
    omega

@[simp] theorem Reg.addr_toNat (r : Reg) : r.addr.toNat = r.offset :=
  Nat.mod_eq_of_lt (by have := r.offset_lt; omega)

/-- The accesses that reach the register region (20_memory.md R102). -/
theorem busTarget_reg {pixMax : Nat} {w : Width} {addr : BusAddr} {off : Nat} :
    busTarget pixMax w addr = .ok (.reg off) ↔
      w = .word ∧ addr.toNat < 0x100 ∧ addr.toNat % 4 = 0 ∧ off = addr.toNat := by
  rw [busTarget_ok, placeOf_reg]
  constructor
  · rintro ⟨⟨h1, rfl⟩, h2, h3⟩; exact ⟨h2, h1, h3, rfl⟩
  · rintro ⟨h1, h2, h3, rfl⟩; exact ⟨⟨h2, rfl⟩, h1, h3⟩

/-- A write that reaches a memory stays inside it (20_memory.md R103, log 5). -/
theorem busTarget_mem {pixMax : Nat} {w : Width} {addr : BusAddr} {sp : Space} {a : Nat}
    (h : busTarget pixMax w addr = .ok (.mem sp a)) (v : Word) :
    addr.toNat = sp.base + a ∧ a + (writeBytes w v).length ≤ sp.size pixMax := by
  obtain ⟨hplace, hw⟩ := busTarget_ok.1 h
  obtain ⟨haddr, ha⟩ := placeOf_mem.1 hplace
  refine ⟨haddr, ?_⟩
  rcases hw with rfl | ⟨rfl, -, hend⟩
  · exact ha
  · exact hend

/-! ### A write by the place it reaches -/

/-- A write to a reserved offset is ignored, a command pending or not (10_state.md R59, log 8). -/
theorem hostWrite_reserved {off : Nat} (h : Reg.ofOffset off = none) (s : State) (w : Width) (v : Word) :
    s.hostWrite w (.reg off) v = s := by
  rw [State.hostWrite, h]

theorem hostWrite_reg {s : State} (hb : s.status.busy = false) (w : Width) (r : Reg) (v : Word) :
    s.hostWrite w (.reg r.offset) v = s.writeReg v r := by
  rw [State.hostWrite, Reg.ofOffset_eq_some.2 rfl]
  simp [hb]

theorem hostWrite_mem {s : State} (hb : s.status.busy = false) (w : Width) (sp : Space) (a : Nat) (v : Word) :
    s.hostWrite w (.mem sp a) v = s.storeBytes sp a (writeBytes w v) := by
  simp [State.hostWrite, hb]

/-! ### The step of an answered write -/

/-- A write QRE answers (20_memory.md R106 to R114). -/
theorem step_write {s : State} {w : Width} {addr : BusAddr} {v : Word} {ts : List Turn} {place : Place}
    (h : s.turns = .host (.write w addr v) :: ts) (hp : busTarget s.pixMax w addr = .ok place) :
    step s = .next { ({ s with turns := ts } : State).hostWrite w place v with reply := .written } :=
  step_next.2 (.inr (.inr (.inl ⟨_, ts, place, h, hp, rfl⟩)))

/-- A step with a host write next: a bus error that is answered, or the write (20_memory.md R101, R106). -/
theorem step_write_cases {s t : State} {w : Width} {addr : BusAddr} {v : Word} {ts : List Turn}
    (h : s.turns = .host (.write w addr v) :: ts) (hstep : step s = .next t) :
    (∃ f, busTarget s.pixMax w addr = .error f ∧ t = { s with turns := ts, reply := .busError f }) ∨
      ∃ place, busTarget s.pixMax w addr = .ok place ∧
        t = { ({ s with turns := ts } : State).hostWrite w place v with reply := .written } := by
  cases hp : busTarget s.pixMax w addr with
  | error f =>
    have hturn : step s = .next { s with turns := ts, reply := .busError f } :=
      step_next.2 (.inr (.inr (.inr ⟨_, ts, f, h, hp, rfl⟩)))
    exact .inl ⟨f, rfl, Host.Outcome.next.inj (hstep.symm.trans hturn)⟩
  | ok place => exact .inr ⟨place, rfl, Host.Outcome.next.inj (hstep.symm.trans (step_write h hp))⟩

/-- A write to a register with no command pending. -/
theorem step_writeReg {s : State} {v : Word} {ts : List Turn} (r : Reg) (hb : s.status.busy = false)
    (h : s.turns = .host (.write .word r.addr v) :: ts) :
    step s = .next { ({ s with turns := ts } : State).writeReg v r with reply := .written } := by
  have hp : busTarget s.pixMax .word r.addr = .ok (.reg r.offset) := by
    have hlt := r.offset_lt
    have h4 := r.offset_aligned
    rw [busTarget_reg, Reg.addr_toNat]
    exact ⟨rfl, by omega, h4, rfl⟩
  rw [step_write h hp, hostWrite_reg (s := { s with turns := ts }) hb]

/-- A write to a reserved offset changes nothing (10_state.md R59). -/
theorem step_write_reserved {s : State} {addr : BusAddr} {v : Word} {ts : List Turn} (h1 : 0x9C ≤ addr.toNat)
    (h2 : addr.toNat ≤ 0xFC) (h4 : addr.toNat % 4 = 0) (h : s.turns = .host (.write .word addr v) :: ts) :
    step s = .next { s with turns := ts, reply := .written } := by
  rw [step_write h (busTarget_reg.2 ⟨rfl, by omega, h4, rfl⟩), hostWrite_reserved (Reg.ofOffset_reserved h1)]

/-! ### What a write leaves -/

theorem storeBytes_status (s : State) (sp : Space) (a : Nat) (bs : List Byte) :
    (s.storeBytes sp a bs).status = s.status := by cases sp <;> rfl

theorem storeBytes_phase (s : State) (sp : Space) (a : Nat) (bs : List Byte) :
    (s.storeBytes sp a bs).phase = if sp = .txt then 0#3 else s.phase := by cases sp <;> rfl

/-- BUSY rises by a CMD write only (10_state.md R37). -/
theorem writeReg_busy {s : State} {v : Word} {r : Reg} (hb : s.status.busy = false) (hr : r ≠ .cmd) :
    (s.writeReg v r).status.busy = false := by
  cases r with
  | cmd => exact absurd rfl hr
  | ctrl => rw [State.writeReg]; split; exacts [rfl, hb]
  | _ => exact hb

/-- PHASE moves by a write to LEVEL, TEXT_LEN, MODE or VERSION and by a soft reset, and by no other register's
(10_state.md R46). -/
theorem writeReg_phase_other {s : State} {v : Word} {r : Reg} (hc : r = .ctrl → v.getLsbD 0 = false)
    (hl : r ≠ .level) (ht : r ≠ .textLen) (hm : r ≠ .mode) (hv : r ≠ .version) : (s.writeReg v r).phase = s.phase := by
  cases r with
  | ctrl => rw [State.writeReg, hc rfl]; rfl
  | level => exact absurd rfl hl
  | textLen => exact absurd rfl ht
  | mode => exact absurd rfl hm
  | version => exact absurd rfl hv
  | _ => rfl

/-- A read-only register ignores the write (10_state.md R33). -/
theorem writeReg_readOnly {r : Reg} (h : readOnlyReg r = true) (s : State) (v : Word) : s.writeReg v r = s := by
  cases r
  case ctrl | status | cmd => exact absurd h (by decide)
  case level | textLen | mode | version | src | dst | len | pixSize | quiet | dark | light => exact absurd h (by decide)
  all_goals rfl

end Sys2Proof.Machine

/-! Every step keeps the invariant (O56). -/

namespace Sys2Proof.Machine

/-! ### The invariant of the whole machine -/

/-- After a hard reset with canonical memories the invariant holds (70_reset_and_hazards.md R570, R573). -/
theorem powerOn_inv {txt cwm mxm pix : Memory} {pixMax : Nat} {turns : List Turn}
    (h : (State.powerOn txt cwm mxm pix pixMax turns).memoriesOk = true) :
    (State.powerOn txt cwm mxm pix pixMax turns).Inv := ⟨h, rfl, rfl, rfl, rfl, rfl⟩

theorem softReset_inv {s : State} (hs : s.Inv) : s.softReset.Inv := powerOn_inv (turns := s.turns) hs.1

/-- A completed command leaves flags that agree with ERRCODE (10_state.md R37 to R41). -/
theorem complete_flagsOk (s : State) (r : CmdResult) : (s.complete r).flagsOk = true := by
  cases r with
  | ok t => simp [State.flagsOk]
  | error e => simp [State.flagsOk, e.code_le, e.code_ne_zero]

theorem complete_inv {s : State} {r : CmdResult} (hs : s.DataInv) (hr : ∀ t, r = .ok t → t.DataInv) :
    (s.complete r).Inv := by
  refine State.inv_iff.2 ⟨?_, complete_flagsOk s r⟩
  cases r with
  | ok t => exact { hr t rfl with }
  | error e => exact { hs with }

theorem engineStep_inv {s t : State} (hs : s.Inv) (h : engineStep s = .next t) : t.Inv := by
  obtain ⟨hd, -⟩ := State.inv_iff.1 hs
  obtain rfl := Host.Outcome.next.inj ((engineStep_eq s).symm.trans h)
  split
  · split
    · exact complete_inv hd fun t => runOf_dataInv hd
    · next e _ => exact complete_inv (r := .error .illegalCommand) hd fun t ht => nomatch ht
  · exact hs

/-- A dropped write sets OVERRUN, which the invariant leaves free (20_memory.md R106). -/
theorem overrun_inv {s : State} (hs : s.Inv) : s.overrun.Inv := hs

theorem writeReg_inv {s : State} (hs : s.Inv) (v : Word) (r : Reg) : (s.writeReg v r).Inv := by
  obtain ⟨hd, hf⟩ := State.inv_iff.1 hs
  cases r with
  | ctrl => rw [State.writeReg]; split; exacts [softReset_inv hs, hs]
  | cmd =>
    refine State.inv_iff.2 ⟨{ hd with }, ?_⟩
    simp only [State.flagsOk, Bool.and_eq_true, decide_eq_true_eq] at hf
    obtain ⟨⟨-, hcode⟩, -⟩ := hf
    simp [State.writeReg, State.flagsOk, hcode]
  | level =>
    refine State.inv_iff.2 ⟨hd.restart hd.txt ?_ _ _ _ _, hf⟩
    split
    · omega
    · decide
  | textLen => exact State.inv_iff.2 ⟨hd.restart hd.txt (by decide) _ _ _ _, hf⟩
  | mode => exact State.inv_iff.2 ⟨hd.restart hd.txt (by decide) _ _ _ _, hf⟩
  | version =>
    refine State.inv_iff.2 ⟨hd.restart hd.txt ?_ _ _ _ _, hf⟩
    split
    · decide
    · omega
  | _ => exact hs

theorem storeBytes_inv {s : State} (hs : s.Inv) {sp : Space} {a : Nat} {bs : List Byte}
    (hb : a + bs.length ≤ sp.size s.pixMax) : (s.storeBytes sp a bs).Inv := by
  obtain ⟨hd, hf⟩ := State.inv_iff.1 hs
  cases sp with
  | txt => exact State.inv_iff.2 ⟨hd.restart (hd.txt.write hb) (by decide) _ _ _ _, hf⟩
  | cwm => exact State.inv_iff.2 ⟨{ hd with cwm := hd.cwm.write hb }, hf⟩
  | mxm => exact State.inv_iff.2 ⟨{ hd with mxm := hd.mxm.hostWrite hb }, hf⟩
  | pix => exact hs

/-- A write the bus answers keeps the invariant. -/
theorem hostWrite_inv {s : State} (hs : s.Inv) {w : Width} {addr : BusAddr} {v : Word} {place : Place}
    (hp : busTarget s.pixMax w addr = .ok place) : (s.hostWrite w place v).Inv := by
  cases place with
  | reg off =>
    rw [State.hostWrite]
    cases Reg.ofOffset off with
    | none => exact hs
    | some r => dsimp only; split; exacts [overrun_inv hs, writeReg_inv hs v r]
  | mem sp a =>
    rw [State.hostWrite]
    split
    · exact overrun_inv hs
    · exact storeBytes_inv hs (busTarget_mem hp v).2

theorem accessState_inv {s : State} (hs : s.Inv) {acc : Access} {place : Place}
    (hp : accessTarget s.pixMax acc = .ok place) : (accessState acc place s).Inv := by
  cases acc with
  | read w addr => exact hs
  | write w addr v =>
    have hw : (s.hostWrite w place v).Inv := hostWrite_inv hs hp
    exact hw

/-- Settles O56: the engine's turn by the rules' `runOf_dataInv`, the host's by `hostWrite_inv`. -/
theorem stepKeepsInvariant : Obligations.StepKeepsInvariant := by
  intro s t hs hstep
  rcases step_next.1 hstep with ⟨-, he⟩ | ⟨ts, -, he⟩ | ⟨acc, ts, place, -, hp, rfl⟩ | ⟨acc, ts, f, -, -, rfl⟩
  · exact engineStep_inv hs he
  · exact engineStep_inv (s := { s with turns := ts }) hs he
  · exact accessState_inv (s := { s with turns := ts }) hs hp
  · exact hs

end Sys2Proof.Machine

/-! The engine's step (O5, O6), what no command writes or reads (O9, O11), the host's writes to registers (O50, O51, O52),
and the life of a pending command (O57, O58). -/

namespace Sys2Proof.Machine

/-! ### The turns -/

theorem step_of_no_turns {s : State} (h : s.turns = []) : step s = engineStep s := by
  unfold step; rw [h]

theorem step_of_engine_turn {s : State} {ts : List Turn} (h : s.turns = .engine :: ts) :
    step s = engineStep { s with turns := ts } := by
  unfold step; rw [h]

theorem step_of_host_turn {s : State} {acc : Access} {ts : List Turn} (h : s.turns = .host acc :: ts) :
    step s = hostTurn acc { s with turns := ts } := by
  unfold step; rw [h]

/-- Settles O5: the engine's turn decodes CMD and executes it. -/
theorem stepRunsDecodedCommand : Obligations.StepRunsDecodedCommand := by
  intro s i hb hi
  refine ⟨fun h => ?_, fun ts h => ?_⟩
  · exact (step_of_no_turns h).trans (engineStep_run hb hi)
  · exact (step_of_engine_turn h).trans (engineStep_run (s := { s with turns := ts }) hb hi)

/-- Settles O6: with BUSY = 0 the engine's turn is idle. -/
theorem noCommandNoEffect : Obligations.NoCommandNoEffect := by
  intro s hb
  refine ⟨fun h => ?_, fun ts h => ?_⟩
  · exact (step_of_no_turns h).trans (engineStep_idle hb)
  · exact (step_of_engine_turn h).trans (engineStep_idle (s := { s with turns := ts }) hb)

/-! ### What commands leave and do not read -/

/-- Settles O9: a rule keeps the host's part (`runOf_host`), and the completion writes ERRCODE and three flags only. -/
theorem commandsKeepHostPart : Obligations.CommandsKeepHostPart := by
  intro i s t h
  rw [exec_next] at h
  subst h
  cases hr : runOf i s with
  | error e => simp
  | ok u =>
    have hu := runOf_host hr
    have hoverrun : u.status.overrun = s.status.overrun := by rw [hu.status]
    exact ⟨hu.txt, hu.cmd, hu.level, hu.textLen, hu.src, hu.dst, hu.len, hu.pixSize, hu.quiet, hu.dark, hu.light,
      hoverrun, hu.pixMax, hu.turns, hu.reply⟩

/-- The completion takes over OVERRUN only from the flags before it (10_state.md R40). -/
theorem complete_reflag (s : State) (f : Status) (e : Byte) (r : CmdResult) :
    (s.reflag f e).complete (r.map fun t => t.reflag f e) =
      { s.complete r with status := { (s.complete r).status with overrun := f.overrun } } := by
  cases r <;> rfl

/-- Settles O11: no rule reads STATUS or ERRCODE (`runOf_reflag`), and the completion overwrites them but OVERRUN. -/
theorem noCommandReadsFlags : Obligations.NoCommandReadsFlags := by
  intro i s t f e h
  rw [exec_next] at h
  subst h
  exact exec_next.2 (by rw [← complete_reflag s f e, ← runOf_reflag]; rfl)

/-! ### Host writes -/

/-- Settles O50: an accepted CMD write. -/
theorem commandAcceptance : Obligations.CommandAcceptance := by
  intro s v ts hb h
  exact ⟨step_writeReg .cmd hb h, rfl⟩

/-- PHASE goes from `p` to `q` by a write of `v` that QRE answers at the host address `a` (10_state.md R46). -/
def PhaseMoves (a : Nat) (v : Word) (p q : BitVec 3) : Prop :=
  ((0x010000 ≤ a ∧ a ≤ 0x011FFF) ∨ a = 0x1C → q = 0#3) ∧ (a = 0x20 → q = 1#3) ∧
    (a = 0x18 → q.toNat = min p.toNat 1) ∧ (a = 0x24 → 1 ≤ p.toNat → q = 2#3) ∧ (a = 0x24 → p.toNat = 0 → q = 0#3) ∧
    (¬(0x010000 ≤ a ∧ a ≤ 0x011FFF) → a ≠ 0x1C → a ≠ 0x20 → a ≠ 0x18 → a ≠ 0x24 → ¬(a = 4 ∧ v.getLsbD 0 = true) →
      q = p)

/-- A write to a memory moves PHASE by TXT only. -/
theorem hostWrite_mem_phaseMoves {s : State} {w : Width} {addr : BusAddr} {sp : Space} {a : Nat}
    (hb : s.status.busy = false) (hp : busTarget s.pixMax w addr = .ok (.mem sp a)) (v : Word) :
    PhaseMoves addr.toNat v s.phase (s.hostWrite w (.mem sp a) v).phase := by
  obtain ⟨haddr, hend⟩ := busTarget_mem hp v
  have hsome : 1 ≤ (writeBytes w v).length := by cases w <;> exact Nat.le_add_left 1 _
  have hlow : 0x10000 ≤ sp.base := by cases sp <;> decide
  have htxt : (0x010000 ≤ addr.toNat ∧ addr.toNat ≤ 0x011FFF) ↔ sp = .txt := by
    cases sp <;> simp [Space.base, Space.size, Config.txtSize] at haddr hend ⊢ <;> omega
  rw [hostWrite_mem hb, storeBytes_phase, PhaseMoves, htxt]
  refine ⟨?_, by omega, by omega, by omega, by omega, fun hne _ _ _ _ _ => if_neg hne⟩
  rintro (h | h1C)
  · exact if_pos h
  · omega

/-- A write to the register region moves PHASE by the four registers the pipeline starts from. -/
theorem hostWrite_reg_phaseMoves {s : State} {w : Width} {off : Nat} (hb : s.status.busy = false) (hoff : off < 0x100)
    (v : Word) : PhaseMoves off v s.phase (s.hostWrite w (.reg off) v).phase := by
  have hreg : ∀ r : Reg, off = r.offset → (s.hostWrite w (.reg off) v).phase = (s.writeReg v r).phase := by
    rintro r rfl
    rw [hostWrite_reg hb]
  refine ⟨?_, hreg .mode, fun h18 => ?_, fun h24 h1 => ?_, fun h24 h0 => ?_, fun _ h1C h20 h18 h24 h4 => ?_⟩
  · rintro (⟨hge, -⟩ | h1C)
    · omega
    · exact hreg .textLen h1C
  · rw [hreg .level h18]
    show (if s.phase.toNat ≤ 1 then s.phase else 1#3).toNat = min s.phase.toNat 1
    split
    · omega
    · rw [Nat.min_eq_right (by omega)]; rfl
  · exact (hreg .version h24).trans (if_pos h1)
  · exact ((hreg .version h24).trans (if_neg (by omega))).trans (BitVec.eq_of_toNat_eq h0)
  · cases hr : Reg.ofOffset off with
    | none => rw [hostWrite_reserved hr]
    | some r =>
      rw [Reg.ofOffset_eq_some] at hr
      refine (hreg r hr).trans (writeReg_phase_other ?_ ?_ ?_ ?_ ?_)
      · rintro rfl; simpa using fun hv => h4 ⟨hr, hv⟩
      all_goals rintro rfl; contradiction

/-- Settles O51: by the place the write reaches, a memory or a register. -/
theorem hostWritesMovePhase : Obligations.HostWritesMovePhase := by
  intro s t w addr v ts hb h hstep
  rcases step_write_cases h hstep with ⟨f, -, rfl⟩ | ⟨place, hp, rfl⟩
  · exact ⟨fun _ => rfl, fun hreply => nomatch hreply⟩
  refine ⟨fun hreply => absurd rfl hreply, fun _ => ?_⟩
  cases place with
  | mem sp a => exact hostWrite_mem_phaseMoves (s := { s with turns := ts }) hb hp v
  | reg off =>
    obtain ⟨-, hlt, -, rfl⟩ := busTarget_reg.1 hp
    exact hostWrite_reg_phaseMoves (s := { s with turns := ts }) hb hlt v

/-! ### Host writes to registers -/

/-- Keeping the low `k` bits of a word. -/
theorem setWidth_setWidth_eq_and {k : Nat} (hk : k ≤ 32) (v : Word) :
    (v.setWidth k).setWidth 32 = v &&& BitVec.ofNat 32 (2 ^ k - 1) := by
  have hpow : 2 ^ k ≤ 2 ^ 32 := Nat.pow_le_pow_right (by decide) hk
  have hpos := Nat.two_pow_pos k
  apply BitVec.eq_of_toNat_eq
  rw [BitVec.toNat_and, BitVec.toNat_ofNat, Nat.mod_eq_of_lt (by omega : 2 ^ k - 1 < 2 ^ 32),
    Nat.and_two_pow_sub_one_eq_mod, BitVec.toNat_setWidth, BitVec.toNat_setWidth]
  exact Nat.mod_eq_of_lt ((Nat.mod_lt _ hpos).trans_le hpow)

/-- A register the host can store into reads back the used bits of the word written (10_state.md R33, R34). -/
theorem readReg_writeReg_same {r : Reg} {m : Word} (h : storedBits r = some m) (s : State) (v : Word) :
    (s.writeReg v r).readReg r = v &&& m := by
  cases r <;> cases h
  case level => exact setWidth_setWidth_eq_and (k := 2) (by decide) v
  case textLen => exact setWidth_setWidth_eq_and (k := 14) (by decide) v
  case mode => exact setWidth_setWidth_eq_and (k := 4) (by decide) v
  case version => exact setWidth_setWidth_eq_and (k := 6) (by decide) v
  case src | dst | len | pixSize => exact setWidth_setWidth_eq_and (k := 16) (by decide) v
  case quiet => exact setWidth_setWidth_eq_and (k := 8) (by decide) v
  case dark | light => exact (BitVec.and_allOnes (x := v)).symm

/-- Every other register reads as before, PHASE apart: it shows another field. -/
theorem readReg_writeReg_other {r q : Reg} {m : Word} (h : storedBits r = some m) (hq : q ≠ r) (hphase : q ≠ .phase)
    (s : State) (v : Word) : (s.writeReg v r).readReg q = s.readReg q := by
  cases r <;> cases h
  all_goals cases q
  any_goals contradiction
  all_goals rfl

/-- No register write touches a memory (10_state.md R33, 70_reset_and_hazards.md R571). -/
theorem writeReg_memories (s : State) (v : Word) (r : Reg) :
    (s.writeReg v r).txt = s.txt ∧ (s.writeReg v r).cwm = s.cwm ∧ (s.writeReg v r).mxm = s.mxm ∧
      (s.writeReg v r).pix = s.pix ∧ (s.writeReg v r).pixMax = s.pixMax ∧ (s.writeReg v r).turns = s.turns := by
  cases r with
  | ctrl => rw [State.writeReg]; split <;> exact ⟨rfl, rfl, rfl, rfl, rfl, rfl⟩
  | _ => exact ⟨rfl, rfl, rfl, rfl, rfl, rfl⟩

/-- Settles O52: the step is the register's write (`step_writeReg`), which stores the used bits of one field. -/
theorem hostWritesRegisters : Obligations.HostWritesRegisters := by
  intro s v ts hb
  refine ⟨fun r m hm h => ?_, fun r hr h => ?_, fun addr h1 h2 h4 h => step_write_reserved h1 h2 h4 h⟩
  · obtain ⟨htxt, hcwm, hmxm, hpix, hmax, hturns⟩ := writeReg_memories { s with turns := ts } v r
    exact ⟨_, step_writeReg r hb h, readReg_writeReg_same hm { s with turns := ts } v,
      fun q hq hphase => readReg_writeReg_other hm hq hphase { s with turns := ts } v,
      htxt, hcwm, hmxm, hpix, hmax, hturns, rfl⟩
  · rw [step_writeReg r hb h, writeReg_readOnly hr]

/-! ### A pending command -/

/-- With no command pending, a write that raises BUSY reaches CMD (10_state.md R37, R42). -/
theorem hostWrite_raises_busy {s : State} {w : Width} {place : Place} {v : Word} (hb : s.status.busy = false)
    (h : (s.hostWrite w place v).status.busy = true) : place = .reg Reg.cmd.offset := by
  cases place with
  | mem sp a => rw [hostWrite_mem hb, storeBytes_status, hb] at h; cases h
  | reg off =>
    cases hr : Reg.ofOffset off with
    | none => rw [hostWrite_reserved hr, hb] at h; cases h
    | some r =>
      obtain rfl := Reg.ofOffset_eq_some.1 hr
      by_cases hcmd : r = .cmd
      · rw [hcmd]
      · rw [hostWrite_reg hb, writeReg_busy hb hcmd] at h; cases h

/-- An access that raises BUSY is a word write to CMD, which latches its word. -/
theorem accessState_raises_busy {s : State} {acc : Access} {place : Place} (hb : s.status.busy = false)
    (hp : accessTarget s.pixMax acc = .ok place) (h : (accessState acc place s).status.busy = true) :
    ∃ v, acc = .write .word 0x000010#24 v ∧ (accessState acc place s).cmd = v := by
  cases acc with
  | read w addr => exact absurd (hb.symm.trans h) (by decide)
  | write w addr v =>
    obtain rfl := hostWrite_raises_busy hb h
    obtain ⟨rfl, -, -, hoff⟩ := busTarget_reg.1 hp
    obtain rfl : addr = 0x000010#24 := BitVec.eq_of_toNat_eq hoff.symm
    refine ⟨v, rfl, ?_⟩
    rw [accessState, hostWrite_reg hb]
    rfl

/-- The host's turn while a command is pending: a soft reset, which discards it, or OVERRUN and the answer at most
(20_memory.md R106, 70_reset_and_hazards.md R571). -/
theorem hostTurn_pending {s : State} (hb : s.status.busy = true) (acc : Access) :
    (∃ v t, acc = .write .word 0x000004#24 v ∧ v.getLsbD 0 = true ∧ hostTurn acc s = .next t ∧
        t.status.busy = false) ∨
      ∃ o r, hostTurn acc s = .next { s with status := { s.status with overrun := o }, reply := r } := by
  by_cases hreset : ∃ v, acc = .write .word 0x000004#24 v ∧ v.getLsbD 0 = true
  · obtain ⟨v, rfl, hv⟩ := hreset
    have hp : accessTarget s.pixMax (.write .word 0x000004#24 v) = .ok (.reg Reg.ctrl.offset) :=
      (busTarget_reg (pixMax := s.pixMax) (addr := 0x000004#24)).2 ⟨rfl, by decide, by decide, rfl⟩
    refine .inl ⟨v, _, rfl, hv, hostTurn_eq _ _, ?_⟩
    rw [hp]
    dsimp only [accessState]
    rw [State.hostWrite, Reg.ofOffset_eq_some.2 rfl]
    simp only [beq_self_eq_true, Bool.true_or, Bool.not_true, Bool.and_false, State.writeReg, hv, if_true]
    rfl
  · refine .inr (hostTurn_busy s acc hb fun v hacc => ?_)
    by_contra hv
    exact hreset ⟨v, hacc, by simpa using hv⟩

/-- With no command pending, only a word write to CMD raises BUSY (10_state.md R37). -/
theorem step_raises_busy {s t : State} (hb : s.status.busy = false) (hstep : step s = .next t)
    (ht : t.status.busy = true) :
    ∃ v ts, s.turns = .host (.write .word 0x000010#24 v) :: ts ∧ t.cmd = v := by
  have hidle : t.status ≠ s.status := fun h => by rw [h, hb] at ht; cases ht
  rcases step_next.1 hstep with ⟨-, he⟩ | ⟨ts, -, he⟩ | ⟨acc, ts, place, hts, hp, rfl⟩ | ⟨acc, ts, f, -, -, rfl⟩
  · rw [engineStep_idle hb] at he
    cases he; contradiction
  · rw [engineStep_idle (s := { s with turns := ts }) hb] at he
    cases he; contradiction
  · obtain ⟨v, rfl, hcmd⟩ := accessState_raises_busy (s := { s with turns := ts }) hb hp ht
    exact ⟨v, ts, hts, hcmd⟩
  · contradiction

/-- A step with a command pending: the engine's turn completes it, a soft reset discards it, or the host changes OVERRUN
and the answer at most (20_memory.md R104, R106, 70_reset_and_hazards.md R571). -/
theorem step_pending {s t : State} (hb : s.status.busy = true) (hstep : step s = .next t) :
    (t.status.busy = false ∧ (s.turns = [] ∨ ∃ ts, s.turns = .engine :: ts)) ∨
      (t.status.busy = false ∧ ∃ v ts, s.turns = .host (.write .word 0x000004#24 v) :: ts ∧ v.getLsbD 0 = true) ∨
      ∃ acc ts o r, s.turns = .host acc :: ts ∧
        t = { s with status := { s.status with overrun := o }, turns := ts, reply := r } := by
  cases hts : s.turns with
  | nil =>
    obtain ⟨u, hu, hbusy, -⟩ := engineStep_done s hb
    rw [step_of_no_turns hts, hu] at hstep
    cases hstep
    exact .inl ⟨hbusy, .inl rfl⟩
  | cons turn ts =>
    cases turn with
    | engine =>
      obtain ⟨u, hu, hbusy, -⟩ := engineStep_done { s with turns := ts } hb
      rw [step_of_engine_turn hts, hu] at hstep
      cases hstep
      exact .inl ⟨hbusy, .inr ⟨ts, rfl⟩⟩
    | host acc =>
      rw [step_of_host_turn hts] at hstep
      rcases hostTurn_pending (s := { s with turns := ts }) hb acc with ⟨v, u, rfl, hv, hu, hbusy⟩ | ⟨o, r, hu⟩
      · rw [hu] at hstep
        cases hstep
        exact .inr (.inl ⟨hbusy, v, ts, rfl, hv⟩)
      · rw [hu] at hstep
        cases hstep
        exact .inr (.inr ⟨acc, ts, o, r, rfl, rfl⟩)

/-- Settles O57: BUSY rises by `step_raises_busy`, and stays or falls by `step_pending`. -/
theorem busyProtocol : Obligations.BusyProtocol := by
  intro s t hstep
  refine ⟨fun hb => step_raises_busy hb hstep, fun hb ht => ?_, fun hb ht => ?_⟩
  · rcases step_pending hb hstep with ⟨hfall, -⟩ | ⟨hfall, -⟩ | ⟨acc, ts, o, r, -, rfl⟩
    · rw [hfall] at ht; cases ht
    · rw [hfall] at ht; cases ht
    · exact ⟨rfl, rfl, rfl, rfl, rfl, rfl⟩
  · rcases step_pending hb hstep with ⟨-, hengine⟩ | ⟨-, hreset⟩ | ⟨acc, ts, o, r, -, rfl⟩
    · rcases hengine with h | h
      · exact .inl h
      · exact .inr (.inl h)
    · exact .inr (.inr hreset)
    · exact absurd (hb.symm.trans ht) (by decide)

/-! ### Bounded completion -/

theorem run_zero (s : State) : Sys2Proof.core.run 0 s = .next s := rfl

theorem run_succ {s s' : State} (h : step s = .next s') (k : Nat) :
    Sys2Proof.core.run (k + 1) s = Sys2Proof.core.run k s' := by
  have hcore : Sys2Proof.core.step s = .next s' := h
  simp only [Host.Core.run, hcore]

/-- What the host can have made of a pending command's state `s` after `k` turns: OVERRUN, `turns` and `reply` at most. -/
def State.PendingAfter (s : State) (k : Nat) (t : State) : Prop :=
  t = { s with
    status := { s.status with overrun := t.status.overrun }
    turns := s.turns.drop k
    reply := t.reply }

/-- After `k` steps the engine's turn comes, and it completes the pending command. -/
def State.CompletesAfter (s : State) (k : Nat) : Prop :=
  ∃ t u : State, Sys2Proof.core.run k s = .next t ∧ s.PendingAfter k t ∧ s.turns[k]?.getD .engine = .engine ∧
    engineStep { t with turns := s.turns.drop (k + 1) } = .next u ∧ Sys2Proof.core.run (k + 1) s = .next u ∧
    u.status.busy = false ∧ u.status.done = true

/-- It is the engine's turn: the command completes now. -/
theorem completesAfter_zero {s : State} (hb : s.status.busy = true) (hturn : s.turns[0]?.getD .engine = .engine)
    (hstep : step s = engineStep { s with turns := s.turns.drop 1 }) : s.CompletesAfter 0 := by
  obtain ⟨u, hu, hbusy, hdone⟩ := engineStep_done { s with turns := s.turns.drop 1 } hb
  exact ⟨s, u, rfl, rfl, hturn, hu, (run_succ (hstep.trans hu) 0).trans (run_zero u), hbusy, hdone⟩

/-- A host's turn that leaves the command pending puts its completion off by one step. -/
theorem completesAfter_succ {s : State} {acc : Access} {ts : List Turn} {o : Bool} {r : BusReply} {k : Nat}
    (h : s.turns = .host acc :: ts)
    (hstep : step s = .next { s with status := { s.status with overrun := o }, turns := ts, reply := r })
    (hk : ({ s with status := { s.status with overrun := o }, turns := ts, reply := r } : State).CompletesAfter k) :
    s.CompletesAfter (k + 1) := by
  obtain ⟨t, u, hrun, ht, hturn, hu, hrun', hbusy, hdone⟩ := hk
  have hdrop : ∀ j, s.turns.drop (j + 1) = ts.drop j := fun j => by rw [h, List.drop_succ_cons]
  refine ⟨t, u, (run_succ hstep k).trans hrun, ?_, ?_, ?_, (run_succ hstep (k + 1)).trans hrun', hbusy, hdone⟩
  · rw [State.PendingAfter, hdrop]; exact ht
  · rw [h]; exact hturn
  · rw [hdrop]; exact hu

/-- Unless a soft reset is among the turns, a pending command completes within one step more than there are turns. -/
theorem pending_completes {s : State} {ts : List Turn} (hts : s.turns = ts) (hb : s.status.busy = true)
    (hreset : ∀ v : Word, .host (.write .word 0x000004#24 v) ∈ ts → v.getLsbD 0 = false) :
    ∃ k ≤ ts.length, s.CompletesAfter k := by
  induction ts generalizing s with
  | nil => exact ⟨0, Nat.le_refl 0, completesAfter_zero hb (by rw [hts]; rfl) (by
      rw [step_of_no_turns hts, hts, List.drop_nil, ← hts])⟩
  | cons turn ts ih =>
    cases turn with
    | engine => exact ⟨0, Nat.zero_le _, completesAfter_zero hb (by rw [hts]; rfl) (by
        rw [step_of_engine_turn hts, hts]; rfl)⟩
    | host acc =>
      rcases step_pending hb (step_eq s) with ⟨-, h | ⟨ts', h⟩⟩ | ⟨-, v, ts', h, hv⟩ | ⟨acc', ts', o, r, h, hnext⟩
      · rw [hts] at h; cases h
      · rw [hts] at h; cases h
      · rw [hts] at h; cases h
        rw [hreset v (by simp)] at hv; cases hv
      · rw [hts] at h; cases h
        obtain ⟨k, hk, hcompletes⟩ := ih
          (s := { s with status := { s.status with overrun := o }, turns := ts, reply := r }) rfl hb
          fun v hv => hreset v (by simp [hv])
        exact ⟨k + 1, Nat.succ_le_succ hk, completesAfter_succ hts (by rw [step_eq, hnext]) hcompletes⟩

/-- With a soft reset among the turns or not, BUSY falls within one step more than there are turns. -/
theorem pending_busy_falls {s : State} {ts : List Turn} (hts : s.turns = ts) (hb : s.status.busy = true) :
    ∃ k ≤ ts.length + 1, ∃ t : State, Sys2Proof.core.run k s = .next t ∧ t.status.busy = false := by
  induction ts generalizing s with
  | nil =>
    obtain ⟨u, hu, hbusy, -⟩ := engineStep_done s hb
    exact ⟨1, Nat.le_refl 1, u, run_succ ((step_of_no_turns hts).trans hu) 0, hbusy⟩
  | cons turn ts ih =>
    rcases step_pending hb (step_eq s) with ⟨hfall, -⟩ | ⟨hfall, -⟩ | ⟨acc, ts', o, r, h, hnext⟩
    · exact ⟨1, by simp, _, run_succ (step_eq s) 0, hfall⟩
    · exact ⟨1, by simp, _, run_succ (step_eq s) 0, hfall⟩
    · rw [hts] at h; cases h
      obtain ⟨k, hk, t, hrun, hbusy⟩ := ih
        (s := { s with status := { s.status with overrun := o }, turns := ts, reply := r }) rfl hb
      exact ⟨k + 1, Nat.succ_le_succ hk, t, (run_succ (by rw [step_eq, hnext]) k).trans hrun, hbusy⟩

/-- Settles O58, by induction on the turns (`pending_completes`, `pending_busy_falls`). -/
theorem pendingCommandCompletes : Obligations.PendingCommandCompletes := by
  refine ⟨fun s => ⟨_, step_eq s⟩, fun s hb hreset => ?_, fun s hb => ?_⟩
  · obtain ⟨k, hk, t, u, hcompletes⟩ := pending_completes rfl hb hreset
    exact ⟨k, t, u, hk, hcompletes⟩
  · obtain ⟨k, hk, t, hfall⟩ := pending_busy_falls rfl hb
    exact ⟨k, t, hk, hfall⟩

end Sys2Proof.Machine

/-! Every command completes (O7), and what the host's accesses do: bus errors (O47), reads (O48), writes while a command
is pending (O49) and writes to the memories (O53). -/

namespace Sys2Proof.Machine

/-! ### The completion of a command -/

/-- The completion's flags follow ERRCODE (20_memory.md R104); OVERRUN stays when the rule kept it. -/
theorem State.complete_status {s : State} {r : CmdResult}
    (h : ∀ t, r = .ok t → t.status.overrun = s.status.overrun) :
    (s.complete r).status = ⟨false, true, (s.complete r).errcode != 0#8, s.status.overrun⟩ := by
  cases r with
  | ok t => rw [← h t rfl]; rfl
  | error e =>
    have herr : (e.code != 0#8) = true := bne_iff_ne.2 e.code_ne_zero
    rw [State.complete_error, State.raise_errcode, herr]
    rfl

theorem State.complete_errcode_le (s : State) (r : CmdResult) : (s.complete r).errcode.toNat ≤ 6 := by
  cases r with
  | ok t => exact Nat.zero_le 6
  | error e => exact e.code_le

/-- Settles O7: every command is the completion of its rule (`exec_eq`), and no rule writes STATUS (`runOf_host`). -/
theorem everyCommandCompletes : Obligations.EveryCommandCompletes := fun i s =>
  ⟨_, exec_eq i s, State.complete_status fun _ ht => by rw [(runOf_host ht).status], State.complete_errcode_le s _⟩

/-! ### The memory regions -/

/-- The memory regions of R100 are the ranges of the four memories. -/
theorem inMemoryRegion_iff {pixMax a : Nat} :
    inMemoryRegion pixMax a ↔ ∃ sp : Space, ∃ b, a = sp.base + b ∧ b < sp.size pixMax := by
  constructor
  · rintro (⟨hlo, hhi⟩ | ⟨hlo, hhi⟩ | ⟨hlo, hhi⟩ | ⟨hlo, hhi⟩)
    · exact ⟨.txt, a - 0x010000, (Nat.add_sub_cancel' hlo).symm, by simp only [Space.size, Config.txtSize]; omega⟩
    · exact ⟨.cwm, a - 0x020000, (Nat.add_sub_cancel' hlo).symm, by simp only [Space.size, Config.cwmSize]; omega⟩
    · exact ⟨.mxm, a - 0x030000, (Nat.add_sub_cancel' hlo).symm, by simp only [Space.size, Config.mxmSize]; omega⟩
    · exact ⟨.pix, a - 0x400000, (Nat.add_sub_cancel' hlo).symm, by simp only [Space.size]; omega⟩
  · rintro ⟨sp, b, rfl, hb⟩
    rw [inMemoryRegion]
    cases sp <;> simp only [Space.base, Space.size, Config.txtSize, Config.cwmSize, Config.mxmSize] at hb ⊢ <;> omega

/-- More than three unmapped bytes lie between two memories, so a word that starts in a memory ends in a memory exactly
when it ends in the same one. -/
theorem inMemoryRegion_wordEnd {pixMax b : Nat} {sp : Space} (hb : b < sp.size pixMax) :
    inMemoryRegion pixMax (sp.base + b + 3) ↔ b + 4 ≤ sp.size pixMax := by
  rw [inMemoryRegion]
  cases sp <;> simp only [Space.base, Space.size, Config.txtSize, Config.cwmSize, Config.mxmSize] at hb ⊢ <;> omega

theorem Space.base_aligned (sp : Space) : sp.base % 4 = 0 := by cases sp <;> rfl

/-! ### The bus by address -/

theorem placeOf_unmapped {pixMax a : Nat} (hreg : ¬a < 0x100) (hmem : ¬inMemoryRegion pixMax a) :
    placeOf pixMax a = none := by
  cases hp : placeOf pixMax a with
  | none => rfl
  | some place =>
    cases place with
    | reg off => exact absurd (placeOf_reg.1 hp).1 hreg
    | mem sp b => exact absurd (inMemoryRegion_iff.2 ⟨sp, b, placeOf_mem.1 hp⟩) hmem

theorem busTarget_unmapped {pixMax : Nat} {w : Width} {addr : BusAddr} (hreg : ¬addr.toNat < 0x100)
    (hmem : ¬inMemoryRegion pixMax addr.toNat) : busTarget pixMax w addr = .error .unmapped := by
  rw [busTarget, placeOf_unmapped hreg hmem]

theorem busTarget_registerAccess {pixMax : Nat} {w : Width} {addr : BusAddr} (hreg : addr.toNat < 0x100)
    (h : ¬(w = .word ∧ addr.toNat % 4 = 0)) : busTarget pixMax w addr = .error .registerAccess := by
  rw [busTarget, placeOf_reg.2 ⟨hreg, rfl⟩]
  exact if_neg h

theorem busTarget_memByte {pixMax : Nat} {addr : BusAddr} {sp : Space} {a : Nat} (haddr : addr.toNat = sp.base + a)
    (ha : a < sp.size pixMax) : busTarget pixMax .byte addr = .ok (.mem sp a) := by
  rw [busTarget, placeOf_mem.2 ⟨haddr, ha⟩]

theorem busTarget_memHalf {pixMax : Nat} {addr : BusAddr} {sp : Space} {a : Nat} (haddr : addr.toNat = sp.base + a)
    (ha : a < sp.size pixMax) : busTarget pixMax .half addr = .error .halfword := by
  rw [busTarget, placeOf_mem.2 ⟨haddr, ha⟩]

/-- A word access to a memory: aligned and inside it (20_memory.md R103, log 5). -/
theorem busTarget_memWord {pixMax : Nat} {addr : BusAddr} {sp : Space} {a : Nat} (haddr : addr.toNat = sp.base + a)
    (ha : a < sp.size pixMax) : busTarget pixMax .word addr =
      if addr.toNat % 4 = 0 then if a + 4 ≤ sp.size pixMax then .ok (.mem sp a) else .error .unmapped
      else .error .misaligned := by
  rw [busTarget, placeOf_mem.2 ⟨haddr, ha⟩]

/-- A byte inside a memory, and an aligned word that ends inside it, reach the memory (20_memory.md R103). -/
theorem busTarget_memInside {pixMax : Nat} {w : Width} {addr : BusAddr} {sp : Space} {a : Nat}
    (haddr : addr.toNat = sp.base + a)
    (h : (w = .byte ∧ a < sp.size pixMax) ∨ (w = .word ∧ a % 4 = 0 ∧ a + 3 < sp.size pixMax)) :
    busTarget pixMax w addr = .ok (.mem sp a) := by
  rcases h with ⟨rfl, ha⟩ | ⟨rfl, h4, ha⟩
  · exact busTarget_memByte haddr ha
  · have hbase := sp.base_aligned
    have hend : a + 4 ≤ sp.size pixMax := ha
    rw [busTarget_memWord haddr (by omega), if_pos (by omega), if_pos hend]

/-- The accesses to the memory regions that QRE answers reach a memory (20_memory.md R100, R103). -/
theorem busTarget_memRegion {pixMax : Nat} {w : Width} {addr : BusAddr}
    (h : (w = .byte ∧ inMemoryRegion pixMax addr.toNat) ∨
      (w = .word ∧ addr.toNat % 4 = 0 ∧ inMemoryRegion pixMax addr.toNat ∧ inMemoryRegion pixMax (addr.toNat + 3))) :
    ∃ sp a, busTarget pixMax w addr = .ok (.mem sp a) := by
  rcases h with ⟨rfl, hmem⟩ | ⟨rfl, h4, hmem, hend⟩ <;> obtain ⟨sp, a, haddr, ha⟩ := inMemoryRegion_iff.1 hmem
  · exact ⟨sp, a, busTarget_memByte haddr ha⟩
  · rw [haddr, inMemoryRegion_wordEnd ha] at hend
    exact ⟨sp, a, by rw [busTarget_memWord haddr ha, if_pos h4, if_pos hend]⟩

/-! ### Bus errors -/

/-- An access the bus refuses is a fault of the host's step, and the machine goes on (20_memory.md R101, log 9). -/
theorem busErrorOf_of_target {s : State} {acc : Access} {ts : List Turn} {f : Fault} (h : s.turns = .host acc :: ts)
    (hf : accessTarget s.pixMax acc = .error f) : busErrorOf s acc ts f :=
  ⟨hostStep_fault.2 hf, step_next.2 (.inr (.inr (.inr ⟨acc, ts, f, h, hf, rfl⟩)))⟩

theorem hostRead_ne_busError (s : State) (w : Width) (place : Place) (f : Fault) :
    s.hostRead w place ≠ .busError f := by
  cases place with
  | reg off => exact nofun
  | mem sp a => cases w <;> exact nofun

/-- An access the bus lets through is answered by no bus error. -/
theorem accessState_reply_ne_busError (acc : Access) (place : Place) (s : State) (f : Fault) :
    (accessState acc place s).reply ≠ .busError f := by
  cases acc with
  | read w addr => exact hostRead_ne_busError s w place f
  | write w addr v => exact nofun

theorem answered_of_target {s : State} {acc : Access} {ts : List Turn} {place : Place} (h : s.turns = .host acc :: ts)
    (hp : accessTarget s.pixMax acc = .ok place) :
    ∃ t, hostStep acc { s with turns := ts } = .next t ∧ step s = .next t ∧ ∀ f, t.reply ≠ .busError f :=
  ⟨_, hostStep_next.2 ⟨place, hp, rfl⟩, step_next.2 (.inr (.inr (.inl ⟨acc, ts, place, h, hp, rfl⟩))),
    accessState_reply_ne_busError acc place _⟩

/-- Settles O47: the bus looks at an access's width and address only (`accessTarget`), region by region. -/
theorem busErrors : Obligations.BusErrors := by
  intro s acc w a ts h hacc
  obtain ⟨addr, rfl, htarget⟩ :
      ∃ addr : BusAddr, a = addr.toNat ∧ accessTarget s.pixMax acc = busTarget s.pixMax w addr := by
    rcases hacc with ⟨addr, rfl, rfl⟩ | ⟨addr, v, rfl, rfl⟩ <;> exact ⟨addr, rfl, rfl⟩
  refine ⟨?_, ?_, ?_, ?_, ?_, ?_⟩
  · intro hreg hmem
    exact busErrorOf_of_target h (htarget.trans (busTarget_unmapped hreg hmem))
  · intro hreg hw
    exact busErrorOf_of_target h (htarget.trans (busTarget_registerAccess hreg hw))
  · rintro hmem rfl
    obtain ⟨sp, b, haddr, hb⟩ := inMemoryRegion_iff.1 hmem
    exact busErrorOf_of_target h (htarget.trans (busTarget_memHalf haddr hb))
  · rintro hmem rfl h4
    obtain ⟨sp, b, haddr, hb⟩ := inMemoryRegion_iff.1 hmem
    exact busErrorOf_of_target h (by rw [htarget, busTarget_memWord haddr hb, if_neg h4])
  · rintro hmem rfl h4 hend
    obtain ⟨sp, b, haddr, hb⟩ := inMemoryRegion_iff.1 hmem
    rw [haddr, inMemoryRegion_wordEnd hb] at hend
    exact busErrorOf_of_target h (by rw [htarget, busTarget_memWord haddr hb, if_pos h4, if_neg hend])
  · rintro (⟨hreg, hw, h4⟩ | ⟨hmem, hw⟩ | ⟨hmem, hend, hw, h4⟩)
    · exact answered_of_target h (htarget.trans (busTarget_reg.2 ⟨hw, hreg, h4, rfl⟩))
    · obtain ⟨sp, b, hp⟩ := busTarget_memRegion (.inl ⟨hw, hmem⟩)
      exact answered_of_target h (htarget.trans hp)
    · obtain ⟨sp, b, hp⟩ := busTarget_memRegion (.inr ⟨hw, h4, hmem, hend⟩)
      exact answered_of_target h (htarget.trans hp)

/-! ### The bytes of a word -/

/-- Byte `i` of a word, counted from the low one (20_memory.md R108). -/
theorem extractLsb'_byte_eq (v : Word) (i : Nat) : v.extractLsb' (8 * i) 8 = BitVec.ofNat 8 (v.toNat / 256 ^ i) := by
  rw [BitVec.extractLsb', Nat.shiftRight_eq_div_pow, Nat.pow_mul]

theorem length_writeBytes (w : Width) (v : Word) : (writeBytes w v).length = if w = .word then 4 else 1 := by
  cases w <;> rfl

theorem getElem_bytesOfWord {v : Word} {i : Nat} (h : i < (bytesOfWord v).length) :
    (bytesOfWord v)[i] = BitVec.ofNat 8 (v.toNat / 256 ^ i) := by
  rw [← extractLsb'_byte_eq]
  match i, h with
  | 0, _ | 1, _ | 2, _ | 3, _ => rfl

/-- A write moves the low bytes of its word, the low byte first (20_memory.md R108). -/
theorem getElem_writeBytes {w : Width} {v : Word} {i : Nat} (h : i < (writeBytes w v).length) :
    (writeBytes w v)[i] = BitVec.ofNat 8 (v.toNat / 256 ^ i) := by
  cases w with
  | word => exact getElem_bytesOfWord h
  | byte | half =>
    obtain rfl : i = 0 := Nat.lt_one_iff.1 h
    exact extractLsb'_byte_eq v 0

/-- A word gives back the four bytes it is made of, as a command word its fields. -/
theorem bytesOfWord_wordOf (b0 b1 b2 b3 : Byte) : bytesOfWord (wordOf b0 b1 b2 b3) = [b0, b1, b2, b3] :=
  congrArg (fun f : Fields => [f.opc, f.a, f.b, f.c]) (Fields.ofWord_toWord ⟨b0, b1, b2, b3⟩)

/-! ### Reads -/

/-- A read QRE answers changes nothing but the answer (20_memory.md R107). -/
theorem step_read {s : State} {w : Width} {addr : BusAddr} {ts : List Turn} {place : Place}
    (h : s.turns = .host (.read w addr) :: ts) (hp : busTarget s.pixMax w addr = .ok place) :
    step s = .next { s with turns := ts, reply := s.hostRead w place } :=
  step_next.2 (.inr (.inr (.inl ⟨_, ts, place, h, hp, by cases place <;> rfl⟩)))

/-- A read, answered or a bus error, changes nothing but the answer (20_memory.md R101, R107). -/
theorem step_read_frame {s t : State} {w : Width} {addr : BusAddr} {ts : List Turn}
    (h : s.turns = .host (.read w addr) :: ts) (hstep : step s = .next t) :
    t = { s with turns := ts, reply := t.reply } := by
  rw [step_of_host_turn h, hostTurn_eq] at hstep
  cases hstep
  split <;> rfl

theorem step_readReg {s : State} {addr : BusAddr} {ts : List Turn} {r : Reg}
    (h : s.turns = .host (.read .word addr) :: ts) (haddr : addr.toNat = r.offset) :
    step s = .next { s with turns := ts, reply := .wordRead (s.readReg r) } := by
  have hlt := r.offset_lt
  have h4 := r.offset_aligned
  rw [step_read h (busTarget_reg.2 ⟨rfl, by omega, by omega, haddr.symm⟩), State.hostRead,
    Reg.ofOffset_eq_some.2 rfl]

theorem step_read_reserved {s : State} {addr : BusAddr} {ts : List Turn} (h : s.turns = .host (.read .word addr) :: ts)
    (h1 : 0x9C ≤ addr.toNat) (h2 : addr.toNat ≤ 0xFC) (h4 : addr.toNat % 4 = 0) :
    step s = .next { s with turns := ts, reply := .wordRead 0#32 } := by
  rw [step_read h (busTarget_reg.2 ⟨rfl, by omega, h4, rfl⟩), State.hostRead, Reg.ofOffset_reserved h1]

/-- STATUS shows BUSY, DONE, ERR and OVERRUN from bit 0 up, and 0 above them (10_state.md R36). -/
theorem Status.toWord_bits (f : Status) :
    f.toWord.getLsbD 0 = f.busy ∧ f.toWord.getLsbD 1 = f.done ∧ f.toWord.getLsbD 2 = f.err ∧
      f.toWord.getLsbD 3 = f.overrun ∧ ∀ i, 4 ≤ i → f.toWord.getLsbD i = false := by
  have hhigh : ∀ i, 4 ≤ i → f.toWord.getLsbD i = false := by
    intro i hi
    have hlt : f.toWord.toNat < 2 ^ 4 := by
      have := f.busy.toNat_le; have := f.done.toNat_le; have := f.err.toNat_le; have := f.overrun.toNat_le
      rw [Status.toWord_toNat]; omega
    exact Nat.testBit_lt_two_pow (hlt.trans_le (Nat.pow_le_pow_right (by decide) hi))
  obtain ⟨b, d, e, o⟩ := f
  refine ⟨?_, ?_, ?_, ?_, hhigh⟩ <;> cases b <;> cases d <;> cases e <;> cases o <;> rfl

/-- The byte the host sees of a memory: bits [2:0] of MXM's (20_memory.md R111). -/
theorem hostByte_eq (s : State) (sp : Space) (a : Nat) :
    s.hostByte sp a = if sp = .mxm then s.mxm.read a &&& 7#8 else (s.space sp).read a := by cases sp <;> rfl

/-- The four bytes of a word read of a memory (20_memory.md R108). -/
theorem hostRead_word_bytes (s : State) (sp : Space) (a : Nat) :
    ∃ v : Word, s.hostRead .word (.mem sp a) = .wordRead v ∧
      ∀ i < 4, BitVec.ofNat 8 (v.toNat / 256 ^ i) = s.hostByte sp (a + i) := by
  refine ⟨_, rfl, fun i hi => ?_⟩
  rw [← getElem_bytesOfWord hi]
  simp only [bytesOfWord_wordOf]
  match i, hi with
  | 0, _ | 1, _ | 2, _ | 3, _ => rfl

/-- Settles O48: the bus lets the read through (`step_read`), and each place shows its register or bytes. -/
theorem hostReads : Obligations.HostReads := by
  refine ⟨rfl, rfl, fun k => rfl, fun s w addr ts h => ⟨fun t => step_read_frame h, ?_, ?_, ?_, ?_, ?_⟩⟩
  · rintro r rfl haddr
    exact ⟨_, rfl, step_readReg h haddr, readReg_toNat s r⟩
  · rintro rfl haddr
    exact ⟨_, step_readReg (r := .status) h haddr, s.status.toWord_bits⟩
  · rintro rfl h1 h2 h4
    exact step_read_reserved h h1 h2 h4
  · rintro sp a rfl haddr ha
    rw [step_read h (busTarget_memByte haddr ha), ← hostByte_eq]
    rfl
  · rintro sp a rfl haddr ha h4
    obtain ⟨v, hv, hbytes⟩ := hostRead_word_bytes s sp a
    refine ⟨v, ?_, fun i hi => ?_⟩
    · rw [step_read h (busTarget_memInside haddr (.inr ⟨rfl, h4, ha⟩)), hv]
    · rw [hbytes i hi, hostByte_eq]

/-! ### Writes while a command is pending -/

/-- Below the reserved offsets, every aligned one is a register's (10_state.md R33). -/
theorem Reg.exists_offset_eq {off : Nat} (h : off < 0x9C) (h4 : off % 4 = 0) : ∃ r : Reg, off = r.offset := by
  have hall : ∀ k : Fin 39, (Reg.ofOffset (4 * k.val)).isSome = true := by decide
  obtain ⟨r, hr⟩ := Option.isSome_iff_exists.1 (hall ⟨off / 4, by omega⟩)
  exact ⟨r, by rw [← Reg.ofOffset_eq_some.1 hr]; dsimp only; omega⟩

theorem hostWrite_reg_dropped {s : State} {r : Reg} (hb : s.status.busy = true) (hctrl : r ≠ .ctrl)
    (hstatus : r ≠ .status) (w : Width) (v : Word) : s.hostWrite w (.reg r.offset) v = s.overrun := by
  rw [State.hostWrite, Reg.ofOffset_eq_some.2 rfl]
  simp [hb, hctrl, hstatus]

theorem hostWrite_mem_dropped {s : State} (hb : s.status.busy = true) (w : Width) (sp : Space) (a : Nat) (v : Word) :
    s.hostWrite w (.mem sp a) v = s.overrun := by
  rw [State.hostWrite, if_pos hb]

/-- Settles O49: the write reaches a register or a memory, and either one is busy. -/
theorem busyDropsWrites : Obligations.BusyDropsWrites := by
  intro s w addr v ts hb h
  refine ⟨?_, fun hw h1 h2 h4 => by subst hw; exact step_write_reserved h1 h2 h4 h⟩
  rintro (⟨rfl, hlt, h4, hctrl, hstatus⟩ | hmem)
  · obtain ⟨r, hr⟩ := Reg.exists_offset_eq hlt h4
    have hnctrl : r ≠ .ctrl := by rintro rfl; exact hctrl hr
    have hnstatus : r ≠ .status := by rintro rfl; exact hstatus hr
    rw [step_write h (busTarget_reg.2 ⟨rfl, by omega, h4, hr.symm⟩),
      hostWrite_reg_dropped (s := { s with turns := ts }) hb hnctrl hnstatus]
    rfl
  · obtain ⟨sp, a, hp⟩ := busTarget_memRegion hmem
    rw [step_write h hp, hostWrite_mem_dropped (s := { s with turns := ts }) hb]
    rfl

/-! ### Writes to the memories -/

/-- A write to a memory keeps everything but TXT, CWM, MXM and PHASE (20_memory.md R109 to R112). -/
theorem storeBytes_frame (s : State) (sp : Space) (a : Nat) (bs : List Byte) :
    s.storeBytes sp a bs = { s with
      txt := (s.storeBytes sp a bs).txt
      cwm := (s.storeBytes sp a bs).cwm
      mxm := (s.storeBytes sp a bs).mxm
      phase := if sp = .txt then 0#3 else s.phase } := by cases sp <;> rfl

/-- The memory written holds the bits it keeps of each byte. -/
theorem storeBytes_space_self {sp : Space} (h : sp ≠ .pix) (s : State) (a : Nat) (bs : List Byte) :
    (s.storeBytes sp a bs).space sp = (s.space sp).write a (bs.map sp.keep) := by
  cases sp with
  | txt => exact congrArg (s.txt.write a) (List.map_id' bs).symm
  | cwm => exact congrArg (s.cwm.write a) (List.map_id' bs).symm
  | mxm => rfl
  | pix => exact absurd rfl h

/-- The host cannot write PIX (20_memory.md R112). -/
theorem storeBytes_pix (s : State) (a : Nat) (bs : List Byte) : s.storeBytes .pix a bs = s := rfl

theorem storeBytes_space_other {sp q : Space} (h : q ≠ sp) (s : State) (a : Nat) (bs : List Byte) :
    (s.storeBytes sp a bs).space q = s.space q := by
  cases sp <;> cases q
  any_goals contradiction
  all_goals rfl

theorem storeBytes_read_inside {sp : Space} (h : sp ≠ .pix) (s : State) {a i : Nat} {bs : List Byte}
    (hi : i < bs.length) :
    ((s.storeBytes sp a bs).space sp).read (a + i) = sp.keep bs[i] := by
  rw [storeBytes_space_self h, Memory.read_write_inside (by simpa using hi), List.getElem_map]

theorem storeBytes_read_outside {a b : Nat} {bs : List Byte} (hb : b < a ∨ a + bs.length ≤ b) (s : State)
    (sp : Space) :
    ((s.storeBytes sp a bs).space sp).read b = (s.space sp).read b := by
  by_cases h : sp = .pix
  · rw [h, storeBytes_pix]
  · rw [storeBytes_space_self h, Memory.read_write_outside (by simpa using hb)]

/-- The bits of a byte a memory keeps (20_memory.md R111). -/
theorem Space.keep_eq (sp : Space) (b : Byte) : sp.keep b = if sp = .mxm then b &&& 7#8 else b := by cases sp <;> rfl

/-- Settles O53: the step is `storeBytes` of the write's bytes, which changes one memory, in the write's range. -/
theorem hostWritesMemories : Obligations.HostWritesMemories := by
  intro s w sp a addr v ts hb h haddr hw
  have hstep := step_write h (busTarget_memInside haddr hw)
  rw [hostWrite_mem (s := { s with turns := ts }) hb] at hstep
  have hlen := length_writeBytes w v
  refine ⟨_, _, hstep, rfl, ?_, fun i hi hpix => ?_, fun b hb' => ?_, fun q hq => ?_, ?_⟩
  · rw [storeBytes_frame]
  · have hi' : i < (writeBytes w v).length := by rwa [hlen]
    rw [← getElem_writeBytes hi', ← Space.keep_eq]
    exact storeBytes_read_inside hpix { s with turns := ts } hi'
  · exact storeBytes_read_outside (by rwa [hlen]) { s with turns := ts } sp
  · exact storeBytes_space_other hq { s with turns := ts } a _
  · rintro rfl; rfl

end Sys2Proof.Machine

/-! The decoder and the encoder are inverse to each other (O1, O2, O4), and the words the engine runs are those of
30_encoding.md R145 (O3). -/

namespace Sys2Proof

/-! ### The fields of a command (30_encoding.md R142) -/

/-- The four bytes of a word are adjacent, so they join to the word (30_encoding.md R140). -/
@[simp] theorem Fields.toWord_ofWord (w : Word) : (Fields.ofWord w).toWord = w := by
  have hcb : w.extractLsb' 24 8 ++ w.extractLsb' 16 8 = w.extractLsb' 16 16 :=
    BitVec.extractLsb'_append_extractLsb'_eq_extractLsb' rfl
  have hcba : w.extractLsb' 16 16 ++ w.extractLsb' 8 8 = w.extractLsb' 8 24 :=
    BitVec.extractLsb'_append_extractLsb'_eq_extractLsb' rfl
  have hword : w.extractLsb' 8 24 ++ w.extractLsb' 0 8 = w.extractLsb' 0 32 :=
    BitVec.extractLsb'_append_extractLsb'_eq_extractLsb' rfl
  rw [Fields.toWord]
  dsimp only [Fields.ofWord]
  rw [hcb, hcba, hword, BitVec.extractLsb'_eq_self]

/-- The encoder's word for a command is the one with the command's fields. -/
theorem ofWord_eq_fields_iff {w : Word} {i : Instr} : Fields.ofWord w = i.fields ↔ encode i = w := by
  constructor
  · intro h
    rw [encode, ← h, Fields.toWord_ofWord]
  · rintro rfl
    exact Fields.ofWord_toWord i.fields

@[simp] theorem opcodeInstr_fields (i : Instr) : opcodeInstr i.fields = some i := by cases i <;> rfl

@[simp] theorem wellFormed_fields (i : Instr) : i.fields.wellFormed = true := by cases i <;> rfl

theorem Fields.wellFormed_iff {f : Fields} : f.wellFormed = true ↔
    f.opcAssigned = true ∧ f.cZero = true ∧ f.bAllowed = true ∧ f.aAllowed = true := by
  simp only [Fields.wellFormed, Bool.and_eq_true, and_assoc]

/-- The command an opcode names has that opcode. -/
theorem opc_of_opcodeInstr {f : Fields} {i : Instr} (h : opcodeInstr f = some i) : i.fields.opc = f.opc := by
  unfold opcodeInstr at h
  split at h
  case h_21 => cases h
  all_goals
    next hopc =>
      cases h
      exact BitVec.eq_of_toNat_eq hopc.symm

/-- Every assigned opcode names a command (30_encoding.md R142, R143). -/
theorem exists_opcodeInstr {f : Fields} (h : f.opcAssigned = true) : ∃ i, opcodeInstr f = some i := by
  have hall : ∀ opc ∈ assignedOpcodes, ∃ i, opcodeInstr { f with opc := opc } = some i := by
    simp [assignedOpcodes, opcodeInstr]
  exact hall f.opc (List.contains_iff_mem.1 h)

/-- The opcode and the operand bytes its command uses fix a well-formed word's fields (30_encoding.md R144). -/
theorem fields_of_opcodeInstr {f : Fields} {i : Instr} (hi : opcodeInstr f = some i) (hf : f.wellFormed = true) :
    f = i.fields := by
  obtain ⟨-, hc, hb, ha⟩ := Fields.wellFormed_iff.1 hf
  have hopc := opc_of_opcodeInstr hi
  obtain ⟨opc, a, b, c⟩ := f
  subst hopc
  -- with the opcode known, `hi` equates the operand bytes the command has, and `hc`, `hb`, `ha` are zero in the others
  cases i <;> simp_all [opcodeInstr, Instr.fields, Fields.cZero, Fields.bAllowed, Fields.aAllowed, opcodesWithA,
    opcodesWithB]

/-! ### The decoder (30_encoding.md R145) -/

/-- What the decoder accepts: a well-formed word, as the command its opcode names. -/
theorem decodeWord_eq_ok {w : Word} {i : Instr} : decodeWord w = .ok i ↔
    opcodeInstr (Fields.ofWord w) = some i ∧ (Fields.ofWord w).wellFormed = true := by
  rw [Fields.wellFormed_iff]
  unfold decodeWord
  constructor
  · intro h
    dsimp only at h
    split at h
    · cases h
    · next j hj =>
      split_ifs at h with hc hb ha
      cases h
      have hassigned := (Fields.wellFormed_iff.1 (wellFormed_fields i)).1
      rw [Fields.opcAssigned, opc_of_opcodeInstr hj] at hassigned
      exact ⟨hj, hassigned, hc, hb, ha⟩
  · rintro ⟨hi, -, hc, hb, ha⟩
    simp only [hi, hc, hb, ha, if_true]

/-- Decoding is the inverse of encoding, in both directions. -/
theorem decodeWord_eq_ok_iff_encode {w : Word} {i : Instr} : decodeWord w = .ok i ↔ encode i = w := by
  rw [decodeWord_eq_ok, ← ofWord_eq_fields_iff]
  constructor
  · rintro ⟨hi, hf⟩
    exact fields_of_opcodeInstr hi hf
  · intro h
    rw [h]
    exact ⟨opcodeInstr_fields i, wellFormed_fields i⟩

theorem exists_decodeWord_iff {w : Word} : (∃ i, decodeWord w = .ok i) ↔ (Fields.ofWord w).wellFormed = true := by
  simp only [decodeWord_eq_ok, exists_and_right, and_iff_right_iff_imp]
  exact fun h => exists_opcodeInstr (Fields.wellFormed_iff.1 h).1

/-! ### Well-formed words by number -/

theorem contains_iff_toNat_mem {b : Byte} {bs : List Byte} :
    bs.contains b = true ↔ b.toNat ∈ bs.map BitVec.toNat := by
  rw [List.contains_iff_mem, List.mem_map_of_injective BitVec.toNat_injective]

theorem beq_zero_iff_toNat {b : Byte} : (b == 0#8) = true ↔ b.toNat = 0 := by
  rw [beq_iff_eq, ← BitVec.toNat_inj]; rfl

/-- A field of a word as a number: the byte from bit `k` up (30_encoding.md R140). -/
theorem toNat_extractByte (w : Word) (k : Nat) : (w.extractLsb' k 8).toNat = w.toNat / 2 ^ k % 2 ^ 8 := by
  rw [BitVec.extractLsb'_toNat, Nat.shiftRight_eq_div_pow]

end Sys2Proof

namespace Sys2Proof.Machine

/-- The words R145 lists by number are the well-formed ones. -/
theorem isCommandWord_iff_wellFormed {w : Word} : isCommandWord w ↔ (Fields.ofWord w).wellFormed = true := by
  have hc : w.toNat / 2 ^ 24 % 2 ^ 8 = w.toNat / 2 ^ 24 := by omega
  have hopc : w.toNat / 2 ^ 0 % 2 ^ 8 = w.toNat % 2 ^ 8 := by rw [Nat.pow_zero, Nat.div_one]
  rw [Fields.wellFormed_iff, Fields.opcAssigned, Fields.cZero, Fields.bAllowed, Fields.aAllowed, Bool.or_eq_true,
    Bool.or_eq_true, contains_iff_toNat_mem, contains_iff_toNat_mem, contains_iff_toNat_mem, beq_zero_iff_toNat,
    beq_zero_iff_toNat, beq_zero_iff_toNat]
  simp only [Fields.ofWord, toNat_extractByte, hc, hopc]
  rfl

/-- The decoder accepts exactly the words R145 lists. -/
theorem isCommandWord_iff_decodes {w : Word} : isCommandWord w ↔ ∃ i, decodeWord w = .ok i :=
  isCommandWord_iff_wellFormed.trans exists_decodeWord_iff.symm

theorem engineStep_illegal {s : State} (h : s.status.busy = true) (hd : ¬∃ i, decodeWord s.cmd = .ok i) :
    engineStep s = .next (s.raise .illegalCommand) := by
  cases he : decodeWord s.cmd with
  | ok i => exact absurd ⟨i, he⟩ hd
  | error e => rw [engineStep, if_pos h, he]

/-- Settles O1: the fields of an encoded command are the command's (`Fields.ofWord_toWord`), which pass every check. -/
theorem decodeOfEncode : Obligations.DecodeOfEncode := fun _ => decodeWord_eq_ok_iff_encode.2 rfl

/-- Settles O2: a well-formed word has the fields of the command its opcode names (`fields_of_opcodeInstr`). -/
theorem encodeOfDecode : Obligations.EncodeOfDecode := fun _ _ => decodeWord_eq_ok_iff_encode.1

/-- Settles O3: the decoder accepts exactly R145's words, and the engine's step follows the decoder. -/
theorem illegalWordsRaise : Obligations.IllegalWordsRaise := by
  intro s hb
  rw [isCommandWord_iff_decodes]
  refine ⟨engineStep_illegal hb, ?_⟩
  rintro ⟨i, hi⟩
  exact ⟨i, hi, engineStep_run hb hi⟩

/-- Settles O4: each word is evaluated. -/
theorem workedEncodings : Obligations.WorkedEncodings := by
  unfold Obligations.WorkedEncodings
  decide

end Sys2Proof.Machine

/-! The arithmetic of GF(256) (O12 to O15). Doubling is additive, so the product of R199 is additive in both factors and
commutes with doubling; the powers of α, which are all the nonzero bytes, then carry the product to the sum of the
exponents, from which the laws follow. -/

namespace Sys2Proof.Machine

/-! ### Doubling and the product by bits (41_gf.md R199) -/

theorem gfDouble_eq_xor (a : Byte) : gfDouble a = (a <<< 1) ^^^ (if a.getLsbD 7 then 0x1D#8 else 0#8) := by
  unfold gfDouble
  split <;> simp

@[simp] theorem gfDouble_zero : gfDouble 0#8 = 0#8 := rfl

/-- What a bit adds: two equal summands cancel. -/
theorem ite_xor_eq (p q : Bool) (x : Byte) :
    (if p ^^ q then x else 0#8) = (if p then x else 0#8) ^^^ (if q then x else 0#8) := by
  cases p <;> cases q <;> simp

theorem gfDouble_xor (a b : Byte) : gfDouble (a ^^^ b) = gfDouble a ^^^ gfDouble b := by
  simp only [gfDouble_eq_xor, BitVec.shiftLeft_xor_distrib, BitVec.getLsbD_xor, ite_xor_eq]
  ac_rfl

theorem gfDouble_ne_zero : ∀ a : Byte, a ≠ 0#8 → gfDouble a ≠ 0#8 := by decide +kernel

/-- The product of R199 over the bits `ks` of `b`, from a product `acc` of the bits above them. -/
def polyMulFrom (a b : Byte) (ks : List Nat) (acc : Byte) : Byte :=
  ks.foldl (fun acc k => if b.getLsbD k then gfDouble acc ^^^ a else gfDouble acc) acc

theorem gfPolyMul_eq (a b : Byte) : gfPolyMul a b = polyMulFrom a b [7, 6, 5, 4, 3, 2, 1, 0] 0#8 := rfl

theorem polyMulFrom_cons (a b : Byte) (k : Nat) (ks : List Nat) (acc : Byte) :
    polyMulFrom a b (k :: ks) acc = polyMulFrom a b ks (gfDouble acc ^^^ (if b.getLsbD k then a else 0#8)) := by
  rw [polyMulFrom, List.foldl_cons, polyMulFrom]
  congr 1
  split <;> simp

theorem polyMulFrom_double (a b : Byte) (ks : List Nat) (acc : Byte) :
    polyMulFrom (gfDouble a) b ks (gfDouble acc) = gfDouble (polyMulFrom a b ks acc) := by
  induction ks generalizing acc with
  | nil => rfl
  | cons k ks ih =>
    rw [polyMulFrom_cons, polyMulFrom_cons, ← ih, gfDouble_xor, apply_ite gfDouble, gfDouble_zero]

theorem polyMulFrom_xor_right (a b c : Byte) (ks : List Nat) (x y : Byte) :
    polyMulFrom a (b ^^^ c) ks (x ^^^ y) = polyMulFrom a b ks x ^^^ polyMulFrom a c ks y := by
  induction ks generalizing x y with
  | nil => rfl
  | cons k ks ih =>
    rw [polyMulFrom_cons, polyMulFrom_cons, polyMulFrom_cons, ← ih, gfDouble_xor, BitVec.getLsbD_xor, ite_xor_eq]
    congr 1
    ac_rfl

theorem gfPolyMul_double (a b : Byte) : gfPolyMul (gfDouble a) b = gfDouble (gfPolyMul a b) :=
  polyMulFrom_double a b _ 0#8

theorem gfPolyMul_xor_right (a b c : Byte) : gfPolyMul a (b ^^^ c) = gfPolyMul a b ^^^ gfPolyMul a c :=
  polyMulFrom_xor_right a b c _ 0#8 0#8

@[simp] theorem gfPolyMul_zero_left (b : Byte) : gfPolyMul 0#8 b = 0#8 := by simp [gfPolyMul]

@[simp] theorem gfPolyMul_zero_right (a : Byte) : gfPolyMul a 0#8 = 0#8 := by simp [gfPolyMul]

@[simp] theorem gfPolyMul_one_left : ∀ b : Byte, gfPolyMul 1#8 b = b := by decide +kernel

/-! ### The powers of α (41_gf.md R200) -/

theorem alphaPow_succ (i : Nat) : alphaPow (i + 1) = gfDouble (alphaPow i) := Function.iterate_succ_apply' ..

theorem alphaPow_ne_zero (i : Nat) : alphaPow i ≠ 0#8 := by
  induction i with
  | zero => decide
  | succ i ih => rw [alphaPow_succ]; exact gfDouble_ne_zero _ ih

theorem gfPolyMul_alphaPow (i : Nat) (b : Byte) : gfPolyMul (alphaPow i) b = gfDouble^[i] b := by
  induction i with
  | zero => exact gfPolyMul_one_left b
  | succ i ih => rw [alphaPow_succ, gfPolyMul_double, ih, Function.iterate_succ_apply']

/-- The product adds exponents. -/
theorem alphaPow_add (i j : Nat) : alphaPow (i + j) = gfPolyMul (alphaPow i) (alphaPow j) := by
  rw [gfPolyMul_alphaPow]
  exact Function.iterate_add_apply ..

/-- R200's recurrence, which the antilog table keeps entry by entry. -/
theorem gfExpTable_succ : ∀ i < 255, gfExpTable (i + 1) = gfDouble (gfExpTable i) := by decide +kernel

theorem gfExpTable_eq_alphaPow {i : Nat} (h : i ≤ 255) : gfExpTable i = alphaPow i := by
  induction i with
  | zero => rfl
  | succ i ih => rw [gfExpTable_succ i h, ih (by omega), alphaPow_succ]

theorem alphaPow_add_255 (i : Nat) : alphaPow (i + 255) = alphaPow i := by
  have h : alphaPow 255 = alphaPow 0 := (gfExpTable_eq_alphaPow (Nat.le_refl 255)).symm
  rw [alphaPow_add, h, ← alphaPow_add, Nat.add_zero]

/-- The powers of α repeat after 255. -/
theorem alphaPow_mod (i : Nat) : alphaPow (i % 255) = alphaPow i :=
  Function.Periodic.map_mod_nat alphaPow_add_255 i

theorem gfExpTable_mod (i : Nat) : gfExpTable (i % 255) = alphaPow i := by
  rw [gfExpTable_eq_alphaPow (by omega), alphaPow_mod]

theorem gfExp_eq_alphaPow (i : Byte) : gfExp i = alphaPow (i.toNat % 255) := by
  rw [alphaPow_mod, gfExp, gfExpTable_eq_alphaPow (by omega)]

/-! ### The logarithm (41_gf.md R201) -/

/-- The log table inverts the antilog table, entry by entry. -/
theorem gfLogTable_spec : ∀ a : Byte, a ≠ 0#8 → gfLogTable a ≤ 254 ∧ gfExpTable (gfLogTable a) = a := by
  decide +kernel

theorem gfLogTable_gfExpTable : ∀ i < 255, gfLogTable (gfExpTable i) = i := by decide +kernel

theorem alphaPow_gfLogTable {a : Byte} (h : a ≠ 0#8) : alphaPow (gfLogTable a) = a := by
  obtain ⟨hle, hexp⟩ := gfLogTable_spec a h
  rw [← gfExpTable_eq_alphaPow (by omega), hexp]

theorem gfLogTable_alphaPow {k : Nat} (h : k ≤ 254) : gfLogTable (alphaPow k) = k := by
  rw [← gfExpTable_eq_alphaPow (by omega), gfLogTable_gfExpTable k (by omega)]

theorem exists_alphaPow {a : Byte} (h : a ≠ 0#8) : ∃ i, alphaPow i = a := ⟨_, alphaPow_gfLogTable h⟩

/-! ### The product (41_gf.md R202) -/

/-- The product by logarithms is the product of R199: exponents add. -/
theorem gfMul_eq_gfPolyMul (a b : Byte) : gfMul a b = gfPolyMul a b := by
  unfold gfMul
  split
  case isTrue h => rcases h with rfl | rfl <;> simp
  case isFalse h =>
    obtain ⟨ha, hb⟩ := not_or.1 h
    rw [gfExpTable_mod, alphaPow_add, alphaPow_gfLogTable ha, alphaPow_gfLogTable hb]

theorem gfPolyMul_comm (a b : Byte) : gfPolyMul a b = gfPolyMul b a := by
  simp only [← gfMul_eq_gfPolyMul, gfMul, or_comm (a := a = 0#8), Nat.add_comm (gfLogTable a)]

theorem gfPolyMul_assoc (a b c : Byte) : gfPolyMul (gfPolyMul a b) c = gfPolyMul a (gfPolyMul b c) := by
  by_cases ha : a = 0#8
  · simp [ha]
  by_cases hb : b = 0#8
  · simp [hb]
  by_cases hc : c = 0#8
  · simp [hc]
  obtain ⟨i, rfl⟩ := exists_alphaPow ha
  obtain ⟨j, rfl⟩ := exists_alphaPow hb
  obtain ⟨k, rfl⟩ := exists_alphaPow hc
  simp only [← alphaPow_add, Nat.add_assoc]

/-! ### The quotient (41_gf.md R203) -/

theorem gfPolyMul_quotient {a b : Byte} (ha : a ≠ 0#8) (hb : b ≠ 0#8) :
    gfPolyMul (gfExpTable ((gfLogTable a + 255 - gfLogTable b) % 255)) b = a := by
  have hle : gfLogTable b ≤ 254 := (gfLogTable_spec b hb).1
  calc gfPolyMul (gfExpTable ((gfLogTable a + 255 - gfLogTable b) % 255)) b
    _ = alphaPow (gfLogTable a + 255 - gfLogTable b + gfLogTable b) := by
      rw [gfExpTable_mod, alphaPow_add, alphaPow_gfLogTable hb]
    _ = alphaPow (gfLogTable a) := by rw [Nat.sub_add_cancel (by omega), alphaPow_add_255]
    _ = a := alphaPow_gfLogTable ha

/-! ### The four commands (41_gf.md R210 to R213) -/

theorem exec_gfMul (a b : Byte) (s : State) :
    exec (.gfMul a b) s = .next ({ s with result := gfPolyMul a b } : State).succeed :=
  exec_ok (withResult_ok.2 ⟨_, congrArg Except.ok (gfMul_eq_gfPolyMul a b), rfl⟩)

theorem exec_gfDiv_ok {a b q : Byte} (h : gfDiv a b = .ok q) (s : State) :
    exec (.gfDiv a b) s = .next ({ s with result := q } : State).succeed :=
  exec_ok (withResult_ok.2 ⟨q, h, rfl⟩)

theorem exec_gfDiv_error {a b : Byte} {e : ErrorCode} (h : gfDiv a b = .error e) (s : State) :
    exec (.gfDiv a b) s = .next (s.raise e) :=
  exec_error (show s.withResult (gfDiv a b) = .error e by rw [h]; rfl)

theorem exec_gfExp (i : Byte) (s : State) :
    exec (.gfExp i) s = .next ({ s with result := alphaPow (i.toNat % 255) } : State).succeed :=
  exec_ok (withResult_ok.2 ⟨_, congrArg Except.ok (gfExp_eq_alphaPow i), rfl⟩)

theorem exec_gfLog {a : Byte} (h : a ≠ 0#8) (s : State) :
    exec (.gfLog a) s = .next ({ s with result := BitVec.ofNat 8 (gfLogTable a) } : State).succeed :=
  exec_ok (withResult_ok.2 ⟨_, if_neg h, rfl⟩)

/-- Settles O12: every nonzero byte is a power of α and the product adds exponents, which gives the product by
logarithms, commutativity and associativity; it is additive in its second factor bit by bit. -/
theorem gfMulIsFieldProduct : Obligations.GfMulIsFieldProduct :=
  ⟨exec_gfMul, fun a b => (gfMul_eq_gfPolyMul a b).symm, gfPolyMul_comm, gfPolyMul_assoc, gfPolyMul_xor_right,
    gfPolyMul_one_left, gfPolyMul_zero_left⟩

/-- Settles O13: the quotient's exponent and the divisor's add up to the numerator's, modulo 255. -/
theorem gfDivIsFieldQuotient : Obligations.GfDivIsFieldQuotient := by
  intro a b s
  refine ⟨?_, ?_, fun hb => ?_⟩
  · rintro rfl rfl
    exact exec_gfDiv_ok rfl s
  · rintro rfl ha
    exact exec_gfDiv_error (by rw [gfDiv, if_pos rfl, if_neg ha]) s
  by_cases ha : a = 0#8
  · refine ⟨0#8, exec_gfDiv_ok (by rw [gfDiv, if_neg hb, if_pos ha]) s, ?_, fun _ => rfl, fun h => absurd ha h⟩
    rw [gfPolyMul_zero_left, ha]
  · exact ⟨_, exec_gfDiv_ok (by rw [gfDiv, if_neg hb, if_neg ha]) s, gfPolyMul_quotient ha hb, fun h => absurd h ha,
      fun _ => rfl⟩

/-- Settles O14: the antilog table holds the powers of α, which repeat after 255. -/
theorem gfExpIsPowerOfAlpha : Obligations.GfExpIsPowerOfAlpha :=
  ⟨fun i s => ⟨exec_gfExp i s, alphaPow_ne_zero _⟩, rfl, rfl⟩

/-- Settles O15: the log table inverts the powers of α below 255, so the exponent is the only one. -/
theorem gfLogIsExponent : Obligations.GfLogIsExponent := by
  refine ⟨fun a s ha => ?_, fun s => exec_error rfl⟩
  have hle : gfLogTable a ≤ 254 := (gfLogTable_spec a ha).1
  have hr : (BitVec.ofNat 8 (gfLogTable a)).toNat = gfLogTable a := by
    rw [BitVec.toNat_ofNat, Nat.mod_eq_of_lt (by omega)]
  refine ⟨BitVec.ofNat 8 (gfLogTable a), hr.trans_le hle, exec_gfLog ha s, ?_, ?_⟩
  · rw [hr, alphaPow_gfLogTable ha]
  · rintro k hk rfl
    rw [hr, gfLogTable_alphaPow hk]

end Sys2Proof.Machine

/-! The Reed-Solomon encoder (O16 to O20). Polynomials over GF(256) add coefficient by coefficient, and their values are
additive; the generator grows by one factor, whose root is the next power of α. One step of the division subtracts a
multiple of the generator, from which the quotient follows step by step along the data. -/

namespace Sys2Proof.Machine

/-! ### Sums of polynomials (42_rs.md R230) -/

theorem gfPolyMul_xor_left (a b c : Byte) : gfPolyMul (a ^^^ b) c = gfPolyMul a c ^^^ gfPolyMul b c := by
  rw [gfPolyMul_comm, gfPolyMul_xor_right, gfPolyMul_comm c a, gfPolyMul_comm c b]

@[simp] theorem gfPolyMul_one_right (a : Byte) : gfPolyMul a 1#8 = a := by rw [gfPolyMul_comm, gfPolyMul_one_left]

@[simp] theorem length_polyAdd (p q : List Byte) : (polyAdd p q).length = min p.length q.length :=
  List.length_zipWith

@[simp] theorem polyAdd_nil_left (q : List Byte) : polyAdd [] q = [] := rfl

@[simp] theorem polyAdd_nil_right (p : List Byte) : polyAdd p [] = [] := List.zipWith_nil_right

@[simp] theorem polyAdd_cons_cons (a b : Byte) (p q : List Byte) :
    polyAdd (a :: p) (b :: q) = (a ^^^ b) :: polyAdd p q := rfl

theorem polyAdd_append {p q : List Byte} (h : p.length = q.length) (p' q' : List Byte) :
    polyAdd (p ++ p') (q ++ q') = polyAdd p q ++ polyAdd p' q' :=
  List.zipWith_append h

theorem polyAdd_assoc (p q r : List Byte) : polyAdd (polyAdd p q) r = polyAdd p (polyAdd q r) := by
  apply List.ext_getElem <;> simp [polyAdd, min_assoc, BitVec.xor_assoc]

theorem polyAdd_polyAdd_polyAdd_comm (p q r s : List Byte) :
    polyAdd (polyAdd p q) (polyAdd r s) = polyAdd (polyAdd p r) (polyAdd q s) := by
  apply List.ext_getElem
  · simp only [length_polyAdd]
    ac_rfl
  · intro i h1 h2
    simp only [polyAdd, List.getElem_zipWith]
    ac_rfl

theorem polyAdd_zeros_right {p : List Byte} {n : Nat} (h : p.length = n) : polyAdd p (List.replicate n 0#8) = p := by
  apply List.ext_getElem <;> simp [polyAdd, h]

theorem polyAdd_zeros_left {p : List Byte} {n : Nat} (h : p.length = n) : polyAdd (List.replicate n 0#8) p = p := by
  apply List.ext_getElem <;> simp [polyAdd, h]

theorem getD_polyAdd {p q : List Byte} (h : p.length = q.length) (j : Nat) :
    (polyAdd p q).getD j 0#8 = p.getD j 0#8 ^^^ q.getD j 0#8 := by
  rcases Nat.lt_or_ge j q.length with hj | hj
  · simp [polyAdd, h, hj]
  · simp [polyAdd, h, hj]

theorem map_gfPolyMul_xor (a b : Byte) (p : List Byte) :
    p.map (gfPolyMul (a ^^^ b)) = polyAdd (p.map (gfPolyMul a)) (p.map (gfPolyMul b)) := by
  rw [polyAdd, List.zipWith_map, List.zipWith_self]
  exact List.map_congr_left fun c _ => gfPolyMul_xor_left a b c

theorem map_gfPolyMul_zero (p : List Byte) : p.map (gfPolyMul 0#8) = List.replicate p.length 0#8 := by
  rw [funext gfPolyMul_zero_left, List.map_const']

theorem map_gfPolyMul_one (p : List Byte) : p.map (gfPolyMul 1#8) = p := by
  rw [funext gfPolyMul_one_left, List.map_id']

/-! ### Coefficients -/

/-- A constant term 0 appended leaves the coefficients at their indices. -/
theorem getD_append_zero (p : List Byte) (j : Nat) : (p ++ [0#8]).getD j 0#8 = p.getD j 0#8 := by
  rcases Nat.lt_or_ge j p.length with hj | hj
  · rw [List.getD_append _ _ _ _ hj]
  · rw [List.getD_append_right _ _ _ _ hj]
    cases j - p.length <;> simp [hj]

theorem getD_tail (p : List Byte) (j : Nat) : p.tail.getD j 0#8 = p.getD (j + 1) 0#8 := by cases p <;> rfl

theorem getD_map_gfPolyMul (a : Byte) (p : List Byte) (j : Nat) :
    (p.map (gfPolyMul a)).getD j 0#8 = gfPolyMul a (p.getD j 0#8) := by
  simpa using List.getD_map (l := p) (d := 0#8) (n := j) (gfPolyMul a)

/-! ### Values -/

@[simp] theorem polyEval_nil (x : Byte) : polyEval [] x = 0#8 := rfl

/-- Horner's step, from the constant term. -/
theorem polyEval_append_singleton (p : List Byte) (c x : Byte) :
    polyEval (p ++ [c]) x = gfPolyMul (polyEval p x) x ^^^ c := List.foldl_concat ..

@[simp] theorem polyEval_zero_cons (p : List Byte) (x : Byte) : polyEval (0#8 :: p) x = polyEval p x := by
  simp [polyEval]

theorem polyEval_polyAdd {p q : List Byte} (h : p.length = q.length) (x : Byte) :
    polyEval (polyAdd p q) x = polyEval p x ^^^ polyEval q x := by
  induction p using List.reverseRecOn generalizing q with
  | nil =>
    simp [List.eq_nil_of_length_eq_zero h.symm]
  | append_singleton p a ih =>
    have hne : q ≠ [] := List.ne_nil_of_length_eq_add_one (h.symm.trans List.length_append)
    obtain ⟨q, b, rfl⟩ := (List.eq_nil_or_concat' q).resolve_left hne
    have hpq : p.length = q.length := by simpa using h
    rw [polyAdd_append hpq, polyAdd_cons_cons, polyAdd_nil_left, polyEval_append_singleton, ih hpq, gfPolyMul_xor_left,
      polyEval_append_singleton, polyEval_append_singleton]
    ac_rfl

theorem polyEval_map_gfPolyMul (a : Byte) (p : List Byte) (x : Byte) :
    polyEval (p.map (gfPolyMul a)) x = gfPolyMul a (polyEval p x) := by
  induction p using List.reverseRecOn with
  | nil => exact (gfPolyMul_zero_right a).symm
  | append_singleton p c ih =>
    rw [List.map_append, List.map_singleton, polyEval_append_singleton, ih, polyEval_append_singleton,
      gfPolyMul_xor_right, gfPolyMul_assoc]

theorem polyEval_append_zeros_of_root {p : List Byte} {x : Byte} (h : polyEval p x = 0#8) (k : Nat) :
    polyEval (p ++ List.replicate k 0#8) x = 0#8 := by
  induction k with
  | zero => simpa using h
  | succ k ih =>
    rw [List.replicate_succ', ← List.append_assoc, polyEval_append_singleton, ih, gfPolyMul_zero_left, BitVec.xor_zero]

/-! ### Products -/

theorem length_polyMul (q : List Byte) {g : List Byte} (hg : g ≠ []) :
    (polyMul q g).length = q.length + (g.length - 1) := by
  have hpos := List.length_pos_of_ne_nil hg
  induction q with
  | nil => simp [polyMul]
  | cons a q ih =>
    simp only [polyMul, length_polyAdd, List.length_append, List.length_map, List.length_replicate, List.length_cons, ih]
    omega

/-- A multiple of a polynomial is 0 at its roots. -/
theorem polyEval_polyMul_of_root {g : List Byte} (hg : g ≠ []) {x : Byte} (hx : polyEval g x = 0#8) (q : List Byte) :
    polyEval (polyMul q g) x = 0#8 := by
  induction q with
  | nil => exact polyEval_append_zeros_of_root (p := []) rfl _
  | cons a q ih =>
    have hpos := List.length_pos_of_ne_nil hg
    have hlen : (g.map (gfPolyMul a) ++ List.replicate q.length 0#8).length = (0#8 :: polyMul q g).length := by
      simp only [List.length_append, List.length_map, List.length_replicate, List.length_cons, length_polyMul q hg]
      omega
    have ha : polyEval (g.map (gfPolyMul a)) x = 0#8 := by rw [polyEval_map_gfPolyMul, hx, gfPolyMul_zero_right]
    rw [polyMul, polyEval_polyAdd hlen, polyEval_zero_cons, ih, polyEval_append_zeros_of_root ha, BitVec.xor_zero]

/-! ### The generator (42_rs.md R231) -/

/-- One factor more: g_m times x, and g_m times the root α^m. -/
theorem genPoly_succ (m : Nat) :
    genPoly (m + 1) = polyAdd (genPoly m ++ [0#8]) (0#8 :: (genPoly m).map (gfPolyMul (alphaPow m))) := by
  have hroot : (gfMul · (alphaPow m)) = gfPolyMul (alphaPow m) :=
    funext fun c => by rw [gfMul_eq_gfPolyMul, gfPolyMul_comm]
  rw [genPoly, gfExpTable_mod, hroot, polyAdd]

theorem genPoly_ne_nil (n : Nat) : genPoly n ≠ [] := List.ne_nil_of_length_eq_add_one (length_genPoly n)

theorem getD_genPoly_succ (m j : Nat) : (genPoly (m + 1)).getD j 0#8 =
    (genPoly m).getD j 0#8 ^^^ (0#8 :: (genPoly m).map (gfPolyMul (alphaPow m))).getD j 0#8 := by
  rw [genPoly_succ, getD_polyAdd (by simp), getD_append_zero]

/-- The generator is monic. -/
theorem getD_genPoly_zero (n : Nat) : (genPoly n).getD 0 0#8 = 1#8 := by
  induction n with
  | zero => rfl
  | succ m ih =>
    rw [getD_genPoly_succ, ih, List.getD_cons_zero, BitVec.xor_zero]

theorem genPoly_eq_cons (n : Nat) : genPoly n = 1#8 :: (genPoly n).tail := by
  obtain ⟨c, g, h⟩ := List.exists_cons_of_ne_nil (genPoly_ne_nil n)
  have hc := getD_genPoly_zero n
  rw [h] at hc ⊢
  exact congrArg (· :: g) hc

theorem getD_genPoly_succ_succ (m j : Nat) : (genPoly (m + 1)).getD (j + 1) 0#8 =
    (genPoly m).getD (j + 1) 0#8 ^^^ gfPolyMul ((genPoly m).getD j 0#8) (alphaPow (m % 255)) := by
  rw [getD_genPoly_succ, List.getD_cons_succ, getD_map_gfPolyMul, gfPolyMul_comm, alphaPow_mod]

theorem rootProduct_succ (m : Nat) (x : Byte) :
    rootProduct (m + 1) x = gfPolyMul (rootProduct m x) (x ^^^ alphaPow m) := by
  rw [rootProduct, List.range_succ, List.foldl_concat, rootProduct]

theorem polyEval_genPoly (n : Nat) (x : Byte) : polyEval (genPoly n) x = rootProduct n x := by
  induction n with
  | zero => simp [genPoly, polyEval, rootProduct]
  | succ m ih =>
    calc polyEval (genPoly (m + 1)) x
      _ = polyEval (genPoly m ++ [0#8]) x ^^^ polyEval (0#8 :: (genPoly m).map (gfPolyMul (alphaPow m))) x := by
        rw [genPoly_succ, polyEval_polyAdd (by simp)]
      _ = gfPolyMul (rootProduct m x) x ^^^ gfPolyMul (alphaPow m) (rootProduct m x) := by
        rw [polyEval_append_singleton, polyEval_zero_cons, polyEval_map_gfPolyMul, ih, BitVec.xor_zero]
      _ = rootProduct (m + 1) x := by
        rw [rootProduct_succ, gfPolyMul_xor_right, gfPolyMul_comm (alphaPow m)]

theorem rootProduct_alphaPow {n j : Nat} (h : j < n) : rootProduct n (alphaPow j) = 0#8 := by
  induction n with
  | zero => omega
  | succ m ih =>
    rw [rootProduct_succ]
    rcases Nat.lt_succ_iff_lt_or_eq.1 h with hlt | rfl
    · rw [ih hlt, gfPolyMul_zero_left]
    · rw [BitVec.xor_self, gfPolyMul_zero_right]

theorem alphaPow_injOn {i j : Nat} (hi : i < 255) (hj : j < 255) (h : alphaPow i = alphaPow j) : i = j := by
  rw [← gfLogTable_alphaPow (Nat.le_of_lt_succ hi), h, gfLogTable_alphaPow (Nat.le_of_lt_succ hj)]

/-! ### The division (42_rs.md R233) -/

/-- A step of the division, over the product of R199. -/
theorem rsStep_eq (tail e : List Byte) (c : Byte) :
    rsStep tail e c = polyAdd (e.tail ++ [0#8]) (tail.map (gfPolyMul (c ^^^ e.getD 0 0#8))) := by
  have hd : e.headD 0#8 = e.getD 0 0#8 := by cases e <;> rfl
  simp only [rsStep, polyAdd, List.zipWith_map_right, hd, gfMul_eq_gfPolyMul, gfPolyMul_comm]

theorem rsRem_concat (d : List Byte) (c : Byte) (n : Nat) :
    rsRem (d ++ [c]) n = rsStep (genPoly n).tail (rsRem d n) c := List.foldl_concat ..

theorem getD_rsRem_concat (d : List Byte) (c : Byte) {n j : Nat} (hj : j < n) : (rsRem (d ++ [c]) n).getD j 0#8 =
    (rsRem d n).getD (j + 1) 0#8 ^^^
      gfPolyMul ((genPoly n).getD (j + 1) 0#8) (c ^^^ (rsRem d n).getD 0 0#8) := by
  have hlen : ((rsRem d n).tail ++ [0#8]).length = (genPoly n).tail.length := by simp; omega
  rw [rsRem_concat, rsStep_eq, getD_polyAdd (by rw [hlen, List.length_map]), getD_append_zero, getD_tail,
    getD_map_gfPolyMul, getD_tail, gfPolyMul_comm]

/-- A step adds the multiple of the generator that leaves the data codeword in the highest place. -/
theorem polyAdd_multiple_eq_cons_rsStep {tail e : List Byte} (h : e.length = tail.length) (c : Byte) :
    polyAdd (e ++ [0#8]) ((1#8 :: tail).map (gfPolyMul (c ^^^ e.getD 0 0#8))) = c :: rsStep tail e c := by
  rw [rsStep_eq, List.map_cons, gfPolyMul_one_right]
  cases e with
  | nil =>
    rw [List.eq_nil_of_length_eq_zero h.symm]
    simp
  | cons x e =>
    rw [List.getD_cons_zero, List.cons_append, polyAdd_cons_cons, BitVec.xor_comm c x, ← BitVec.xor_assoc,
      BitVec.xor_self, BitVec.zero_xor]
    rfl

/-- The division from any partial remainder: it, moved past the data, and a multiple of the generator give the data
followed by the remainder. -/
theorem exists_quotient_from {n : Nat} (d : List Byte) {e : List Byte} (he : e.length = n) :
    ∃ q : List Byte, q.length = d.length ∧ polyAdd (e ++ List.replicate d.length 0#8) (polyMul q (genPoly n)) =
      d ++ d.foldl (rsStep (genPoly n).tail) e := by
  induction d generalizing e with
  | nil => exact ⟨[], rfl, by simp [polyMul, polyAdd_zeros_right he]⟩
  | cons c d ih =>
    have htail : e.length = (genPoly n).tail.length := by simp [he]
    obtain ⟨q, hq, hdiv⟩ := ih (by rw [length_rsStep htail c, ← htail, he])
    have hstep := polyAdd_multiple_eq_cons_rsStep htail c
    rw [← genPoly_eq_cons] at hstep
    refine ⟨(c ^^^ e.getD 0 0#8) :: q, congrArg (· + 1) hq, ?_⟩
    calc polyAdd (e ++ List.replicate (d.length + 1) 0#8) (polyMul ((c ^^^ e.getD 0 0#8) :: q) (genPoly n))
      _ = polyAdd (polyAdd (e ++ [0#8] ++ List.replicate d.length 0#8)
            ((genPoly n).map (gfPolyMul (c ^^^ e.getD 0 0#8)) ++ List.replicate d.length 0#8))
            (0#8 :: polyMul q (genPoly n)) := by
        rw [polyMul, polyAdd_assoc, hq, List.append_assoc]
        rfl
      _ = polyAdd (c :: (rsStep (genPoly n).tail e c ++ List.replicate d.length 0#8)) (0#8 :: polyMul q (genPoly n)) := by
        rw [polyAdd_append (by simp [he]), hstep, polyAdd_zeros_right List.length_replicate, List.cons_append]
      _ = c :: d ++ (c :: d).foldl (rsStep (genPoly n).tail) e := by
        rw [polyAdd_cons_cons, BitVec.xor_zero, hdiv]
        rfl

theorem exists_quotient (d : List Byte) (n : Nat) :
    ∃ q : List Byte, q.length = d.length ∧ polyMul q (genPoly n) = d ++ rsRem d n := by
  obtain ⟨q, hq, h⟩ := exists_quotient_from d (List.length_replicate (n := n) (a := 0#8))
  refine ⟨q, hq, ?_⟩
  rw [rsRem, ← h, List.replicate_append_replicate, polyAdd_zeros_left]
  rw [length_polyMul q (genPoly_ne_nil n), length_genPoly, hq, Nat.add_sub_cancel, Nat.add_comm]

/-! ### The laws of the remainder (42_rs.md R234) -/

theorem rsStep_zeros {tail : List Byte} {n : Nat} (h : tail.length = n) (c : Byte) :
    rsStep tail (List.replicate n 0#8) c = tail.map (gfPolyMul c) := by
  rw [rsStep_eq]
  cases n with
  | zero => simp [List.eq_nil_of_length_eq_zero h]
  | succ n =>
    rw [List.tail_replicate, Nat.add_sub_cancel, ← List.replicate_succ', polyAdd_zeros_left (by simpa using h),
      List.getD_replicate _ (Nat.succ_pos n), BitVec.xor_zero]

theorem rsRem_singleton (c : Byte) (n : Nat) : rsRem [c] n = (genPoly n).tail.map (gfPolyMul c) :=
  rsStep_zeros (by simp) c

theorem rsRem_zeros (k n : Nat) : rsRem (List.replicate k 0#8) n = List.replicate n 0#8 := by
  induction k with
  | zero => rfl
  | succ k ih =>
    rw [List.replicate_succ', rsRem_concat, ih, rsStep_zeros (by simp)]
    rw [map_gfPolyMul_zero, List.length_tail, length_genPoly, Nat.add_sub_cancel]

theorem rsRem_append (d d' : List Byte) (n : Nat) :
    rsRem (d ++ d') n = d'.foldl (rsStep (genPoly n).tail) (rsRem d n) := List.foldl_append

theorem rsRem_zeros_append (k : Nat) (d : List Byte) (n : Nat) : rsRem (List.replicate k 0#8 ++ d) n = rsRem d n := by
  rw [rsRem_append, rsRem_zeros, rsRem]

theorem rsStep_polyAdd {e e' : List Byte} (h : e.length = e'.length) (tail : List Byte) (c c' : Byte) :
    rsStep tail (polyAdd e e') (c ^^^ c') = polyAdd (rsStep tail e c) (rsStep tail e' c') := by
  have htail : (polyAdd e e').tail ++ [0#8] = polyAdd (e.tail ++ [0#8]) (e'.tail ++ [0#8]) := by
    rw [polyAdd_append (by simp [h]), polyAdd, List.tail_zipWith]
    rfl
  have hfactor : c ^^^ c' ^^^ (polyAdd e e').getD 0 0#8 = (c ^^^ e.getD 0 0#8) ^^^ (c' ^^^ e'.getD 0 0#8) := by
    rw [getD_polyAdd h]
    ac_rfl
  rw [rsStep_eq, rsStep_eq, rsStep_eq, htail, hfactor, map_gfPolyMul_xor, polyAdd_polyAdd_polyAdd_comm]

theorem rsFold_polyAdd {tail d d' e e' : List Byte} (hd : d.length = d'.length) (he : e.length = tail.length)
    (he' : e'.length = tail.length) : (polyAdd d d').foldl (rsStep tail) (polyAdd e e') =
      polyAdd (d.foldl (rsStep tail) e) (d'.foldl (rsStep tail) e') := by
  induction d generalizing d' e e' with
  | nil =>
    rw [List.eq_nil_of_length_eq_zero hd.symm]
    rfl
  | cons c d ih =>
    obtain ⟨c', d', rfl⟩ := List.exists_cons_of_length_eq_add_one hd.symm
    rw [polyAdd_cons_cons, List.foldl_cons, rsStep_polyAdd (he.trans he'.symm),
      ih (Nat.succ.inj hd) (length_rsStep he c) (length_rsStep he' c')]
    rfl

theorem rsRem_polyAdd {d d' : List Byte} (h : d.length = d'.length) (n : Nat) :
    rsRem (polyAdd d d') n = polyAdd (rsRem d n) (rsRem d' n) := by
  have hlen : (List.replicate n 0#8).length = (genPoly n).tail.length := by simp
  have hsum := rsFold_polyAdd h hlen hlen
  rwa [polyAdd_zeros_left List.length_replicate] at hsum

/-- The data followed by the remainder is 0 at the roots of the generator. -/
theorem polyEval_append_rsRem (d : List Byte) {n j : Nat} (hj : j < n) :
    polyEval (d ++ rsRem d n) (alphaPow j) = 0#8 := by
  obtain ⟨q, -, hq⟩ := exists_quotient d n
  have hroot : polyEval (genPoly n) (alphaPow j) = 0#8 := by rw [polyEval_genPoly, rootProduct_alphaPow hj]
  rw [← hq, polyEval_polyMul_of_root (genPoly_ne_nil n) hroot]

/-! ### RS_GEN and RS_ENC (42_rs.md R240, R241) -/

theorem runRsGen_error {n : Byte} {s : State} (h : Config.cwmSize < s.dst.toNat + (n.toNat + 1)) :
    runRsGen n s = .error .invalidParameter :=
  if_neg fun hfit => Nat.not_lt_of_le (of_decide_eq_true hfit) h

theorem runRsEnc_error {n : Byte} {s : State}
    (h : Config.cwmSize < s.src.toNat + s.len.toNat ∨ Config.cwmSize < s.dst.toNat + n.toNat) :
    runRsEnc n s = .error .invalidParameter :=
  if_neg fun hfit => by
    simp only [cwmRangeFits, Bool.and_eq_true, decide_eq_true_eq] at hfit
    obtain ⟨hsrc, hdst⟩ := hfit
    exact h.elim (Nat.not_lt_of_le hsrc) (Nat.not_lt_of_le hdst)

theorem Memory.read_write_getD {m : Memory} {a : Nat} {bs : List Byte} {i : Nat} (h : i < bs.length) :
    (m.write a bs).read (a + i) = bs.getD i 0#8 := by
  rw [Memory.read_write_inside h, List.getD_eq_getElem _ _ h]

/-- Settles O16: by induction, each step multiplies by one factor; the logarithm tells the roots apart. -/
theorem generatorPolynomial : Obligations.GeneratorPolynomial := by
  refine ⟨rfl, fun n => ⟨length_genPoly n, ?_, polyEval_genPoly n⟩,
    fun m => ⟨getD_genPoly_zero (m + 1), fun j h1 _ => ?_, ?_⟩, fun i j => alphaPow_injOn⟩
  · rw [genPoly_eq_cons]
    rfl
  · obtain ⟨k, rfl⟩ := Nat.exists_eq_add_of_le' h1
    exact getD_genPoly_succ_succ m k
  · have hout : (genPoly m).getD (m + 1) 0#8 = 0#8 := List.getD_eq_default _ _ (length_genPoly m).le
    rw [getD_genPoly_succ_succ, hout, BitVec.zero_xor]

/-- Settles O17: the rule writes the n + 1 coefficients with one write at DST. -/
theorem rsGenWritesGenerator : Obligations.RsGenWritesGenerator := by
  intro n s
  refine ⟨fun hfit => ⟨_, exec_ok (runRsGen_ok.2 ⟨hfit, rfl⟩), rfl, fun j hj => ?_, fun a ha => ?_⟩,
    fun hfit => exec_error (runRsGen_error hfit)⟩
  · exact Memory.read_write_getD (by rw [length_genPoly]; omega)
  · exact Memory.read_write_outside (by rw [length_genPoly]; omega)

/-- Settles O18: each step adds a multiple of the generator, so the quotient grows by one codeword per step. -/
theorem remainderDividesOut : Obligations.RemainderDividesOut :=
  ⟨fun d n => ⟨length_rsRem d n, exists_quotient d n⟩, fun _ => rfl, fun d c _ _ hj => getD_rsRem_concat d c hj⟩

/-- Settles O19: the division is linear and starts from zeros; the rest follows from the quotient. -/
theorem remainderLaws : Obligations.RemainderLaws := by
  refine ⟨fun d => List.eq_nil_of_length_eq_zero (length_rsRem d 0), fun _ => rfl, rsRem_zeros,
    fun _ _ n h => rsRem_polyAdd h n, rsRem_zeros_append, fun n => ?_, exists_quotient,
    fun d _ _ hj => polyEval_append_rsRem d hj⟩
  rw [rsRem_singleton, map_gfPolyMul_one]

/-- Settles O20: the rule reads the input from the state before and writes the remainder with one write at DST. -/
theorem rsEncWritesRemainder : Obligations.RsEncWritesRemainder := by
  intro n s
  refine ⟨fun hsrc hdst => ⟨_, exec_ok (runRsEnc_ok.2 ⟨⟨hsrc, hdst⟩, rfl⟩), rfl, fun j hj => ?_, fun a ha => ?_⟩,
    fun hfit => exec_error (runRsEnc_error hfit)⟩
  · rw [← Memory.readBytes_eq]
    exact Memory.read_write_getD (by rw [length_rsRem]; exact hj)
  · exact Memory.read_write_outside (by rw [length_rsRem]; exact ha)

end Sys2Proof.Machine

/-! The data encoder (O21 to O27). The fit test is the bit count alone: a count indicator is wide enough for every text
whose bits fit, so D and the required bits decide which versions hold a text. The bitstream is read group by group from
the text's own groups, and the codewords bit by bit from the bitstream. -/

namespace Sys2Proof.Machine

/-! ### The text and its class (43_data_encoder.md R259 to R263) -/

theorem State.text_eq (s : State) : s.text = (List.range s.textLen.toNat).map s.txt.read := by
  simp only [State.text, State.textBytes, Memory.readBytes_eq, Nat.zero_add]

@[simp] theorem State.length_text (s : State) : s.text.length = s.textLen.toNat := Memory.length_readBytes ..

theorem State.all_text_iff {s : State} {p : Byte → Bool} :
    s.text.all p = true ↔ ∀ i < s.textLen.toNat, p (s.txt.read i) = true := by
  simp only [State.text_eq, List.all_map, List.all_eq_true, List.mem_range, Function.comp_apply]

theorem isNum_iff {b : Byte} : isNum b = true ↔ 0x30 ≤ b.toNat ∧ b.toNat ≤ 0x39 := by
  simp only [isNum, Bool.and_eq_true, decide_eq_true_eq]

/-- The value of R261 is the place in the alphabet, checked byte by byte. -/
theorem alnumVal_eq_idxOf? : ∀ b : Byte, alnumVal b = alnumAlphabet.idxOf? b := by decide +kernel

theorem isAlnum_iff {b : Byte} : isAlnum b = true ↔ b ∈ alnumAlphabet := by
  rw [isAlnum, alnumVal_eq_idxOf?, List.isSome_idxOf?]

theorem alnumValue_eq_idxOf {b : Byte} (h : b ∈ alnumAlphabet) : alnumValue b = alnumAlphabet.idxOf b := by
  obtain ⟨k, hk⟩ := Option.isSome_iff_exists.1 (List.isSome_idxOf?.2 h)
  rw [alnumValue, alnumVal_eq_idxOf?, List.idxOf_eq_getD_idxOf?, hk]
  rfl

theorem isAlnum_of_isNum {b : Byte} (h : isNum b = true) : isAlnum b = true := by
  rw [isAlnum, alnumVal, if_pos (isNum_iff.1 h)]
  rfl

theorem modeOf_of_numeric {t : List Byte} (h : t.all isNum = true) : modeOf t = .numeric := if_pos h

theorem modeOf_of_alphanumeric {t : List Byte} (hnum : t.all isNum ≠ true) (halnum : t.all isAlnum = true) :
    modeOf t = .alphanumeric := (if_neg hnum).trans (if_pos halnum)

theorem modeOf_of_byte {t : List Byte} (h : t.all isAlnum ≠ true) : modeOf t = .byte := by
  have hnum : t.all isNum ≠ true := fun hall =>
    h (List.all_eq_true.2 fun b hb => isAlnum_of_isNum (List.all_eq_true.1 hall b hb))
  exact (if_neg hnum).trans (if_neg h)

/-! ### The MODE codes (10_state.md R48) -/

theorem Mode.ofCode_eq_none_iff : ∀ {c : BitVec 4}, Mode.ofCode c = none ↔ c ∉ [0b0001#4, 0b0010#4, 0b0100#4] := by
  decide

/-! ### The data codewords by version and level (43_data_encoder.md R281) -/

theorem EcLevel.mem_levels (lev : EcLevel) : lev ∈ [EcLevel.l, .m, .q, .h] := by cases lev <;> decide

theorem dataCodewords_lt_succ {v : Nat} (h1 : 1 ≤ v) (h40 : v < 40) (lev : EcLevel) :
    dataCodewords v lev < dataCodewords (v + 1) lev := by
  have table : ∀ k ∈ [EcLevel.l, .m, .q, .h], ∀ u < 40, 1 ≤ u → dataCodewords u k < dataCodewords (u + 1) k := by
    decide +kernel
  exact table lev lev.mem_levels v h40 h1

theorem dataCodewords_level_falls {v : Nat} (h1 : 1 ≤ v) (h40 : v ≤ 40) :
    dataCodewords v .m < dataCodewords v .l ∧ dataCodewords v .q < dataCodewords v .m ∧
      dataCodewords v .h < dataCodewords v .q := by
  have table : ∀ u < 41, 1 ≤ u → dataCodewords u .m < dataCodewords u .l ∧ dataCodewords u .q < dataCodewords u .m ∧
      dataCodewords u .h < dataCodewords u .q := by decide +kernel
  exact table v (Nat.lt_succ_of_le h40) h1

theorem dataCodewords_le_l {v : Nat} (h1 : 1 ≤ v) (h40 : v ≤ 40) (lev : EcLevel) :
    dataCodewords v lev ≤ dataCodewords v .l := by
  have hfalls := dataCodewords_level_falls h1 h40
  cases lev <;> omega

theorem dataCodewords_h_le {v : Nat} (h1 : 1 ≤ v) (h40 : v ≤ 40) (lev : EcLevel) :
    dataCodewords v .h ≤ dataCodewords v lev := by
  have hfalls := dataCodewords_level_falls h1 h40
  cases lev <;> omega

theorem dataCodewords_mono {u v : Nat} (h1 : 1 ≤ u) (huv : u ≤ v) (h40 : v ≤ 40) (lev : EcLevel) :
    dataCodewords u lev ≤ dataCodewords v lev := by
  induction v, huv using Nat.le_induction with
  | base => exact Nat.le_refl _
  | succ v huv ih => exact (ih (by omega)).trans (dataCodewords_lt_succ (by omega) (by omega) lev).le

/-! ### The required bits (43_data_encoder.md R270, R275, R276) -/

/-- Ten bits for three digits are the fewest per byte in Numeric mode. -/
theorem le_dataBits_numeric (n : Nat) : 10 * n ≤ 3 * dataBits .numeric n := by
  have hmod : n % 3 < 3 := Nat.mod_lt n (by decide)
  have hrest : 10 * (n % 3) ≤ 3 * [0, 4, 7].getD (n % 3) 0 := by
    generalize n % 3 = r at hmod ⊢
    revert r
    decide
  rw [dataBits]
  omega

/-- Eleven bits for two characters are the fewest per byte in Alphanumeric mode. -/
theorem le_dataBits_alphanumeric (n : Nat) : 11 * n ≤ 2 * dataBits .alphanumeric n := by
  rw [dataBits]
  omega

theorem ccBits_succ (m : Mode) (v : Nat) : ccBits m v ≤ ccBits m (v + 1) ∧ ccBits m (v + 1) ≤ ccBits m v + 8 := by
  cases m <;> simp only [ccBits] <;> split_ifs <;> omega

theorem reqBits_le_succ (m : Mode) (n v : Nat) : reqBits m n v ≤ reqBits m n (v + 1) := by
  have hcc := ccBits_succ m v
  rw [reqBits, reqBits]
  omega

theorem reqBits_succ_le (m : Mode) (n v : Nat) : reqBits m n (v + 1) ≤ reqBits m n v + 8 := by
  have hcc := ccBits_succ m v
  rw [reqBits, reqBits]
  omega

/-! ### The fit test (43_data_encoder.md R274, R280, R281) -/

/-- The most data codewords, at L, among the versions of each count indicator width (R270). -/
theorem dataCodewords_le_of_width {v : Nat} (h1 : 1 ≤ v) (h40 : v ≤ 40) (lev : EcLevel) :
    dataCodewords v lev ≤ if v ≤ 9 then 232 else if v ≤ 26 then 1370 else 2956 := by
  refine (dataCodewords_le_l h1 h40 lev).trans ?_
  split_ifs with h9 h26
  · exact dataCodewords_mono h1 h9 (by decide) .l
  · exact dataCodewords_mono h1 h26 (by decide) .l
  · exact dataCodewords_mono h1 h40 (Nat.le_refl 40) .l

/-- The count indicator is wide enough for every text whose bits fit. -/
theorem count_lt_of_reqBits_le {m : Mode} {n v : Nat} {lev : EcLevel} (h1 : 1 ≤ v) (h40 : v ≤ 40)
    (h : reqBits m n v ≤ 8 * dataCodewords v lev) : n < 2 ^ ccBits m v := by
  have hD := dataCodewords_le_of_width h1 h40 lev
  rw [reqBits] at h
  cases m with
  | numeric =>
    have hn := le_dataBits_numeric n
    rw [ccBits] at h ⊢
    split_ifs at h hD ⊢ <;> omega
  | alphanumeric =>
    have hn := le_dataBits_alphanumeric n
    rw [ccBits] at h ⊢
    split_ifs at h hD ⊢ <;> omega
  | byte =>
    rw [ccBits, dataBits] at h
    rw [ccBits]
    split_ifs at h hD ⊢ <;> omega

theorem fits_iff_of_legal {m : Mode} {n v : Nat} {lev : EcLevel} (h1 : 1 ≤ v) (h40 : v ≤ 40) :
    fits m n v lev = true ↔ reqBits m n v ≤ 8 * dataCodewords v lev :=
  fits_iff.trans ⟨And.left, fun h => ⟨h, count_lt_of_reqBits_le h1 h40 h⟩⟩

/-- One version more costs at most 8 bits and brings at least one codeword. -/
theorem fits_succ {m : Mode} {n v : Nat} {lev : EcLevel} (h1 : 1 ≤ v) (h40 : v < 40) (h : fits m n v lev = true) :
    fits m n (v + 1) lev = true := by
  rw [fits_iff_of_legal h1 h40.le] at h
  rw [fits_iff_of_legal (v := v + 1) (by omega) h40]
  have hreq := reqBits_succ_le m n v
  have hD := dataCodewords_lt_succ h1 h40 lev
  omega

theorem fits_mono {m : Mode} {n u v : Nat} {lev : EcLevel} (h1 : 1 ≤ u) (huv : u ≤ v) (h40 : v ≤ 40)
    (h : fits m n u lev = true) : fits m n v lev = true := by
  induction v, huv using Nat.le_induction with
  | base => exact h
  | succ v huv ih => exact fits_succ (by omega) (by omega) (ih (by omega))

theorem fits_false_of_40 {m : Mode} {n v : Nat} {lev : EcLevel} (h1 : 1 ≤ v) (h40 : v ≤ 40)
    (h : fits m n 40 lev = false) : fits m n v lev = false :=
  Bool.eq_false_iff.2 fun hv => Bool.eq_false_iff.1 h (fits_mono h1 h40 (Nat.le_refl 40) hv)

theorem selectVersion_eq_none_iff {m : Mode} {n : Nat} {lev : EcLevel} :
    selectVersion m n lev = none ↔ fits m n 40 lev = false := by
  simp only [selectVersion, List.find?_range'_eq_none, Bool.not_eq_true']
  exact ⟨fun h => h 40 (by decide) (by decide), fun h v h1 h41 => fits_false_of_40 h1 (by omega) h⟩

theorem selectVersion_eq_some {m : Mode} {n v : Nat} {lev : EcLevel} (h1 : 1 ≤ v) (h40 : v ≤ 40)
    (hfits : reqBits m n v ≤ 8 * dataCodewords v lev)
    (hleast : ∀ u, 1 ≤ u → u < v → 8 * dataCodewords u lev < reqBits m n u) : selectVersion m n lev = some v := by
  rw [selectVersion, List.find?_range'_eq_some]
  refine ⟨(fits_iff_of_legal h1 h40).2 hfits, List.mem_range'_1.2 ⟨h1, by omega⟩, fun u hu huv => ?_⟩
  rw [Bool.not_eq_true', Bool.eq_false_iff, ne_eq, fits_iff_of_legal hu (by omega), Nat.not_le]
  exact hleast u hu huv

/-! ### What the commands raise (43_data_encoder.md R262, R285, R300) -/

theorem runDeAnalyze_error {s : State} (h : Config.txtSize < s.textBytes) :
    runDeAnalyze s = .error .invalidParameter :=
  if_neg fun hlen => Nat.not_lt_of_le (of_decide_eq_true hlen) h

theorem runDeVersion_invalidParameter {s : State} (hphase : 1 ≤ s.phaseNat)
    (h : Mode.ofCode s.mode = none ∨ Config.txtSize < s.textBytes) : runDeVersion s = .error .invalidParameter := by
  rw [runDeVersion, if_neg (Nat.not_lt.2 hphase)]
  cases hm : Mode.ofCode s.mode with
  | none => rfl
  | some m =>
    refine if_neg fun hlen => ?_
    rcases h with h | h
    · exact nomatch hm.symm.trans h
    · exact Nat.not_lt_of_le (of_decide_eq_true hlen) h

theorem runDeVersion_inputTooLarge {s : State} {m : Mode} (hphase : 1 ≤ s.phaseNat) (hm : Mode.ofCode s.mode = some m)
    (hlen : s.textBytes ≤ Config.txtSize) (hnone : selectVersion m s.textBytes s.ecLevel = none) :
    runDeVersion s = .error .inputTooLarge := by
  simp only [runDeVersion, if_neg (Nat.not_lt.2 hphase), hm, legalTextLen, hlen, decide_true, if_true, hnone]

theorem runDePack_illegal {s : State} (hphase : 2 ≤ s.phaseNat)
    (h : Mode.ofCode s.mode = none ∨ legalVersion s.versionNat = false ∨ Config.txtSize < s.textBytes) :
    runDePack s = .error .invalidParameter := by
  rw [runDePack, if_neg (Nat.not_lt.2 hphase)]
  cases hm : Mode.ofCode s.mode with
  | none => rfl
  | some m =>
    refine if_neg fun hlegal => ?_
    rw [Bool.and_eq_true, legalTextLen, decide_eq_true_eq] at hlegal
    obtain ⟨hv, hlen⟩ := hlegal
    rcases h with h | h | h
    · exact nomatch hm.symm.trans h
    · exact nomatch hv.symm.trans h
    · exact Nat.not_lt_of_le hlen h

theorem runDePack_outOfClass {s : State} {m : Mode} (hphase : 2 ≤ s.phaseNat) (hm : Mode.ofCode s.mode = some m)
    (hclass : textInClass m s.text ≠ true) : runDePack s = .error .invalidParameter := by
  simp only [runDePack, if_neg (Nat.not_lt.2 hphase), hm, if_neg hclass, ite_self]

theorem runDePack_inputTooLarge {s : State} {m : Mode} (hphase : 2 ≤ s.phaseNat) (hm : Mode.ofCode s.mode = some m)
    (hv : legalVersion s.versionNat = true) (hlen : s.textBytes ≤ Config.txtSize) (hclass : textInClass m s.text = true)
    (hfits : fits m s.textBytes s.versionNat s.ecLevel ≠ true) : runDePack s = .error .inputTooLarge := by
  simp only [runDePack, if_neg (Nat.not_lt.2 hphase), hm, hv, legalTextLen, hlen, decide_true, Bool.and_self, if_true,
    hclass, if_neg hfits]

/-! ### The value of bits (00_scope.md R12) -/

theorem bitsValue_concat (s : List Bool) (b : Bool) : bitsValue (s ++ [b]) = 2 * bitsValue s + b.toNat := by
  simp only [bitsValue, List.foldl_append, List.foldl_cons, List.foldl_nil]

theorem bitsOf_succ (x w : Nat) : bitsOf x (w + 1) = bitsOf (x / 2) w ++ [x.testBit 0] := by
  simp only [bitsOf, List.range_succ, List.map_append, List.map_cons, List.map_nil, Nat.add_sub_cancel, Nat.sub_self]
  congr 1
  refine List.map_congr_left fun i hi => ?_
  rw [List.mem_range] at hi
  rw [Nat.testBit_div_two, show w - 1 - i + 1 = w - i by omega]

theorem bitsValue_bitsOf {x w : Nat} (h : x < 2 ^ w) : bitsValue (bitsOf x w) = x := by
  induction w generalizing x with
  | zero =>
    obtain rfl : x = 0 := by simpa using h
    rfl
  | succ w ih =>
    rw [bitsOf_succ, bitsValue_concat, ih (by rw [pow_succ] at h; omega), Nat.testBit_zero]
    rcases Nat.mod_two_eq_zero_or_one x with hx | hx <;> simp [hx] <;> omega

theorem testBit_bitsValue {s : List Bool} {p : Nat} (h : p < s.length) :
    (bitsValue s).testBit (s.length - 1 - p) = s.getD p false := by
  induction s using List.reverseRecOn generalizing p with
  | nil => cases h
  | append_singleton s b ih =>
    rw [List.length_append, List.length_singleton] at h
    rw [bitsValue_concat, ← Nat.bit_val, List.length_append, List.length_singleton, Nat.add_sub_cancel]
    rcases Nat.lt_or_ge p s.length with hp | hp
    · rw [List.getD_append _ _ _ _ hp, ← ih hp, show s.length - p = s.length - 1 - p + 1 by omega, Nat.testBit_bit_succ]
    · obtain rfl : p = s.length := by omega
      rw [List.getD_append_right _ _ _ _ hp, Nat.sub_self, Nat.testBit_bit_zero]
      rfl

/-! ### Groups of the text (43_data_encoder.md R291 to R293) -/

theorem drop_eq_getD_cons {t : List Byte} {i : Nat} (h : i < t.length) : t.drop i = t.getD i 0#8 :: t.drop (i + 1) := by
  rw [List.drop_eq_getElem_cons h, List.getD_eq_getElem _ _ h]

theorem getD_mem {t : List Byte} {i : Nat} (h : i < t.length) : t.getD i 0#8 ∈ t := by
  rw [List.getD_eq_getElem _ _ h]
  exact List.getElem_mem h

theorem numericBits_drop {t : List Byte} {i : Nat} (h : 3 * i ≤ t.length) :
    (numericBits t).drop (10 * i) = numericBits (t.drop (3 * i)) := by
  induction i generalizing t with
  | zero => rfl
  | succ i ih =>
    match t, h with
    | a :: b :: c :: t, h =>
      simp only [List.length_cons] at h
      rw [numericBits, show 10 * (i + 1) = 10 + 10 * i by omega, ← List.drop_drop,
        List.drop_left' (length_bitsOf ..), ih (by omega)]
      rfl

theorem alnumBits_drop {t : List Byte} {i : Nat} (h : 2 * i ≤ t.length) :
    (alnumBits t).drop (11 * i) = alnumBits (t.drop (2 * i)) := by
  induction i generalizing t with
  | zero => rfl
  | succ i ih =>
    match t, h with
    | a :: b :: t, h =>
      simp only [List.length_cons] at h
      rw [alnumBits, show 11 * (i + 1) = 11 + 11 * i by omega, ← List.drop_drop,
        List.drop_left' (length_bitsOf ..), ih (by omega)]
      rfl

theorem byteBits_cons (b : Byte) (t : List Byte) : byteBits (b :: t) = bitsOf b.toNat 8 ++ byteBits t := rfl

theorem byteBits_drop {t : List Byte} {i : Nat} (h : i ≤ t.length) :
    (byteBits t).drop (8 * i) = byteBits (t.drop i) := by
  induction i generalizing t with
  | zero => rfl
  | succ i ih =>
    match t, h with
    | a :: t, h =>
      rw [byteBits_cons, show 8 * (i + 1) = 8 + 8 * i by omega, ← List.drop_drop,
        List.drop_left' (length_bitsOf ..), ih (Nat.le_of_succ_le_succ h)]
      rfl

theorem digit_getD_le {t : List Byte} (ht : ∀ b ∈ t, 0x30 ≤ b.toNat ∧ b.toNat ≤ 0x39) {i : Nat} (h : i < t.length) :
    digit (t.getD i 0#8) ≤ 9 := by
  have hb := ht _ (getD_mem h)
  rw [digit]
  omega

theorem idxOf_alnumAlphabet_lt {b : Byte} (h : b ∈ alnumAlphabet) : alnumAlphabet.idxOf b < 45 :=
  List.idxOf_lt_length_of_mem h

/-- Group `i` of three digits (R291). -/
theorem numericBits_group {t : List Byte} (ht : ∀ b ∈ t, 0x30 ≤ b.toNat ∧ b.toNat ≤ 0x39) {i : Nat}
    (h : i < t.length / 3) : bitsValue (((numericBits t).drop (10 * i)).take 10) =
      100 * digit (t.getD (3 * i) 0#8) + 10 * digit (t.getD (3 * i + 1) 0#8) + digit (t.getD (3 * i + 2) 0#8) := by
  have ha := digit_getD_le ht (i := 3 * i) (by omega)
  have hb := digit_getD_le ht (i := 3 * i + 1) (by omega)
  have hc := digit_getD_le ht (i := 3 * i + 2) (by omega)
  rw [numericBits_drop (by omega), drop_eq_getD_cons (i := 3 * i) (by omega),
    drop_eq_getD_cons (i := 3 * i + 1) (by omega), drop_eq_getD_cons (i := 3 * i + 2) (by omega), numericBits,
    List.take_left' (length_bitsOf ..), bitsValue_bitsOf (by omega)]

/-- The last two digits, when two are left over (R291). -/
theorem numericBits_last_two {t : List Byte} (ht : ∀ b ∈ t, 0x30 ≤ b.toNat ∧ b.toNat ≤ 0x39) (h : t.length % 3 = 2) :
    bitsValue ((numericBits t).drop (10 * (t.length / 3))) =
      10 * digit (t.getD (t.length - 2) 0#8) + digit (t.getD (t.length - 1) 0#8) := by
  have ha := digit_getD_le ht (i := t.length - 2) (by omega)
  have hb := digit_getD_le ht (i := t.length - 1) (by omega)
  rw [numericBits_drop (by omega), show 3 * (t.length / 3) = t.length - 2 by omega, drop_eq_getD_cons (by omega),
    show t.length - 2 + 1 = t.length - 1 by omega, drop_eq_getD_cons (by omega), List.drop_of_length_le (by omega),
    numericBits, bitsValue_bitsOf (by omega)]

/-- The last digit, when one is left over (R291). -/
theorem numericBits_last_one {t : List Byte} (ht : ∀ b ∈ t, 0x30 ≤ b.toNat ∧ b.toNat ≤ 0x39) (h : t.length % 3 = 1) :
    bitsValue ((numericBits t).drop (10 * (t.length / 3))) = digit (t.getD (t.length - 1) 0#8) := by
  have ha := digit_getD_le ht (i := t.length - 1) (by omega)
  rw [numericBits_drop (by omega), show 3 * (t.length / 3) = t.length - 1 by omega, drop_eq_getD_cons (by omega),
    List.drop_of_length_le (by omega), numericBits, bitsValue_bitsOf (by omega)]

/-- Group `i` of two characters (R292). -/
theorem alnumBits_group {t : List Byte} (ht : ∀ b ∈ t, b ∈ alnumAlphabet) {i : Nat} (h : i < t.length / 2) :
    bitsValue (((alnumBits t).drop (11 * i)).take 11) =
      45 * alnumAlphabet.idxOf (t.getD (2 * i) 0#8) + alnumAlphabet.idxOf (t.getD (2 * i + 1) 0#8) := by
  have ha := ht _ (getD_mem (i := 2 * i) (by omega))
  have hb := ht _ (getD_mem (i := 2 * i + 1) (by omega))
  have ha45 := idxOf_alnumAlphabet_lt ha
  have hb45 := idxOf_alnumAlphabet_lt hb
  rw [alnumBits_drop (by omega), drop_eq_getD_cons (i := 2 * i) (by omega),
    drop_eq_getD_cons (i := 2 * i + 1) (by omega), alnumBits, List.take_left' (length_bitsOf ..),
    alnumValue_eq_idxOf ha, alnumValue_eq_idxOf hb, bitsValue_bitsOf (by omega)]

/-- The last character, when one is left over (R292). -/
theorem alnumBits_last {t : List Byte} (ht : ∀ b ∈ t, b ∈ alnumAlphabet) (h : t.length % 2 = 1) :
    bitsValue ((alnumBits t).drop (11 * (t.length / 2))) = alnumAlphabet.idxOf (t.getD (t.length - 1) 0#8) := by
  have ha := ht _ (getD_mem (i := t.length - 1) (by omega))
  have ha45 := idxOf_alnumAlphabet_lt ha
  rw [alnumBits_drop (by omega), show 2 * (t.length / 2) = t.length - 1 by omega, drop_eq_getD_cons (by omega),
    List.drop_of_length_le (by omega), alnumBits, alnumValue_eq_idxOf ha, bitsValue_bitsOf (by omega)]

/-- Byte `i` (R293). -/
theorem byteBits_group {t : List Byte} {i : Nat} (h : i < t.length) :
    bitsValue (((byteBits t).drop (8 * i)).take 8) = (t.getD i 0#8).toNat := by
  rw [byteBits_drop h.le, drop_eq_getD_cons h, byteBits_cons, List.take_left' (length_bitsOf ..),
    bitsValue_bitsOf (BitVec.isLt _)]

theorem bitstream_drop_four (t : List Byte) (m : Mode) (v : Nat) :
    (bitstream t m v).drop 4 = bitsOf t.length (ccBits m v) ++ dataStream m t := List.drop_left' (length_bitsOf ..)

/-! ### Codewords (43_data_encoder.md R294 to R297) -/

theorem byteOfBits_eq (s : List Bool) : byteOfBits s = BitVec.ofNat 8 (bitsValue s) := rfl

theorem getLsbD_byteOfBits {s : List Bool} (hs : s.length = 8) {p : Nat} (hp : p < 8) :
    (byteOfBits s).getLsbD (7 - p) = s.getD p false := by
  rw [byteOfBits_eq, BitVec.getLsbD_ofNat, ← testBit_bitsValue (hs ▸ hp), hs, decide_eq_true (by omega), Bool.true_and]

theorem codewordBit_cons_lt {b : Byte} {c : List Byte} {p : Nat} (h : p < 8) :
    codewordBit (b :: c) p = b.getLsbD (7 - p) := by
  rw [codewordBit, Nat.div_eq_of_lt h, Nat.mod_eq_of_lt h, List.getD_cons_zero]

theorem codewordBit_cons_add (b : Byte) (c : List Byte) (p : Nat) :
    codewordBit (b :: c) (p + 8) = codewordBit c p := by
  rw [codewordBit, Nat.add_div_right _ (by decide), List.getD_cons_succ, Nat.add_mod_right, codewordBit]

/-- The codewords show the bits they were cut from. -/
theorem codewordBit_toCodewords {s : List Bool} {p : Nat} (h : p < 8 * (toCodewords s).length) :
    codewordBit (toCodewords s) p = s.getD p false := by
  induction s using toCodewords.induct generalizing p with
  | case1 b7 b6 b5 b4 b3 b2 b1 b0 t ih =>
    rw [toCodewords] at h ⊢
    rcases Nat.lt_or_ge p 8 with hp | hp
    · rw [codewordBit_cons_lt hp, getLsbD_byteOfBits rfl hp]
      exact (List.getD_append [b7, b6, b5, b4, b3, b2, b1, b0] t false p hp).symm
    · obtain ⟨q, rfl⟩ := Nat.exists_eq_add_of_le' hp
      rw [List.length_cons] at h
      rw [codewordBit_cons_add, ih (by omega)]
      rfl
  | case2 s hs =>
    rw [toCodewords] at h
    · exact absurd h (Nat.not_lt_zero p)
    · exact hs

/-- Zero bits at the end read like the bits that are not there. -/
theorem getD_append_false (s : List Bool) (k p : Nat) : (s ++ List.replicate k false).getD p false = s.getD p false := by
  rcases Nat.lt_or_ge p s.length with hp | hp
  · exact List.getD_append _ _ _ _ hp
  · rw [List.getD_append_right _ _ _ _ hp, List.getD_eq_default _ _ hp, List.getD_eq_getElem?_getD,
      List.getElem?_getD_replicate_default_eq]

/-- The codewords of the bitstream with its terminator and zero bits, before the pad codewords (R294, R295). -/
def textCodewords (t : List Byte) (m : Mode) (v : Nat) (lev : EcLevel) : List Byte :=
  toCodewords (padToByte (bitstream t m v ++
    List.replicate (min 4 (8 * dataCodewords v lev - (bitstream t m v).length)) false))

theorem pack_eq (t : List Byte) (m : Mode) (v : Nat) (lev : EcLevel) :
    pack t m v lev =
      textCodewords t m v lev ++ padCodewords (dataCodewords v lev - (textCodewords t m v lev).length) := rfl

theorem length_textCodewords (t : List Byte) (m : Mode) (v : Nat) (lev : EcLevel) :
    (textCodewords t m v lev).length =
      ((bitstream t m v).length + min 4 (8 * dataCodewords v lev - (bitstream t m v).length) + 7) / 8 := by
  rw [textCodewords, length_toCodewords, length_padToByte, Nat.mul_div_cancel_left _ (by decide), List.length_append,
    List.length_replicate]

theorem codewordBit_textCodewords {t : List Byte} {m : Mode} {v : Nat} {lev : EcLevel} {p : Nat}
    (h : p < 8 * (textCodewords t m v lev).length) :
    codewordBit (textCodewords t m v lev) p = (bitstream t m v).getD p false := by
  rw [textCodewords] at h ⊢
  rw [codewordBit_toCodewords h, padToByte, getD_append_false, getD_append_false]

theorem getD_padCodewords {n i : Nat} (h : i < n) :
    (padCodewords n).getD i 0#8 = if i % 2 = 0 then 0xEC#8 else 0x11#8 := by
  have hlen : i < (padCodewords n).length := by simpa [padCodewords] using h
  rw [List.getD_eq_getElem _ _ hlen]
  simp only [padCodewords, List.getElem_map, List.getElem_range]

theorem codewordBit_pack {t : List Byte} {m : Mode} {v : Nat} {lev : EcLevel} {p : Nat}
    (h : p < 8 * (textCodewords t m v lev).length) : codewordBit (pack t m v lev) p = (bitstream t m v).getD p false := by
  rw [← codewordBit_textCodewords h, codewordBit, pack_eq, List.getD_append _ _ _ _ (by omega), codewordBit]

theorem getD_pack_pad {t : List Byte} {m : Mode} {v : Nat} {lev : EcLevel} {i : Nat}
    (hk : (textCodewords t m v lev).length ≤ i) (hd : i < dataCodewords v lev) :
    (pack t m v lev).getD i 0#8 = if (i - (textCodewords t m v lev).length) % 2 = 0 then 0xEC#8 else 0x11#8 := by
  rw [pack_eq, List.getD_append_right _ _ _ _ hk, getD_padCodewords (by omega)]

theorem length_textCodewords_le {t : List Byte} {m : Mode} {v : Nat} {lev : EcLevel}
    (h : reqBits m t.length v ≤ 8 * dataCodewords v lev) : (textCodewords t m v lev).length ≤ dataCodewords v lev := by
  rw [length_textCodewords, length_bitstream]
  omega

/-! ### The obligations -/

/-- Settles O27: the sum of the block lengths is D, and the raw modules split by 8. -/
theorem blockStructure : Obligations.BlockStructure := by
  intro v lev h1 h40
  have hv : legalVersion v = true := legalVersion_iff.2 ⟨h1, h40⟩
  obtain ⟨hB, hE, hT, hD⟩ := blockFacts_of_legal hv lev
  have hmod : totalCodewords v % blockCount v lev < blockCount v lev := Nat.mod_lt _ hB
  have hsum := sum_blockLens hv lev
  rw [blockLens, List.sum_append, List.sum_replicate, List.sum_replicate, smul_eq_mul, smul_eq_mul] at hsum
  have hshort : 1 ≤ shortLen v lev := Nat.sub_pos_of_lt hE
  have hcount : shortBlocks v lev + longBlocks v lev = blockCount v lev := Nat.sub_add_cancel hmod.le
  have hec : blockCount v lev * ecPerBlock v lev ≤ totalCodewords v :=
    (Nat.mul_le_mul_left _ hE.le).trans (Nat.mul_div_le _ _)
  exact ⟨hB, hec, hshort, hcount, hsum.symm, rfl, Nat.div_add_mod _ _, hD, hT⟩

/-- Settles O21: the mode of `modeOf` by the classes of the text's bytes. -/
theorem deAnalyzeSelectsMode : Obligations.DeAnalyzeSelectsMode := by
  intro s
  refine ⟨fun hlen => ⟨_, exec_ok (runDeAnalyze_ok.2 ⟨hlen, rfl⟩), fun hnum => ?_, fun ⟨i, hi, hout⟩ halnum => ?_,
    fun ⟨i, hi, hout⟩ => ?_⟩, fun hlen => exec_error (runDeAnalyze_error hlen)⟩
  · rw [modeOf_of_numeric (State.all_text_iff.2 fun i hi => isNum_iff.2 (hnum i hi))]
    rfl
  · rw [modeOf_of_alphanumeric (fun h => ?_) (State.all_text_iff.2 fun i hi => isAlnum_iff.2 (halnum i hi))]
    · rfl
    · have hnum := isNum_iff.1 (State.all_text_iff.1 h i hi)
      omega
  · rw [modeOf_of_byte fun h => hout (isAlnum_iff.1 (State.all_text_iff.1 h i hi))]
    rfl

/-- Settles O22: the tables give D's order; a version step costs at most 8 bits and brings at least one codeword. -/
theorem capacityIsMonotone : Obligations.CapacityIsMonotone := by
  refine ⟨fun _ _ _ _ => fits_iff, fun _ _ _ _ => count_lt_of_reqBits_le,
    fun _ lev h1 h40 => dataCodewords_lt_succ h1 h40 lev, reqBits_le_succ,
    fun _ _ _ h _ h1 h40 => fits_false_of_40 h1 h40 h, fun _ _ _ => selectVersion_eq_none_iff,
    fun _ => dataCodewords_level_falls, fun m n v lev h1 h40 hH => ⟨v, h1, Nat.le_refl v, ?_⟩⟩
  rw [fits_iff_of_legal h1 h40] at hH ⊢
  exact hH.trans (Nat.mul_le_mul_left 8 (dataCodewords_h_le h1 h40 lev))

/-- Settles O23: the search of R280 finds the least version whose bits suffice. -/
theorem deVersionSelectsSmallest : Obligations.DeVersionSelectsSmallest := by
  intro s m hphase hm hlen
  refine ⟨fun v h1 h40 hfits hleast => ?_, fun hnone => ?_⟩
  · exact exec_ok (runDeVersion_ok.2 ⟨hphase, m, hm, hlen, v, selectVersion_eq_some h1 h40 hfits hleast, rfl⟩)
  · refine exec_error (runDeVersion_inputTooLarge hphase hm hlen (selectVersion_eq_none_iff.2 ?_))
    rw [Bool.eq_false_iff, ne_eq, fits_iff_of_legal (by decide) (by decide), Nat.not_le]
    exact hnone 40 (by decide) (by decide)

/-- Settles O24: the parts have known lengths, and each group's value is less than its width allows. -/
theorem bitstreamParts : Obligations.BitstreamParts := by
  refine ⟨rfl, fun t m v hcount => ⟨?_, ?_, ?_, length_dataStream m t, length_bitstream t m v⟩,
    fun t ht => ⟨fun i => numericBits_group ht, numericBits_last_two ht, numericBits_last_one ht⟩,
    fun t ht => ⟨fun i => alnumBits_group ht, alnumBits_last ht⟩, fun t i => byteBits_group⟩
  · rw [bitstream, List.take_left' (length_bitsOf ..), bitsValue_bitsOf (BitVec.isLt _)]
  · rw [bitstream_drop_four, List.take_left' (length_bitsOf ..), bitsValue_bitsOf hcount]
  · rw [← List.drop_drop, bitstream_drop_four, List.drop_left' (length_bitsOf ..)]

/-- Settles O25: one write of D codewords at 0, those of the bitstream and then the pad codewords. -/
theorem dePackWritesCodewords : Obligations.DePackWritesCodewords := by
  intro s m hphase hm h1 h40 hlen hclass hreq
  have hfits : fits m s.textBytes s.versionNat s.ecLevel = true := (fits_iff_of_legal h1 h40).2 hreq
  have hpack : (pack s.text m s.versionNat s.ecLevel).length = dataCodewords s.versionNat s.ecLevel :=
    length_pack (by rwa [State.length_text])
  have hk : (textCodewords s.text m s.versionNat s.ecLevel).length ≤ dataCodewords s.versionNat s.ecLevel :=
    length_textCodewords_le (by rwa [State.length_text])
  have hread : ∀ i < dataCodewords s.versionNat s.ecLevel,
      (s.cwm.write 0 (pack s.text m s.versionNat s.ecLevel)).read i =
        (pack s.text m s.versionNat s.ecLevel).getD i 0#8 := fun i hi => by
    rw [← Memory.read_write_getD (m := s.cwm) (a := 0) (hpack.symm ▸ hi), Nat.zero_add]
  refine ⟨_, exec_ok (runDePack_ok.2 ⟨hphase, m, hm, ⟨legalVersion_iff.2 ⟨h1, h40⟩, hlen⟩, hclass, hfits, rfl⟩), rfl,
    _, _, _, _, (textCodewords s.text m s.versionNat s.ecLevel).length, rfl, rfl, rfl, rfl, length_textCodewords .., hk,
    fun p hp => ?_, fun i hik hid => ?_, fun a ha => ?_⟩
  · exact (congrArg (BitVec.getLsbD · (7 - p % 8)) (hread (p / 8) (by omega))).trans (codewordBit_pack hp)
  · exact (hread i hid).trans (getD_pack_pad hik hid)
  · exact Memory.read_write_outside (.inr (by rw [hpack, Nat.zero_add]; exact ha))

/-- Settles O26: the checks of R285 and R300 in their order. -/
theorem dataEncoderErrors : Obligations.DataEncoderErrors := by
  refine ⟨fun s hphase h => ?_, fun s hphase h => ?_, fun s m hphase hmode h1 h40 hlen => ?_⟩
  · exact exec_error (runDeVersion_invalidParameter hphase (h.imp_left Mode.ofCode_eq_none_iff.2))
  · refine exec_error (runDePack_illegal hphase ?_)
    have hversion : s.version.toNat = 0 ∨ 40 < s.version.toNat → legalVersion s.versionNat = false := fun hv =>
      Bool.eq_false_iff.2 fun hlegal => by
        obtain ⟨h1, h40⟩ := legalVersion_iff.1 hlegal
        exact hv.elim (Nat.ne_of_gt h1) (Nat.not_lt_of_le h40)
    rcases h with h | h | h | h
    · exact .inl (Mode.ofCode_eq_none_iff.2 h)
    · exact .inr (.inl (hversion (.inl h)))
    · exact .inr (.inl (hversion (.inr h)))
    · exact .inr (.inr h)
  · have hm : Mode.ofCode s.mode = some m := by
      rcases hmode with ⟨rfl, hmode⟩ | ⟨rfl, hmode⟩ | ⟨rfl, hmode⟩ <;> rw [hmode] <;> rfl
    have hv := legalVersion_iff.2 ⟨h1, h40⟩
    refine ⟨?_, ?_, fun hclass hreq => ?_⟩
    · rintro rfl ⟨i, hi, hout⟩
      refine exec_error (runDePack_outOfClass hphase hm fun hclass => ?_)
      have hnum := isNum_iff.1 (State.all_text_iff.1 hclass i hi)
      omega
    · rintro rfl ⟨i, hi, hout⟩
      exact exec_error (runDePack_outOfClass hphase hm fun hclass =>
        hout (isAlnum_iff.1 (State.all_text_iff.1 hclass i hi)))
    · exact exec_error (runDePack_inputTooLarge hphase hm hv hlen hclass
        (mt (fits_iff_of_legal h1 h40).1 (Nat.not_le.2 hreq)))

end Sys2Proof.Machine

/-! The interleaver (O28). The blocks are the reads of `dataBlock`, so both interleavings, of the data and of the EC
codewords, are the columns of blocks listed by number, and one lemma, `getElem?_columns`, places a codeword in either. -/

namespace Sys2Proof.Machine

/-! ### The data blocks (44_interleaver.md R320, R321) -/

theorem shortBlocks_add_longBlocks {v : Nat} (hv : legalVersion v = true) (lev : EcLevel) :
    shortBlocks v lev + longBlocks v lev = blockCount v lev :=
  Nat.sub_add_cancel (Nat.mod_lt _ (blockFacts_of_legal hv lev).1).le

theorem getElem_blockLens {v : Nat} {lev : EcLevel} {x : Nat} (h : x < (blockLens v lev).length) :
    (blockLens v lev)[x] = if x < shortBlocks v lev then shortLen v lev else shortLen v lev + 1 := by
  simp only [blockLens, List.getElem_append, List.getElem_replicate, List.length_replicate, dite_eq_ite]

/-- Where block `x` begins among the data codewords. -/
theorem sum_take_blockLens {v : Nat} {lev : EcLevel} {x : Nat} (h : x ≤ (blockLens v lev).length) :
    ((blockLens v lev).take x).sum = x * shortLen v lev + (x - shortBlocks v lev) := by
  induction x with
  | zero => simp
  | succ x ih =>
    rw [List.sum_take_succ _ _ h, ih (Nat.le_of_succ_le h), getElem_blockLens h, Nat.succ_mul]
    split <;> omega

/-- Data block `x` of version `v` and a level, read from the codewords at 0 (44_interleaver.md R321). -/
def dataBlock (m : Memory) (v : Nat) (lev : EcLevel) (x : Nat) : List Byte :=
  m.readBytes (x * shortLen v lev + (x - shortBlocks v lev))
    (if x < shortBlocks v lev then shortLen v lev else shortLen v lev + 1)

theorem Memory.readBytes_add (m : Memory) (a k n : Nat) :
    m.readBytes a (k + n) = m.readBytes a k ++ m.readBytes (a + k) n := by
  simp only [Memory.readBytes_eq, List.range_add, List.map_append, List.map_map, Function.comp_def, Nat.add_assoc]

theorem splitBlocks_readBytes (m : Memory) (a : Nat) (lens : List Nat) :
    splitBlocks lens (m.readBytes a lens.sum) =
      (List.range lens.length).map fun x => m.readBytes (a + (lens.take x).sum) (lens.getD x 0) := by
  induction lens generalizing a with
  | nil => rfl
  | cons k ks ih =>
    have hk : (m.readBytes a k).length = k := Memory.length_readBytes ..
    rw [List.sum_cons, Memory.readBytes_add, splitBlocks, List.take_left' hk, List.drop_left' hk, ih, List.length_cons,
      List.range_succ_eq_map, List.map_cons, List.map_map]
    simp only [Function.comp_def, List.take_zero, List.sum_nil, Nat.add_zero, List.getD_cons_zero, Nat.succ_eq_add_one,
      List.take_succ_cons, List.sum_cons, List.getD_cons_succ, Nat.add_assoc]

theorem splitBlocks_blockLens {v : Nat} (hv : legalVersion v = true) (lev : EcLevel) (m : Memory) :
    splitBlocks (blockLens v lev) (m.readBytes 0 (dataCodewords v lev)) =
      (List.range (blockCount v lev)).map (dataBlock m v lev) := by
  rw [← sum_blockLens hv lev, splitBlocks_readBytes, ← length_blockLens hv lev]
  refine List.map_congr_left fun x hx => ?_
  rw [List.mem_range] at hx
  rw [Nat.zero_add, sum_take_blockLens hx.le, List.getD_eq_getElem _ _ hx, getElem_blockLens hx, dataBlock]

theorem length_dataBlock (m : Memory) (v : Nat) (lev : EcLevel) (x : Nat) :
    (dataBlock m v lev x).length = if x < shortBlocks v lev then shortLen v lev else shortLen v lev + 1 :=
  Memory.length_readBytes ..

theorem getElem?_dataBlock {m : Memory} {v : Nat} {lev : EcLevel} {x i : Nat} (h : i < (dataBlock m v lev x).length) :
    (dataBlock m v lev x)[i]? = some (m.read (x * shortLen v lev + (x - shortBlocks v lev) + i)) :=
  (List.getElem?_eq_getElem h).trans (congrArg some (Memory.getElem_readBytes ..))

/-! ### The columns (44_interleaver.md R323) -/

/-- Codeword `i` of the blocks from `s` on, the blocks before `s` having none. -/
theorem column_map_range {f : Nat → List Byte} {s k i : Nat} (hshort : ∀ x < s, (f x).length ≤ i)
    (hlong : ∀ x < k, i < (f (s + x)).length) :
    column ((List.range (s + k)).map f) i = (List.range k).map fun x => (f (s + x)).getD i 0#8 := by
  have hnone : (List.range s).filterMap (fun x => (f x)[i]?) = [] :=
    List.filterMap_eq_nil_iff.2 fun x hx => List.getElem?_eq_none (hshort x (List.mem_range.1 hx))
  have hsome : ∀ x ∈ List.range k, (f (s + x))[i]? = some ((f (s + x)).getD i 0#8) := fun x hx => by
    have hi := hlong x (List.mem_range.1 hx)
    rw [List.getElem?_eq_getElem hi, List.getD_eq_getElem _ _ hi]
  rw [column, List.filterMap_map, List.range_add, List.filterMap_append, List.filterMap_map]
  exact (congrArg₂ _ hnone ((List.filterMap_congr hsome).trans (congrFun List.filterMap_eq_map _))).trans
    (List.nil_append _)

theorem length_columns_map_range {f : Nat → List Byte} {b n : Nat} (h : ∀ x < b, n ≤ (f x).length) :
    (columns ((List.range b).map f) n).length = b * n := by
  have hmin : (List.range b).map ((fun l => min l.length n) ∘ f) = (List.range b).map fun _ => n :=
    List.map_congr_left fun x hx => Nat.min_eq_right (h x (List.mem_range.1 hx))
  rw [length_columns, List.map_map, hmin, List.map_const', List.sum_replicate, List.length_range, smul_eq_mul]

/-- Codeword `i` of block `s + x` when the blocks before `s` end at `i` and the others do not: the columns before `i`
take `i` codewords of each block, and column `i` passes over the `s` short blocks. -/
theorem getElem?_columns {f : Nat → List Byte} {s k n i x : Nat} (hi : i < n) (hx : x < k)
    (hshort : ∀ y < s, (f y).length = i) (hlong : ∀ y < k, i < (f (s + y)).length) :
    (columns ((List.range (s + k)).map f) n)[i * (s + k) + x]? = (f (s + x))[i]? := by
  have hbefore : (columns ((List.range (s + k)).map f) i).length = i * (s + k) := by
    rw [length_columns_map_range, Nat.mul_comm]
    intro y hy
    rcases Nat.lt_or_ge y s with hys | hys
    · exact (hshort y hys).ge
    · obtain ⟨z, rfl⟩ := Nat.exists_eq_add_of_le hys
      exact (hlong z (by omega)).le
  have hcolumn := column_map_range (fun y hy => (hshort y hy).le) hlong
  obtain ⟨r, rfl⟩ := Nat.exists_eq_add_of_le hi
  have hsplit : columns ((List.range (s + k)).map f) (i + 1 + r) = columns ((List.range (s + k)).map f) i ++
      (column ((List.range (s + k)).map f) i ++
        ((List.range r).map (i + 1 + ·)).flatMap (column ((List.range (s + k)).map f))) := by
    simp only [columns, List.range_add, List.range_succ, List.flatMap_append, List.flatMap_singleton, List.append_assoc]
  rw [hsplit, List.getElem?_append_right (hbefore ▸ Nat.le_add_right ..), hbefore, Nat.add_sub_cancel_left, hcolumn,
    List.getElem?_append_left (by rwa [List.length_map, List.length_range]), List.getElem?_map,
    List.getElem?_range hx, Option.map_some, List.getD_eq_getElem _ _ (hlong x hx),
    List.getElem?_eq_getElem (hlong x hx)]

/-! ### The position formulas (44_interleaver.md R325) -/

theorem interleave_readBytes {v : Nat} (hv : legalVersion v = true) (lev : EcLevel) (m : Memory) :
    interleave v lev (m.readBytes 0 (dataCodewords v lev)) =
      columns ((List.range (blockCount v lev)).map (dataBlock m v lev)) (shortLen v lev + 1) ++
        columns ((List.range (blockCount v lev)).map fun x => rsRem (dataBlock m v lev x) (ecPerBlock v lev))
          (ecPerBlock v lev) := by
  rw [interleave, splitBlocks_blockLens hv, List.map_map]
  rfl

/-- The data columns fill the D places before the EC codewords: T less the E codewords of each block. -/
theorem length_dataColumns {v : Nat} (hv : legalVersion v = true) (lev : EcLevel) (m : Memory) :
    (columns ((List.range (blockCount v lev)).map (dataBlock m v lev)) (shortLen v lev + 1)).length =
      dataCodewords v lev := by
  have htotal := length_interleave hv (lev := lev) (Memory.length_readBytes m 0 (dataCodewords v lev))
  rw [interleave_readBytes hv, List.length_append,
    length_columns_map_range fun x _ => (length_rsRem _ (ecPerBlock v lev)).ge] at htotal
  exact Nat.eq_sub_of_add_eq htotal

theorem getElem?_append_of_some {l k : List Byte} {p : Nat} {c : Byte} (h : l[p]? = some c) :
    (l ++ k)[p]? = some c := by
  rw [List.getElem?_append_left (List.getElem?_eq_some_iff.1 h).1, h]

/-- Data codeword `i` of block `x`, below the short blocks' length. -/
theorem getElem?_interleave_data {v : Nat} (hv : legalVersion v = true) {lev : EcLevel} (m : Memory) {x i : Nat}
    (hx : x < blockCount v lev) (hi : i < shortLen v lev) :
    (interleave v lev (m.readBytes 0 (dataCodewords v lev)))[i * blockCount v lev + x]? =
      some (m.read (x * shortLen v lev + (x - shortBlocks v lev) + i)) := by
  have hlen : ∀ y, i < (dataBlock m v lev y).length := fun y => by rw [length_dataBlock]; split <;> omega
  have hplace := getElem?_columns (f := dataBlock m v lev) (s := 0) (n := shortLen v lev + 1) (Nat.lt_succ_of_lt hi) hx
    (fun _ h => absurd h (Nat.not_lt_zero _)) fun y _ => hlen (0 + y)
  rw [Nat.zero_add, Nat.zero_add, getElem?_dataBlock (hlen x)] at hplace
  rw [interleave_readBytes hv]
  exact getElem?_append_of_some hplace

/-- The last data codeword of a long block. -/
theorem getElem?_interleave_long {v : Nat} (hv : legalVersion v = true) {lev : EcLevel} (m : Memory) {x : Nat}
    (hns : shortBlocks v lev ≤ x) (hx : x < blockCount v lev) :
    (interleave v lev (m.readBytes 0 (dataCodewords v lev)))[shortLen v lev * blockCount v lev +
      (x - shortBlocks v lev)]? = some (m.read (x * shortLen v lev + (x - shortBlocks v lev) + shortLen v lev)) := by
  have hcount := shortBlocks_add_longBlocks hv lev
  have hshort : ∀ y < shortBlocks v lev, (dataBlock m v lev y).length = shortLen v lev := fun y hy => by
    rw [length_dataBlock, if_pos hy]
  have hlong : ∀ y, shortLen v lev < (dataBlock m v lev (shortBlocks v lev + y)).length := fun y => by
    rw [length_dataBlock, if_neg (Nat.not_lt.2 (Nat.le_add_right ..))]
    exact Nat.lt_succ_self _
  obtain ⟨y, rfl⟩ := Nat.exists_eq_add_of_le hns
  have hplace := getElem?_columns (Nat.lt_succ_self _) (x := y) (k := longBlocks v lev) (by omega) hshort
    fun y _ => hlong y
  rw [hcount, getElem?_dataBlock (hlong y), Nat.add_sub_cancel_left] at hplace
  rw [interleave_readBytes hv, Nat.add_sub_cancel_left]
  exact getElem?_append_of_some hplace

/-- EC codeword `i` of block `x`. -/
theorem getElem?_interleave_ec {v : Nat} (hv : legalVersion v = true) {lev : EcLevel} (m : Memory) {x i : Nat}
    (hx : x < blockCount v lev) (hi : i < ecPerBlock v lev) :
    (interleave v lev (m.readBytes 0 (dataCodewords v lev)))[dataCodewords v lev + i * blockCount v lev + x]? =
      some ((rsRem (dataBlock m v lev x) (ecPerBlock v lev)).getD i 0#8) := by
  have hlen : ∀ y, i < (rsRem (dataBlock m v lev y) (ecPerBlock v lev)).length := fun y => by rwa [length_rsRem]
  have hplace := getElem?_columns (f := fun y => rsRem (dataBlock m v lev y) (ecPerBlock v lev)) (s := 0) hi hx
    (fun _ h => absurd h (Nat.not_lt_zero _)) fun y _ => hlen (0 + y)
  rw [Nat.zero_add, Nat.zero_add] at hplace
  rw [interleave_readBytes hv, Nat.add_assoc, List.getElem?_append_right (by rw [length_dataColumns hv]; omega),
    length_dataColumns hv, Nat.add_sub_cancel_left, hplace, List.getD_eq_getElem _ _ (hlen x),
    List.getElem?_eq_getElem (hlen x)]

/-! ### CW_ASSEMBLE (44_interleaver.md R330) -/

theorem runCwAssemble_illegal {s : State} (hphase : 3 ≤ s.phaseNat)
    (h : s.versionNat = 0 ∨ 40 < s.versionNat) : runCwAssemble s = .error .invalidParameter := by
  rw [runCwAssemble, if_neg (Nat.not_lt.2 hphase), if_neg fun hv => ?_]
  obtain ⟨h1, h40⟩ := legalVersion_iff.1 hv
  omega

theorem Memory.read_write_of_getElem? {m : Memory} {a i : Nat} {bs : List Byte} {c : Byte} (h : bs[i]? = some c) :
    (m.write a bs).read (a + i) = c := by
  obtain ⟨hi, hc⟩ := List.getElem?_eq_some_iff.1 h
  rw [Memory.read_write_inside hi, hc]

/-- Settles O28: one write of T codewords at 0x1000, each placed by the columns of its blocks. -/
theorem cwAssembleInterleaves : Obligations.CwAssembleInterleaves := by
  intro s hphase
  refine ⟨fun h1 h40 => ?_, fun hv => exec_error (runCwAssemble_illegal hphase hv)⟩
  have hv : legalVersion s.versionNat = true := legalVersion_iff.2 ⟨h1, h40⟩
  refine ⟨_, exec_ok (runCwAssemble_ok.2 ⟨hphase, hv, rfl⟩), rfl, fun a ha => ?_,
    _, _, _, _, _, _, rfl, rfl, rfl, rfl, rfl, rfl, fun x i hx hi => ?_, fun x hns hx => ?_, fun x i hx hi => ?_⟩
  · exact Memory.read_write_outside (by rw [length_interleave hv (Memory.length_readBytes ..)]; exact ha)
  · exact Memory.read_write_of_getElem? (getElem?_interleave_data hv s.cwm hx hi)
  · exact Memory.read_write_of_getElem? (getElem?_interleave_long hv s.cwm hns hx)
  · rw [← Memory.readBytes_eq]
    exact Memory.read_write_of_getElem? (getElem?_interleave_ec hv s.cwm hx hi)

end Sys2Proof.Machine

/-! The matrix builder (O29 to O32). The zig-zag is a map over its places, block by block (O31); MX_PLACE writes one bit a
cell (O32); the writes of MX_INIT cover no cell with another code, so each cell is what any write of it says (O29), and the
count of the bitmaps gives the EMPTY cells (O30). -/

namespace Sys2Proof.Machine

/-! ### Numbers in blocks -/

/-- The numbers below `a * k` are those of `a` blocks of `k` numbers, block by block. -/
theorem range_mul (a k : Nat) :
    List.range (a * k) = (List.range a).flatMap fun q => (List.range k).map fun j => q * k + j := by
  induction a with
  | zero => simp
  | succ a ih => rw [Nat.succ_mul, List.range_add, ih, List.range_succ, List.flatMap_append, List.flatMap_singleton]

/-! ### The zig-zag in column pairs (45_matrix.md R370) -/

/-- The right column with which the loop of R370 meets column pair `q`, column 6 not yet skipped. -/
def zigzagStart (n q : Nat) : Nat := if 6 ≤ n - 1 - 2 * q then n - 1 - 2 * q else n - 2 - 2 * q

theorem zigzagFrom_zero (n fuel : Nat) : zigzagFrom n fuel 0 = [] := by cases fuel <;> rfl

theorem zigzagFrom_start {n fuel q : Nat} (hq : 2 * q < n - 1) (hn : n % 2 = 1) :
    zigzagFrom n (fuel + 1) (zigzagStart n q) =
      zigzagPair n (zigzagColumn n q) ++ zigzagFrom n fuel (zigzagStart n (q + 1)) := by
  have hpos : zigzagStart n q ≠ 0 := by unfold zigzagStart; split <;> omega
  have hcol : (if zigzagStart n q = 6 then 5 else zigzagStart n q) = zigzagColumn n q := by
    unfold zigzagStart zigzagColumn; split_ifs <;> omega
  have hnext : zigzagColumn n q - 2 = zigzagStart n (q + 1) := by
    unfold zigzagStart zigzagColumn; split_ifs <;> omega
  rw [zigzagFrom, if_neg hpos]
  dsimp only
  rw [hcol, hnext]

theorem zigzagFrom_eq_pairs {n k fuel q : Nat} (hk : 2 * (q + k) = n - 1) (hn : n % 2 = 1) (hfuel : k ≤ fuel) :
    zigzagFrom n fuel (zigzagStart n q) = (List.range' q k).flatMap fun q => zigzagPair n (zigzagColumn n q) := by
  induction k generalizing fuel q with
  | zero =>
    rw [show zigzagStart n q = 0 by unfold zigzagStart; split <;> omega, zigzagFrom_zero]
    rfl
  | succ k ih =>
    obtain ⟨fuel, rfl⟩ := Nat.exists_eq_add_of_le' (Nat.le_of_add_left_le hfuel)
    rw [zigzagFrom_start (by omega) hn, ih (by omega) (by omega), List.range'_succ, List.flatMap_cons]

theorem and_two_beq_zero (x : Nat) : (x &&& 2 == 0) = decide (x % 4 < 2) := by
  rw [show x &&& 2 = (x.testBit 1).toNat * 2 from Nat.and_two_pow x 1, Nat.testBit_eq_decide_div_mod_eq]
  rcases Nat.mod_two_eq_zero_or_one (x / 2) with h | h <;> simp [h] <;> omega

/-- Pairs are walked upward and downward in turn. -/
theorem zigzagColumn_upward {n q : Nat} (hn : n % 4 = 1) (hq : 2 * q < n - 1) :
    (zigzagColumn n q + 1 &&& 2 == 0) = decide (q % 2 = 0) := by
  rw [and_two_beq_zero, decide_eq_decide]
  unfold zigzagColumn
  split <;> omega

theorem zigzagCell_place {n q t b : Nat} (ht : t < n) (hb : b < 2) :
    zigzagCell n (q * (2 * n) + (t * 2 + b)) =
      (if q % 2 = 0 then n - 1 - t else t, zigzagColumn n q - b) := by
  have hdiv : (q * (2 * n) + (t * 2 + b)) / (2 * n) = q := by
    rw [Nat.mul_comm, Nat.mul_add_div (by omega), Nat.div_eq_of_lt (by omega), Nat.add_zero]
  have hmod : (q * (2 * n) + (t * 2 + b)) % (2 * n) = t * 2 + b := by
    rw [Nat.mul_comm, Nat.mul_add_mod, Nat.mod_eq_of_lt (by omega)]
  have hpar : (q * (2 * n) + (t * 2 + b)) % 2 = b := by
    rw [Nat.mul_left_comm, Nat.mul_add_mod]
    omega
  rw [zigzagCell, hdiv, hmod, hpar, show (t * 2 + b) / 2 = t by omega]

theorem zigzagPair_eq {n q : Nat} (hn : n % 4 = 1) (hq : 2 * q < n - 1) :
    zigzagPair n (zigzagColumn n q) = (List.range (2 * n)).map fun j => zigzagCell n (q * (2 * n) + j) := by
  rw [Nat.mul_comm 2 n, range_mul, List.map_flatMap, zigzagPair, zigzagColumn_upward hn hq, Nat.mul_comm n 2]
  refine List.flatMap_congr fun t ht => ?_
  rw [List.mem_range] at ht
  rw [List.map_map]
  simp only [show List.range 2 = [0, 1] from rfl, List.map_cons, List.map_nil, Function.comp_apply,
    zigzagCell_place ht Nat.one_lt_two, zigzagCell_place ht Nat.zero_lt_two, decide_eq_true_eq, Nat.sub_zero]

/-- The grid without one column is half as many blocks of two columns. -/
theorem side_mul_pred {n : Nat} (hn : n % 2 = 1) : n * (n - 1) = (n - 1) / 2 * (2 * n) := by
  conv_lhs => rw [show n - 1 = (n - 1) / 2 * 2 by omega]
  ring

theorem zigzag_eq {n : Nat} (hn : n % 4 = 1) (h8 : 8 ≤ n) :
    zigzag n = (List.range (n * (n - 1))).map (zigzagCell n) := by
  have hstart : n - 1 = zigzagStart n 0 := by unfold zigzagStart; split <;> omega
  rw [zigzag, hstart, zigzagFrom_eq_pairs (k := (n - 1) / 2) (by omega) (by omega) (by omega), ← hstart,
    side_mul_pred (by omega), range_mul, List.map_flatMap, List.range_eq_range' (n := (n - 1) / 2)]
  refine List.flatMap_congr fun q hq => ?_
  rw [List.mem_range'_1] at hq
  rw [zigzagPair_eq hn (by omega), List.map_map]
  rfl

/-! ### The places of the zig-zag -/

theorem exists_place {n p : Nat} (hn : n % 2 = 1) (h : p < n * (n - 1)) :
    ∃ q t b, 2 * q < n - 1 ∧ t < n ∧ b < 2 ∧ p = q * (2 * n) + (t * 2 + b) := by
  refine ⟨p / (2 * n), p % (2 * n) / 2, p % (2 * n) % 2, ?_, ?_, by omega, ?_⟩
  · have : p / (2 * n) < (n - 1) / 2 := by
      rwa [Nat.div_lt_iff_lt_mul (by omega), ← side_mul_pred hn]
    omega
  · have := Nat.mod_lt p (show 0 < 2 * n by omega)
    omega
  · rw [show p % (2 * n) / 2 * 2 + p % (2 * n) % 2 = p % (2 * n) by omega, Nat.mul_comm]
    exact (Nat.div_add_mod ..).symm

theorem place_lt {n q t b : Nat} (hq : 2 * q < n - 1) (hn : n % 2 = 1) (ht : t < n) (hb : b < 2) :
    q * (2 * n) + (t * 2 + b) < n * (n - 1) := by
  calc q * (2 * n) + (t * 2 + b) < q * (2 * n) + 2 * n := by omega
    _ = (q + 1) * (2 * n) := (Nat.succ_mul ..).symm
    _ ≤ (n - 1) / 2 * (2 * n) := Nat.mul_le_mul_right _ (by omega)
    _ = n * (n - 1) := (side_mul_pred hn).symm

theorem zigzagColumn_sub_inj {n q q' b b' : Nat} (hn : n % 2 = 1) (hq : 2 * q < n - 1) (hq' : 2 * q' < n - 1)
    (hb : b < 2) (hb' : b' < 2) (h : zigzagColumn n q - b = zigzagColumn n q' - b') : q = q' ∧ b = b' := by
  unfold zigzagColumn at h
  split_ifs at h <;> omega

theorem zigzagCell_injOn {n p p' : Nat} (hn : n % 2 = 1) (hp : p < n * (n - 1)) (hp' : p' < n * (n - 1))
    (h : zigzagCell n p = zigzagCell n p') : p = p' := by
  obtain ⟨q, t, b, hq, ht, hb, rfl⟩ := exists_place hn hp
  obtain ⟨q', t', b', hq', ht', hb', rfl⟩ := exists_place hn hp'
  rw [zigzagCell_place ht hb, zigzagCell_place ht' hb', Prod.mk.injEq] at h
  obtain ⟨hrow, hcol⟩ := h
  obtain ⟨rfl, rfl⟩ := zigzagColumn_sub_inj hn hq hq' hb hb' hcol
  obtain rfl : t = t' := by split at hrow <;> omega
  rfl

theorem nodup_zigzag {n : Nat} (hn : n % 4 = 1) (h8 : 8 ≤ n) : (zigzag n).Nodup := by
  rw [zigzag_eq hn h8]
  refine List.Nodup.map_on (fun p hp p' hp' => zigzagCell_injOn (by omega) ?_ ?_) List.nodup_range
  · exact List.mem_range.1 hp
  · exact List.mem_range.1 hp'

/-- A column of the grid is column 6, or the right or the left column of a pair. -/
theorem exists_zigzagColumn {n c : Nat} (hn : n % 2 = 1) (h8 : 8 ≤ n) :
    (∃ q b, 2 * q < n - 1 ∧ b < 2 ∧ c = zigzagColumn n q - b) ↔ c < n ∧ c ≠ 6 := by
  constructor
  · rintro ⟨q, b, hq, hb, rfl⟩
    unfold zigzagColumn
    split <;> omega
  · rintro ⟨hc, h6⟩
    rcases Nat.lt_or_ge c 6 with h | h
    · refine ⟨(n - 2 - c) / 2, (n - 2 - c) % 2, by omega, by omega, ?_⟩
      rw [zigzagColumn, if_neg (by omega)]
      omega
    · refine ⟨(n - 1 - c) / 2, (n - 1 - c) % 2, by omega, by omega, ?_⟩
      rw [zigzagColumn, if_pos (by omega)]
      omega

theorem mem_zigzag {n r c : Nat} (hn : n % 4 = 1) (h8 : 8 ≤ n) :
    (r, c) ∈ zigzag n ↔ r < n ∧ c < n ∧ c ≠ 6 := by
  rw [zigzag_eq hn h8, List.mem_map, ← exists_zigzagColumn (by omega) h8]
  constructor
  · rintro ⟨p, hp, hcell⟩
    obtain ⟨q, t, b, hq, ht, hb, rfl⟩ := exists_place (by omega) (List.mem_range.1 hp)
    rw [zigzagCell_place ht hb, Prod.mk.injEq] at hcell
    obtain ⟨hrow, hcol⟩ := hcell
    exact ⟨by split at hrow <;> omega, q, b, hq, hb, hcol.symm⟩
  · rintro ⟨hr, q, b, hq, hb, rfl⟩
    have ht : (if q % 2 = 0 then n - 1 - r else r) < n := by split <;> omega
    refine ⟨_, List.mem_range.2 (place_lt hq (by omega) ht hb), ?_⟩
    rw [zigzagCell_place ht hb, Prod.mk.injEq]
    exact ⟨by split <;> omega, rfl⟩

theorem gridSide_mod_four (v : Nat) : gridSide v % 4 = 1 := by unfold gridSide; omega

theorem gridSide_ge {v : Nat} : 17 ≤ gridSide v := Nat.le_add_right _ _

/-- Settles O31: the loop's column pairs are the blocks of 2·n places, and a place is a pair, a row and a side. -/
theorem zigzagOrder : Obligations.ZigzagOrder := by
  intro v _ _
  have hn := gridSide_mod_four v
  have h8 : 8 ≤ gridSide v := le_trans (by decide) gridSide_ge
  exact ⟨zigzag_eq hn h8, nodup_zigzag hn h8, fun r c => mem_zigzag hn h8⟩

/-! ### The placement stream (45_matrix.md R377, R378) -/

theorem getD_bitsOf {x w p : Nat} (h : p < w) : (bitsOf x w).getD p false = x.testBit (w - 1 - p) := by
  rw [bitsOf, List.getD_eq_getElem?_getD, List.getElem?_map, List.getElem?_range h]
  rfl

theorem getD_byteBits (c : List Byte) (p : Nat) : (byteBits c).getD p false = codewordBit c p := by
  induction c generalizing p with
  | nil => simp [byteBits, codewordBit]
  | cons b c ih =>
    rw [byteBits_cons]
    rcases Nat.lt_or_ge p 8 with hp | hp
    · rw [List.getD_append _ _ _ _ (by rwa [length_bitsOf]), getD_bitsOf hp, codewordBit_cons_lt hp,
        BitVec.testBit_toNat]
    · obtain ⟨q, rfl⟩ := Nat.exists_eq_add_of_le' hp
      rw [List.getD_append_right _ _ _ _ (by rw [length_bitsOf]; omega), length_bitsOf, Nat.add_sub_cancel, ih,
        codewordBit_cons_add]

theorem length_placementStream (v : Nat) (c : List Byte) :
    (placementStream v c).length = 8 * c.length + remainderBits v := by
  rw [placementStream, List.length_append, length_byteBits, List.length_replicate]

theorem getD_placementStream (v : Nat) (c : List Byte) (p : Nat) :
    (placementStream v c).getD p false = codewordBit c p := by
  rw [placementStream, getD_append_false, getD_byteBits]

theorem codewordBit_readBytes (m : Memory) (a T p : Nat) :
    codewordBit (m.readBytes a T) p = true ↔ p < 8 * T ∧ (m.read (a + p / 8)).getLsbD (7 - p % 8) = true := by
  rw [codewordBit]
  rcases Nat.lt_or_ge (p / 8) T with h | h
  · rw [List.getD_eq_getElem _ _ (by rwa [Memory.length_readBytes]), Memory.getElem_readBytes]
    exact ⟨fun hb => ⟨by omega, hb⟩, fun hb => hb.2⟩
  · rw [List.getD_eq_default _ _ (by rwa [Memory.length_readBytes]), BitVec.getLsbD_zero]
    exact ⟨fun hb => absurd hb (by decide), fun hb => by omega⟩

/-! ### Placed cells (45_matrix.md R379) -/

theorem placeBits_cons (g : Grid) (x : Nat × Nat) (xs : List (Nat × Nat)) (b : Bool) (bs : List Bool) :
    placeBits g (x :: xs) (b :: bs) = placeBits (g.put x.1 x.2 (dataCell b)) xs bs := rfl

/-- A cell that takes no bit is as it was. -/
theorem get_placeBits_other {g : Grid} {n : Nat} {cells : List (Nat × Nat)} {bits : List Bool} (h : g.Sized n)
    (hin : ∀ x ∈ cells, x.1 < n ∧ x.2 < n) {r c : Nat} (hr : r < n) (hc : c < n) (hne : (r, c) ∉ cells) :
    (placeBits g cells bits).get r c = g.get r c := by
  induction cells generalizing g bits with
  | nil => rfl
  | cons x xs ih =>
    cases bits with
    | nil => rfl
    | cons b bs =>
      obtain ⟨hx, hxs⟩ := List.forall_mem_cons.1 hin
      rw [placeBits_cons, ih (Grid.sized_put h _ _ _) hxs (List.not_mem_of_not_mem_cons hne),
        Grid.get_put h hx.1 hx.2 _ hr hc, if_neg fun he => List.ne_of_not_mem_cons hne (Prod.ext he.1 he.2)]

/-- The `p`-th cell takes the `p`-th bit. -/
theorem get_placeBits {g : Grid} {n : Nat} {cells : List (Nat × Nat)} {bits : List Bool} (h : g.Sized n)
    (hin : ∀ x ∈ cells, x.1 < n ∧ x.2 < n) (hnd : cells.Nodup) {p : Nat} {x : Nat × Nat} (hx : cells[p]? = some x)
    (hp : p < bits.length) : (placeBits g cells bits).get x.1 x.2 = dataCell (bits.getD p false) := by
  induction cells generalizing g bits p with
  | nil => cases hx
  | cons y ys ih =>
    obtain ⟨hy, hys⟩ := List.forall_mem_cons.1 hin
    obtain ⟨hyn, hnd⟩ := List.nodup_cons.1 hnd
    cases bits with
    | nil => cases hp
    | cons b bs =>
      rw [placeBits_cons]
      cases p with
      | zero =>
        obtain rfl : y = x := Option.some.inj hx
        rw [get_placeBits_other (Grid.sized_put h _ _ _) hys hy.1 hy.2 hyn, Grid.get_put h hy.1 hy.2 _ hy.1 hy.2,
          if_pos ⟨rfl, rfl⟩]
        rfl
      | succ p => exact ih (Grid.sized_put h _ _ _) hys hnd hx (Nat.lt_of_succ_lt_succ hp)

/-! ### MX_PLACE (45_matrix.md R395) -/

theorem place_eq_ok {v n : Nat} {c : List Byte} {g : Grid}
    (h : (dataEmptyCells g n).length = 8 * totalCodewords v + remainderBits v) :
    place v n c g = .ok (placeBits g (dataEmptyCells g n) (placementStream v c)) := if_pos h

theorem runMxPlace_invariant {s : State} (hphase : s.phaseNat = 5)
    (h : (dataEmptyCells (loadGrid s.mxm s.mxSize.toNat) s.mxSize.toNat).length ≠
      8 * totalCodewords s.versionNat + remainderBits s.versionNat) : runMxPlace s = .error .invariant := by
  have hplace : ∀ c, place s.versionNat s.mxSize.toNat c (loadGrid s.mxm s.mxSize.toNat) = .error .invariant :=
    fun c => if_neg h
  rw [runMxPlace, if_neg (not_not.2 hphase)]
  simp only [hplace]

/-- The cells MX_PLACE fills, read off MXM. -/
theorem dataEmptyCells_loadGrid (s : State) {n : Nat} (hn : n % 4 = 1) (h8 : 8 ≤ n) :
    dataEmptyCells (loadGrid s.mxm n) n =
      (zigzag n).filter fun p => !(s.cell p.1 p.2).getLsbD 2 && !(s.cell p.1 p.2).getLsbD 1 := by
  refine List.filter_congr fun p hp => ?_
  obtain ⟨hr, hc, -⟩ := (mem_zigzag hn h8).1 hp
  rw [get_loadGrid s.mxm hr hc]
  rfl

theorem mem_dataEmptyCells {g : Grid} {n r c : Nat} (hn : n % 4 = 1) (h8 : 8 ≤ n) :
    (r, c) ∈ dataEmptyCells g n ↔ r < n ∧ c < n ∧ c ≠ 6 ∧ cellDataEmpty (g.get r c) = true := by
  simp only [dataEmptyCells, List.mem_filter, mem_zigzag hn h8, and_assoc]

theorem nodup_dataEmptyCells {g : Grid} {n : Nat} (hn : n % 4 = 1) (h8 : 8 ≤ n) : (dataEmptyCells g n).Nodup :=
  (nodup_zigzag hn h8).filter _

theorem lt_of_mem_dataEmptyCells {g : Grid} {n : Nat} (hn : n % 4 = 1) (h8 : 8 ≤ n) {x : Nat × Nat}
    (hx : x ∈ dataEmptyCells g n) : x.1 < n ∧ x.2 < n := by
  obtain ⟨hr, hc, -⟩ := (mem_dataEmptyCells hn h8).1 hx
  exact ⟨hr, hc⟩

/-- A cell of MXM after a grid is written. -/
theorem cell_eq_get {s : State} {m : Memory} {g : Grid} (hmxm : s.mxm = storeGrid m g) {n r c : Nat} (hn : n ≤ 177)
    (hg : g.Sized n) (hr : r < n) (hc : c < n) : s.cell r c = g.get r c := by
  rw [State.cell, hmxm, read_storeGrid_cell m hn hg hr hc, cellOfByte_byteOfCell]

/-- Writing a grid back changes no byte of MXM whose cell the grid has left as it was loaded. -/
theorem read_storeGrid_of_get_eq {m : Memory} (hm : m.HoldsCells) {n : Nat} (hn : n ≤ 177) {g : Grid} (hg : g.Sized n)
    {a : Nat} (h : a / 177 < n → a % 177 < n → g.get (a / 177) (a % 177) = (loadGrid m n).get (a / 177) (a % 177)) :
    (storeGrid m g).read a = m.read a := by
  rw [read_storeGrid m hn hg]
  split
  · next hin =>
    rw [h hin.1 hin.2, get_loadGrid m hin.1 hin.2, byteOfCell_cellOfByte (read_small hm.small _),
      show a / 177 * Config.mxmStride + a % 177 = a from Nat.div_add_mod' a 177]
  · rfl

/-- Settles O32: the stream's bits go one by one into distinct cells of the zig-zag. -/
theorem mxPlacePutsBits : Obligations.MxPlacePutsBits := by
  intro s hinv hphase
  obtain ⟨hs, -⟩ := State.inv_iff.1 hinv
  have hphase : s.phaseNat = 5 := hphase
  have hside : s.mxSize.toNat = gridSide s.versionNat := hs.patterned hphase.ge
  have hn : s.mxSize.toNat % 4 = 1 := hside ▸ gridSide_mod_four _
  have h8 : 8 ≤ s.mxSize.toNat := hside ▸ le_trans (by decide) gridSide_ge
  have hcells := dataEmptyCells_loadGrid s hn h8
  refine ⟨_, _, _, rfl, rfl, rfl, fun hlen => ?_, fun hlen => exec_error (runMxPlace_invariant hphase (by rwa [hcells]))⟩
  rw [← hcells] at hlen ⊢
  have hsized := sized_loadGrid s.mxm s.mxSize.toNat
  have hin := fun x => lt_of_mem_dataEmptyCells (g := loadGrid s.mxm s.mxSize.toNat) hn h8 (x := x)
  have hplaced := sized_placeBits (dataEmptyCells (loadGrid s.mxm s.mxSize.toNat) s.mxSize.toNat)
    (placementStream s.versionNat (s.cwm.readBytes Config.finalBase (totalCodewords s.versionNat))) hsized
  refine ⟨_, exec_ok (runMxPlace_ok.2 ⟨hphase, _, place_eq_ok hlen, rfl⟩), rfl, fun p x hx => ?_, fun a ha => ?_⟩
  · have hp : p < 8 * totalCodewords s.versionNat + remainderBits s.versionNat :=
      hlen ▸ (List.getElem?_eq_some_iff.1 hx).1
    obtain ⟨hr, hc⟩ := hin x (List.mem_of_getElem? hx)
    rw [cell_eq_get rfl hs.mxSize_le hplaced hr hc, get_placeBits hsized hin (nodup_dataEmptyCells hn h8) hx
      (by rwa [length_placementStream, Memory.length_readBytes]), getD_placementStream, dataCell]
    exact if_congr (codewordBit_readBytes ..) rfl rfl
  · refine read_storeGrid_of_get_eq hs.mxm hs.mxSize_le hplaced fun hr hc => ?_
    exact get_placeBits_other hsized hin hr hc fun hmem => ha _ hmem (Nat.div_add_mod' a 177).symm

/-! ### What the writes of MX_INIT leave (45_matrix.md R351, R357, R359) -/

/-- The cell a write names. -/
def PatternWrite.cell : PatternWrite → Nat × Nat
  | .func r c _ => (r, c)
  | .reserve r c => (r, c)

/-- The code a write gives its cell. -/
def PatternWrite.code : PatternWrite → Cell
  | .func _ _ dark => funcCell dark
  | .reserve _ _ => CellCode.reservedUnset

theorem funcCell_ne_empty (dark : Bool) : funcCell dark ≠ CellCode.empty := by revert dark; decide

theorem PatternWrite.code_ne_empty (w : PatternWrite) : w.code ≠ CellCode.empty := by
  cases w with
  | func r c dark => exact funcCell_ne_empty dark
  | reserve r c => exact (by decide : CellCode.reservedUnset ≠ CellCode.empty)

theorem applyWrite_eq_put {g g' : Grid} {w : PatternWrite} (h : applyWrite g w = .ok g') :
    g' = g.put w.cell.1 w.cell.2 w.code := by
  cases w with
  | func r c dark =>
    simp only [applyWrite] at h
    split at h
    · cases h
    · exact (Except.ok.inj h).symm
  | reserve r c =>
    simp only [applyWrite] at h
    split at h
    · exact (Except.ok.inj h).symm
    · cases h

/-- The bitmaps take a write only inside the grid, on an EMPTY cell or on one that has its code already. -/
theorem CellBits.code_of_apply {n : Nat} {m m' : CellBits} {w : PatternWrite} (h : m.apply n w = some m') :
    w.cell.1 < n ∧ w.cell.2 < n ∧ (m.code (w.cell.1 * n + w.cell.2) = CellCode.empty ∨
      m.code (w.cell.1 * n + w.cell.2) = w.code) := by
  cases w with
  | func r c dark =>
    simp only [CellBits.apply, Bool.and_eq_true, decide_eq_true_eq, Bool.not_eq_true'] at h
    split at h
    · next hin =>
      obtain ⟨⟨hr, hc⟩, hrsv⟩ := hin
      refine ⟨hr, hc, ?_⟩
      simp only [PatternWrite.cell, PatternWrite.code, CellBits.code, hrsv]
      split at h
      · next hf =>
        split at h
        · next hd => exact .inr (by rw [if_pos hf, beq_iff_eq.1 hd])
        · cases h
      · next hf => exact .inl (by rw [if_neg hf]; rfl)
    · cases h
  | reserve r c =>
    simp only [CellBits.apply, Bool.and_eq_true, decide_eq_true_eq, Bool.not_eq_true'] at h
    split at h
    · next hin =>
      obtain ⟨⟨⟨hr, hc⟩, hf⟩, hrsv⟩ := hin
      refine ⟨hr, hc, .inl ?_⟩
      simp only [PatternWrite.cell, CellBits.code, hf, hrsv]
      rfl
    · cases h

/-- `g'` is the n × n grid `g` after the writes `ws`, none of them over a cell of another code. -/
structure Written (n : Nat) (g : Grid) (ws : List PatternWrite) (g' : Grid) : Prop where
  shown : ∀ w ∈ ws, g'.get w.cell.1 w.cell.2 = w.code
  kept : ∀ r c, r < n → c < n → g.get r c ≠ CellCode.empty → g'.get r c = g.get r c
  other : ∀ r c, r < n → c < n → (∀ w ∈ ws, w.cell ≠ (r, c)) → g'.get r c = g.get r c

theorem Written.nil (n : Nat) (g : Grid) : Written n g [] g :=
  ⟨fun _ hw => absurd hw List.not_mem_nil, fun _ _ _ _ _ => rfl, fun _ _ _ _ _ => rfl⟩

theorem Written.cons {n : Nat} {g g' : Grid} {w : PatternWrite} {ws : List PatternWrite} (h : g.Sized n)
    (hr : w.cell.1 < n) (hc : w.cell.2 < n)
    (hfree : g.get w.cell.1 w.cell.2 = CellCode.empty ∨ g.get w.cell.1 w.cell.2 = w.code)
    (hws : Written n (g.put w.cell.1 w.cell.2 w.code) ws g') : Written n g (w :: ws) g' where
  shown := by
    have hput := Grid.get_put h hr hc w.code hr hc
    rw [if_pos ⟨rfl, rfl⟩] at hput
    refine List.forall_mem_cons.2 ⟨?_, hws.shown⟩
    rw [hws.kept _ _ hr hc (by rw [hput]; exact w.code_ne_empty), hput]
  kept r c hr' hc' hne := by
    have hput : (g.put w.cell.1 w.cell.2 w.code).get r c = g.get r c := by
      rw [Grid.get_put h hr hc _ hr' hc']
      split
      · next he =>
        obtain ⟨rfl, rfl⟩ := he
        exact (hfree.resolve_left hne).symm
      · rfl
    rw [hws.kept r c hr' hc' (hput ▸ hne), hput]
  other r c hr' hc' hne := by
    obtain ⟨hw, hne⟩ := List.forall_mem_cons.1 hne
    rw [hws.other r c hr' hc' hne, Grid.get_put h hr hc _ hr' hc', if_neg fun he => hw (Prod.ext he.1.symm he.2.symm)]

theorem CellBits.written_of_applyAll {n : Nat} {ws : List PatternWrite} {m m' : CellBits} {g g' : Grid}
    (h : m.Models n g) (hw : m.applyAll n ws = some m') (hg : applyWrites g ws = .ok g') : Written n g ws g' := by
  induction ws generalizing m g with
  | nil =>
    cases hg
    exact Written.nil n _
  | cons w ws ih =>
    rw [CellBits.applyAll] at hw
    split at hw
    · next m1 h1 =>
      obtain ⟨g1, hg1, hm1⟩ := CellBits.apply_models h h1
      obtain ⟨hr, hc, hfree⟩ := CellBits.code_of_apply h1
      rw [applyWrites, hg1] at hg
      refine Written.cons h.sized hr hc ?_ ?_
      · rwa [h.code _ _ hr hc]
      · rw [← applyWrite_eq_put hg1]
        exact ih hm1 hw hg
    · cases hw

theorem buildPattern_written {v : Nat} {g : Grid} (hv : legalVersion v = true) (hg : buildPattern v = .ok g) :
    Written (gridSide v) (Grid.blank (gridSide v)) (patternWrites v) g := by
  have hfits := patternFits_of_legal hv
  unfold patternFits at hfits
  split at hfits
  · next m hm =>
    refine CellBits.written_of_applyAll (m := ⟨0, 0, 0, 0⟩) (m' := m) ⟨Grid.sized_blank _, fun r c _ _ => ?_, ?_, ?_⟩ ?_ hg
    · rw [Grid.get_blank]; simp [CellBits.code]
    · intro i hi; simp at hi
    · simp
    · rw [← CellBits.fastAll_eq]; exact hm
  · cases hfits

/-! ### The writes of each pattern -/

theorem cellDistance_le {r c r' c' d : Nat} :
    cellDistance r c r' c' ≤ d ↔ (r ≤ r' + d ∧ r' ≤ r + d) ∧ c ≤ c' + d ∧ c' ≤ c + d := by
  unfold cellDistance absDiff
  omega

/-- A finder and its separator (R352). -/
theorem mem_finderAt {n r0 c0 : Nat} {w : PatternWrite} :
    w ∈ finderAt n r0 c0 ↔ ∃ r c, r < n ∧ c < n ∧ cellDistance r c (r0 + 3) (c0 + 3) ≤ 4 ∧
      w = .func r c (cellDistance r c (r0 + 3) (c0 + 3) != 2 && cellDistance r c (r0 + 3) (c0 + 3) != 4) := by
  simp only [finderAt, List.mem_flatMap, List.mem_filterMap, List.mem_range, Option.ite_none_right_eq_some,
    Option.some.injEq]
  constructor
  · rintro ⟨i, hi, j, hj, ⟨hr1, hrn, hc1, hcn⟩, rfl⟩
    have hd : max (absDiff i 4) (absDiff j 4) = cellDistance (r0 + i - 1) (c0 + j - 1) (r0 + 3) (c0 + 3) := by
      unfold cellDistance absDiff; omega
    exact ⟨r0 + i - 1, c0 + j - 1, by omega, by omega, cellDistance_le.2 (by omega), by rw [hd]⟩
  · rintro ⟨r, c, hr, hc, hd, rfl⟩
    rw [cellDistance_le] at hd
    have hdist : max (absDiff (r + 1 - r0) 4) (absDiff (c + 1 - c0) 4) = cellDistance r c (r0 + 3) (c0 + 3) := by
      unfold cellDistance absDiff; omega
    refine ⟨r + 1 - r0, by omega, c + 1 - c0, by omega, by omega, ?_⟩
    rw [hdist, show r0 + (r + 1 - r0) - 1 = r by omega, show c0 + (c + 1 - c0) - 1 = c by omega]

theorem mem_finders {n : Nat} {w : PatternWrite} :
    w ∈ finders n ↔ ∃ p ∈ finderCorners n, w ∈ finderAt n p.1 p.2 := by
  simp [finders, finderCorners]

/-- The timing patterns (R353). -/
theorem mem_timing {n : Nat} (hn : 17 ≤ n) {w : PatternWrite} :
    w ∈ timing n ↔ ∃ r c, isTimingCell n r c = true ∧ w = .func r c ((r + c) % 2 == 0) := by
  have hpar : ∀ i, i % 2 = (6 + i) % 2 ∧ i % 2 = (i + 6) % 2 := fun i => by omega
  simp only [timing, isTimingCell, List.mem_flatMap, List.mem_range'_1, List.mem_cons, List.not_mem_nil, or_false,
    Bool.or_eq_true, Bool.and_eq_true, beq_iff_eq, decide_eq_true_eq]
  constructor
  · rintro ⟨i, hi, rfl | rfl⟩
    · exact ⟨6, i, .inl (by omega), by rw [← (hpar i).1]⟩
    · exact ⟨i, 6, .inr (by omega), by rw [← (hpar i).2]⟩
  · rintro ⟨r, c, ⟨⟨rfl, h8⟩, h9⟩ | ⟨⟨rfl, h8⟩, h9⟩, rfl⟩
    · exact ⟨c, by omega, .inl (by rw [← (hpar c).1])⟩
    · exact ⟨r, by omega, .inr (by rw [← (hpar r).2])⟩

/-- One alignment pattern (R355). -/
theorem mem_alignAt {cr cc : Nat} (hr : 2 ≤ cr) (hc : 2 ≤ cc) {w : PatternWrite} :
    w ∈ alignAt cr cc ↔ ∃ r c, cellDistance r c cr cc ≤ 2 ∧ w = .func r c (cellDistance r c cr cc != 1) := by
  simp only [alignAt, List.mem_flatMap, List.mem_map, List.mem_range]
  constructor
  · rintro ⟨i, hi, j, hj, rfl⟩
    have hd : max (absDiff i 2) (absDiff j 2) = cellDistance (cr + i - 2) (cc + j - 2) cr cc := by
      unfold cellDistance absDiff; omega
    exact ⟨cr + i - 2, cc + j - 2, cellDistance_le.2 (by omega), by rw [hd]⟩
  · rintro ⟨r, c, hd, rfl⟩
    rw [cellDistance_le] at hd
    have hdist : max (absDiff (r + 2 - cr) 2) (absDiff (c + 2 - cc) 2) = cellDistance r c cr cc := by
      unfold cellDistance absDiff; omega
    refine ⟨r + 2 - cr, by omega, c + 2 - cc, by omega, ?_⟩
    rw [hdist, show cr + (r + 2 - cr) - 2 = r by omega, show cc + (c + 2 - cc) - 2 = c by omega]

theorem two_le_of_mem_alignCoords {v x : Nat} (h : x ∈ alignCoords v) : 2 ≤ x := by
  have hrows : ∀ row ∈ alignRows, ∀ x ∈ row, 2 ≤ x := by decide
  rw [alignCoords, List.getD_eq_getElem?_getD] at h
  cases hrow : alignRows[v - 1]? with
  | none => rw [hrow] at h; cases h
  | some row => rw [hrow] at h; exact hrows row (List.mem_of_getElem? hrow) x h

theorem mem_alignmentCentres {v : Nat} {p : Nat × Nat} :
    p ∈ alignmentCentres v ↔ ∃ a b, (alignCoords v)[a]? = some p.1 ∧ (alignCoords v)[b]? = some p.2 ∧
      ¬((a = 0 ∧ b = 0) ∨ (a = 0 ∧ b = (alignCoords v).length - 1) ∨ (a = (alignCoords v).length - 1 ∧ b = 0)) := by
  simp only [alignmentCentres, List.mem_flatMap, List.mem_filterMap, List.mem_range, Option.ite_none_left_eq_some,
    Option.some.injEq]
  constructor
  · rintro ⟨a, ha, b, hb, hab, rfl⟩
    exact ⟨a, b, by simp [ha], by simp [hb], hab⟩
  · rintro ⟨a, b, ha, hb, hab⟩
    refine ⟨a, (List.getElem?_eq_some_iff.1 ha).1, b, (List.getElem?_eq_some_iff.1 hb).1, hab, ?_⟩
    rw [List.getD_eq_getElem?_getD, List.getD_eq_getElem?_getD, ha, hb]
    rfl

theorem two_le_of_mem_alignmentCentres {v : Nat} {p : Nat × Nat} (h : p ∈ alignmentCentres v) : 2 ≤ p.1 ∧ 2 ≤ p.2 := by
  obtain ⟨a, b, ha, hb, -⟩ := mem_alignmentCentres.1 h
  exact ⟨two_le_of_mem_alignCoords (List.mem_of_getElem? ha), two_le_of_mem_alignCoords (List.mem_of_getElem? hb)⟩

theorem mem_alignments {v : Nat} {w : PatternWrite} :
    w ∈ alignments v ↔ ∃ p ∈ alignmentCentres v, w ∈ alignAt p.1 p.2 := by
  simp only [alignments, List.mem_flatMap, Prod.exists, List.mem_zipIdx_iff_getElem?, mem_alignmentCentres]
  constructor
  · rintro ⟨x, a, hx, y, b, hy, hw⟩
    split at hw
    · cases hw
    · next hab => exact ⟨x, y, ⟨a, b, hx, hy, hab⟩, hw⟩
  · rintro ⟨x, y, ⟨a, b, hx, hy, hab⟩, hw⟩
    exact ⟨x, a, hx, y, b, hy, by rwa [if_neg hab]⟩

/-- The format-information cells (R356). -/
theorem mem_formatCells {n b r c : Nat} (hn : 17 ≤ n) : (b, r, c) ∈ formatCells n ↔ formatBitAt n r c = some b := by
  simp only [formatCells, List.mem_append, List.mem_map, List.mem_range, List.mem_range'_1, List.mem_cons,
    List.not_mem_nil, or_false, Prod.mk.injEq]
  unfold formatBitAt
  constructor
  · rintro ((((⟨i, hi, rfl, rfl, rfl⟩ | h) | ⟨i, hi, rfl, rfl, rfl⟩) | ⟨i, hi, rfl, rfl, rfl⟩) | ⟨i, hi, rfl, rfl, rfl⟩)
    · rw [if_pos (by omega)]
    · rcases h with ⟨rfl, rfl, rfl⟩ | ⟨rfl, rfl, rfl⟩ | ⟨rfl, rfl, rfl⟩ <;> rfl
    · rw [if_neg (by omega), if_neg (by omega), if_neg (by omega), if_neg (by omega), if_pos (by omega),
        Option.some.injEq]
      omega
    · rw [if_neg (by omega), if_neg (by omega), if_neg (by omega), if_neg (by omega), if_neg (by omega),
        if_pos (by omega), Option.some.injEq]
      omega
    · rw [if_neg (by omega), if_neg (by omega), if_neg (by omega), if_neg (by omega), if_neg (by omega),
        if_neg (by omega), if_pos (by omega), Option.some.injEq]
      omega
  · intro h
    split_ifs at h with h1 h2 h3 h4 h5 h6 h7 <;> obtain rfl := Option.some.inj h
    · exact .inl (.inl (.inl (.inl ⟨r, by omega⟩)))
    · exact .inl (.inl (.inl (.inr (.inl ⟨rfl, h2⟩))))
    · exact .inl (.inl (.inl (.inr (.inr (.inl ⟨rfl, h3⟩)))))
    · exact .inl (.inl (.inl (.inr (.inr (.inr ⟨rfl, h4⟩)))))
    · exact .inl (.inl (.inr ⟨14 - c, by omega⟩))
    · exact .inl (.inr ⟨n - 1 - c, by omega⟩)
    · exact .inr ⟨r + 15 - n, by omega⟩

theorem versionBitAt_eq_some {v n r c b : Nat} (hn : 17 ≤ n) : versionBitAt v n r c = some b ↔ 7 ≤ v ∧
    ((r ≤ 5 ∧ n - 11 ≤ c ∧ c ≤ n - 9 ∧ b = 3 * r + (c - (n - 11))) ∨
      (c ≤ 5 ∧ n - 11 ≤ r ∧ r ≤ n - 9 ∧ b = 3 * c + (r - (n - 11)))) := by
  simp only [versionBitAt, ite_eq_iff, Option.some.injEq, reduceCtorEq, and_false, false_or, or_false]
  omega

/-- The version-information cells (R359). -/
theorem mem_versionCellsOf {v b r c : Nat} :
    (b, r, c) ∈ versionCellsOf v ↔ versionBitAt v (gridSide v) r c = some b := by
  have hn : 17 ≤ gridSide v := gridSide_ge
  rw [versionBitAt_eq_some hn, versionCellsOf]
  split
  · next hv =>
    simp only [hv, true_and, versionCells, List.mem_flatMap, List.mem_range, List.mem_cons, List.not_mem_nil, or_false,
      Prod.mk.injEq]
    constructor
    · rintro ⟨i, hi, h⟩
      omega
    · intro h
      exact ⟨b, by omega⟩
  · next hv => simp only [hv, false_and, List.not_mem_nil]

theorem mem_reservations {cells : List (Nat × Nat × Nat)} {w : PatternWrite} :
    w ∈ reservations cells ↔ ∃ b r c, (b, r, c) ∈ cells ∧ w = .reserve r c := by
  simp only [reservations, List.mem_map, Prod.exists, eq_comm]

theorem mem_patternWrites {v : Nat} {w : PatternWrite} : w ∈ patternWrites v ↔
    w ∈ finders (gridSide v) ∨ w ∈ timing (gridSide v) ∨ w ∈ alignments v ∨
      w ∈ reservations (formatCells (gridSide v)) ∨ w = .func (gridSide v - 8) 8 true ∨
      w ∈ reservations (versionCellsOf v) := by
  simp only [patternWrites, List.mem_append, List.mem_singleton, or_assoc]

/-! ### The grid of MX_INIT (45_matrix.md R360) -/

/-- A cell that no rule names has no write. -/
theorem cell_ne_of_no_rule {v r c : Nat}
    (hfinder : ∀ p ∈ finderCorners (gridSide v), ¬cellDistance r c (p.1 + 3) (p.2 + 3) ≤ 4)
    (halign : ∀ p ∈ alignmentCentres v, ¬cellDistance r c p.1 p.2 ≤ 2)
    (htiming : ¬isTimingCell (gridSide v) r c = true) (hdark : ¬(r = gridSide v - 8 ∧ c = 8))
    (hformat : ∀ b, formatBitAt (gridSide v) r c ≠ some b) (hversion : ∀ b, versionBitAt v (gridSide v) r c ≠ some b)
    {w : PatternWrite} (hw : w ∈ patternWrites v) : w.cell ≠ (r, c) := by
  have hn : 17 ≤ gridSide v := gridSide_ge
  intro hcell
  rcases mem_patternWrites.1 hw with hw | hw | hw | hw | rfl | hw
  · obtain ⟨p, hp, hw⟩ := mem_finders.1 hw
    obtain ⟨r', c', -, -, hd, rfl⟩ := mem_finderAt.1 hw
    cases hcell
    exact hfinder p hp hd
  · obtain ⟨r', c', ht, rfl⟩ := (mem_timing hn).1 hw
    cases hcell
    exact htiming ht
  · obtain ⟨p, hp, hw⟩ := mem_alignments.1 hw
    obtain ⟨h1, h2⟩ := two_le_of_mem_alignmentCentres hp
    obtain ⟨r', c', hd, rfl⟩ := (mem_alignAt h1 h2).1 hw
    cases hcell
    exact halign p hp hd
  · obtain ⟨b, r', c', hb, rfl⟩ := mem_reservations.1 hw
    cases hcell
    exact hformat b ((mem_formatCells hn).1 hb)
  · cases hcell
    exact hdark ⟨rfl, rfl⟩
  · obtain ⟨b, r', c', hb, rfl⟩ := mem_reservations.1 hw
    cases hcell
    exact hversion b (mem_versionCellsOf.1 hb)

/-- The grid of MX_INIT shows the cells of the rules: where a rule names the cell, a write gives it the rule's code, and
where none does, no write names it. -/
theorem get_of_written {v r c : Nat} {g : Grid}
    (h : Written (gridSide v) (Grid.blank (gridSide v)) (patternWrites v) g) (hr : r < gridSide v)
    (hc : c < gridSide v) : g.get r c = patternCell v r c := by
  have hn : 17 ≤ gridSide v := gridSide_ge
  unfold patternCell
  dsimp only
  split
  · next p hp =>
    refine h.shown (.func r c _) (mem_patternWrites.2 (.inl (mem_finders.2 ⟨p, List.mem_of_find?_eq_some hp, ?_⟩)))
    exact mem_finderAt.2 ⟨r, c, hr, hc, by simpa using List.find?_some hp, rfl⟩
  · next hfinder =>
    split
    · next p hp =>
      have hcentre := List.mem_of_find?_eq_some hp
      obtain ⟨h1, h2⟩ := two_le_of_mem_alignmentCentres hcentre
      refine h.shown (.func r c _) (mem_patternWrites.2 (.inr (.inr (.inl (mem_alignments.2 ⟨p, hcentre, ?_⟩)))))
      exact (mem_alignAt h1 h2).2 ⟨r, c, by simpa using List.find?_some hp, rfl⟩
    · next halign =>
      simp only [List.find?_eq_none, decide_eq_true_eq] at hfinder halign
      split_ifs with htiming hdark hreserved
      · exact h.shown (.func r c _) (mem_patternWrites.2 (.inr (.inl ((mem_timing hn).2 ⟨r, c, htiming, rfl⟩))))
      · obtain ⟨rfl, rfl⟩ := hdark
        exact h.shown (.func _ _ true) (mem_patternWrites.2 (by simp only [true_or, or_true]))
      · refine h.shown (.reserve r c) (mem_patternWrites.2 ?_)
        rw [Bool.or_eq_true, Option.isSome_iff_exists, Option.isSome_iff_exists] at hreserved
        rcases hreserved with ⟨b, hb⟩ | ⟨b, hb⟩
        · exact .inr (.inr (.inr (.inl (mem_reservations.2 ⟨b, r, c, (mem_formatCells hn).2 hb, rfl⟩))))
        · exact .inr (.inr (.inr (.inr (.inr (mem_reservations.2 ⟨b, r, c, mem_versionCellsOf.2 hb, rfl⟩)))))
      · rw [Bool.or_eq_true, Option.isSome_iff_exists, Option.isSome_iff_exists] at hreserved
        rw [h.other r c hr hc fun w hw => ?_, Grid.get_blank]
        exact cell_ne_of_no_rule hfinder halign htiming hdark (fun b hb => hreserved (.inl ⟨b, hb⟩))
          (fun b hb => hreserved (.inr ⟨b, hb⟩)) hw

theorem get_buildPattern {v r c : Nat} {g : Grid} (hv : legalVersion v = true) (hg : buildPattern v = .ok g)
    (hr : r < gridSide v) (hc : c < gridSide v) : g.get r c = patternCell v r c :=
  get_of_written (buildPattern_written hv hg) hr hc

/-! ### MX_INIT (45_matrix.md R390) -/

theorem runMxInit_illegal {s : State} (hphase : 4 ≤ s.phaseNat) (h : s.versionNat = 0 ∨ 40 < s.versionNat) :
    runMxInit s = .error .invalidParameter := by
  rw [runMxInit, if_neg (Nat.not_lt.2 hphase), if_neg fun hv => ?_]
  obtain ⟨h1, h40⟩ := legalVersion_iff.1 hv
  omega

/-- Settles O29: every cell is as the writes that name it say, and the writes of a pattern are the cells of its rule. -/
theorem mxInitBuildsPatterns : Obligations.MxInitBuildsPatterns := by
  refine ⟨rfl, fun s hphase => ⟨fun h1 h40 => ?_, fun hv => exec_error (runMxInit_illegal hphase hv)⟩⟩
  have hv : legalVersion s.versionNat = true := legalVersion_iff.2 ⟨h1, h40⟩
  obtain ⟨g, -, hg, -, -⟩ := buildPattern_models hv
  have hsized := sized_of_buildPattern hv hg
  have hside := gridSide_le hv
  refine ⟨_, exec_ok (runMxInit_ok.2 ⟨hphase, hv, g, hg, rfl⟩), rfl, fun r c hr hc => ?_, fun a ha => ?_⟩
  · exact (cell_eq_get rfl hside hsized hr hc).trans (get_buildPattern hv hg hr hc)
  · simp only [outsideSymbol, Bool.or_eq_true, decide_eq_true_eq] at ha
    show (storeGrid clearedMxm g).read a = 0#8
    rw [read_storeGrid clearedMxm hside hsized, if_neg fun hin => ?_]
    · rfl
    · simp only [gridSide, State.versionNat] at hin
      omega

/-! ### The data cells that MX_INIT leaves (43_data_encoder.md R271) -/

/-- The EMPTY cells of an n × n grid, row by row. -/
def emptyCells (g : Grid) (n : Nat) : List (Nat × Nat) :=
  ((List.range n).product (List.range n)).filter fun p => g.get p.1 p.2 = CellCode.empty

theorem mem_emptyCells {g : Grid} {n r c : Nat} :
    (r, c) ∈ emptyCells g n ↔ r < n ∧ c < n ∧ g.get r c = CellCode.empty := by
  rw [emptyCells, List.mem_filter, List.pair_mem_product, List.mem_range, List.mem_range, decide_eq_true_eq, and_assoc]

theorem nodup_emptyCells (g : Grid) (n : Nat) : (emptyCells g n).Nodup :=
  (List.nodup_range.product List.nodup_range).filter _

/-- The EMPTY cells row by row are as many as the columns found in each row. -/
theorem length_emptyCells (g : Grid) (n : Nat) : (emptyCells g n).length =
    ((List.range n).flatMap fun r => (List.range n).filter fun c => g.get r c = CellCode.empty).length := by
  rw [emptyCells, List.product, List.filter_flatMap, List.length_flatMap, List.length_flatMap]
  simp only [List.filter_map, List.length_map, Function.comp_def]

theorem CellBits.code_eq_empty_iff {m : CellBits} {i : Nat} :
    m.code i = CellCode.empty ↔ ¬(m.func.testBit i || m.rsv.testBit i) = true := by
  unfold CellBits.code
  cases m.func.testBit i <;> cases m.rsv.testBit i <;> simp [funcCell_ne_empty]; decide

/-- The bitmaps count the cells that are not EMPTY. -/
theorem CellBits.Models.used_add_emptyCells {n : Nat} {m : CellBits} {g : Grid} (h : m.Models n g) :
    m.used + (emptyCells g n).length = n * n := by
  have hcells : (emptyCells g n).length =
      ((Finset.range (n * n)).filter fun i => ¬(m.func.testBit i || m.rsv.testBit i) = true).card := by
    show _ = ((List.range (n * n)).filter fun i => ¬(m.func.testBit i || m.rsv.testBit i) = true).length
    rw [length_emptyCells, range_mul, List.filter_flatMap, List.length_flatMap, List.length_flatMap]
    refine congrArg List.sum (List.map_congr_left fun r hr => ?_)
    rw [List.filter_map, List.length_map]
    refine congrArg List.length (List.filter_congr fun c hc => ?_)
    rw [List.mem_range] at hr hc
    rw [h.code r c hr hc, Function.comp_apply, decide_eq_decide, CellBits.code_eq_empty_iff]
  rw [h.count, hcells, Finset.card_filter_add_card_filter_not, Finset.card_range]

theorem cellFunc_funcCell (dark : Bool) : cellFunc (funcCell dark) = true := by revert dark; decide

theorem patternCell_eq_empty_or_func (v r c : Nat) :
    patternCell v r c = CellCode.empty ∨ cellFunc (patternCell v r c) = true := by
  unfold patternCell
  dsimp only
  split
  · exact .inr (cellFunc_funcCell _)
  · split
    · exact .inr (cellFunc_funcCell _)
    · split_ifs
      · exact .inr (cellFunc_funcCell _)
      · exact .inr (by decide)
      · exact .inr (by decide)
      · exact .inl rfl

/-- Column 6 holds finders, separators and the timing pattern. -/
theorem patternCell_column_six {v r : Nat} (hr : r < gridSide v) : patternCell v r 6 ≠ CellCode.empty := by
  have hn : 17 ≤ gridSide v := gridSide_ge
  unfold patternCell
  dsimp only
  split
  · exact funcCell_ne_empty _
  · next hfinder =>
    simp only [finderCorners, List.find?_eq_none, List.forall_mem_cons, List.not_mem_nil, false_imp_iff, imp_true_iff,
      decide_eq_true_eq, cellDistance_le] at hfinder
    have htiming : isTimingCell (gridSide v) r 6 = true := by
      simp only [isTimingCell, Bool.or_eq_true, Bool.and_eq_true, beq_iff_eq, decide_eq_true_eq, true_and]
      omega
    split
    · exact funcCell_ne_empty _
    · rw [if_pos htiming]
      exact funcCell_ne_empty _

theorem patternCell_dataEmpty (v r c : Nat) :
    cellDataEmpty (patternCell v r c) = true ↔ patternCell v r c = CellCode.empty := by
  rcases patternCell_eq_empty_or_func v r c with h | h
  · rw [h]
    decide
  · refine ⟨fun hempty => ?_, fun hempty => by rw [hempty]; rfl⟩
    rw [cellDataEmpty, h] at hempty
    cases hempty

/-- After MX_INIT the zig-zag finds every EMPTY cell once. -/
theorem dataEmptyCells_perm_emptyCells {v : Nat} {g : Grid} (hv : legalVersion v = true) (hg : buildPattern v = .ok g) :
    (dataEmptyCells g (gridSide v)).Perm (emptyCells g (gridSide v)) := by
  have hn := gridSide_mod_four v
  have h8 : 8 ≤ gridSide v := le_trans (by decide) gridSide_ge
  refine (List.perm_ext_iff_of_nodup (nodup_dataEmptyCells hn h8) (nodup_emptyCells _ _)).2 fun ⟨r, c⟩ => ?_
  rw [mem_dataEmptyCells hn h8, mem_emptyCells]
  constructor
  · rintro ⟨hr, hc, -, hempty⟩
    rw [get_buildPattern hv hg hr hc, patternCell_dataEmpty] at hempty
    exact ⟨hr, hc, (get_buildPattern hv hg hr hc).trans hempty⟩
  · rintro ⟨hr, hc, hempty⟩
    have hpattern := (get_buildPattern hv hg hr hc).symm.trans hempty
    refine ⟨hr, hc, ?_, by rw [hempty]; rfl⟩
    rintro rfl
    exact patternCell_column_six hr hpattern

theorem rawModules_eq (v : Nat) : 8 * totalCodewords v + remainderBits v = rawModules v := Nat.div_add_mod ..

/-- Settles O30: the bitmaps' count leaves M(v) cells, none of them in column 6, so the zig-zag finds them all. -/
theorem mxInitLeavesDataCells : Obligations.MxInitLeavesDataCells := by
  intro s t hphase h1 h40 ht
  have hv : legalVersion s.versionNat = true := legalVersion_iff.2 ⟨h1, h40⟩
  obtain ⟨g, m, hg, hm, hcount⟩ := buildPattern_models hv
  have hempty : (emptyCells g (gridSide s.versionNat)).length = rawModules s.versionNat := by
    have := hm.used_add_emptyCells
    omega
  have hsized := sized_of_buildPattern hv hg
  have hside := gridSide_le hv
  have hmx : (BitVec.ofNat 8 (gridSide s.versionNat)).toNat = gridSide s.versionNat := Nat.mod_eq_of_lt (by omega)
  have hrun := runMxInit_ok.2 ⟨hphase, hv, g, hg, rfl⟩
  obtain rfl := Host.Outcome.next.inj ((exec_ok (i := .mxInit) hrun).symm.trans ht)
  constructor
  · refine Eq.trans ?_ hempty
    rw [length_emptyCells]
    refine congrArg List.length (List.flatMap_congr fun r hr => List.filter_congr fun c hc => ?_)
    rw [cell_eq_get rfl hside hsized (List.mem_range.1 hr) (List.mem_range.1 hc)]
  · refine ⟨_, exec_ok (runMxPlace_ok.2 ⟨rfl, _, place_eq_ok ?_, rfl⟩), rfl⟩
    show (dataEmptyCells (loadGrid (storeGrid clearedMxm g) (BitVec.ofNat 8 (gridSide s.versionNat)).toNat)
      (BitVec.ofNat 8 (gridSide s.versionNat)).toNat).length = _
    rw [hmx, loadGrid_storeGrid clearedMxm hside hsized, (dataEmptyCells_perm_emptyCells hv hg).length_eq, hempty]
    exact (rawModules_eq _).symm

end Sys2Proof.Machine

/-! The commands that rewrite the symbol: masks (O33, O34), the format word and the version word (O37 to O39). Each
writes a grid over the symbol and nothing else (`exec_writes_symbol`), so a proof says what one cell of that grid is. -/

namespace Sys2Proof.Machine

/-! ### A command that rewrites the symbol -/

/-- A command that left ERRCODE 0 is one whose rule succeeded. -/
theorem runOf_ok_of_exec {i : Instr} {s t : State} (h : exec i s = .next t) (he : t.errcode = 0#8) :
    ∃ u, runOf i s = .ok u ∧ t = u.succeed := by
  obtain rfl := exec_next.1 h
  obtain ⟨u, hu⟩ := State.complete_errcode_zero.1 he
  exact ⟨u, hu, by rw [hu, State.complete_ok]⟩

theorem get_symbol (s : State) {r c : Nat} (hr : r < gridSide s.versionNat) (hc : c < gridSide s.versionNat) :
    s.symbol.get r c = s.cell r c := get_loadGrid s.mxm hr hc

theorem State.DataInv.gridSide_le {s : State} (hs : s.DataInv) (h : 3 ≤ s.phaseNat) : gridSide s.versionNat ≤ 177 :=
  Machine.gridSide_le (hs.legal h)

/-- No byte outside the symbol changes (10_state.md R72). -/
theorem read_storeGrid_outside (m : Memory) {n : Nat} (hn : n ≤ 177) {g : Grid} (hg : g.Sized n) {a : Nat}
    (ha : outsideSymbol n a = true) : (storeGrid m g).read a = m.read a := by
  simp only [outsideSymbol, Bool.or_eq_true, decide_eq_true_eq] at ha
  rw [read_storeGrid m hn hg, if_neg (by omega)]

/-- A command whose rule writes a grid over the symbol changes the symbol's cells and nothing else (10_state.md R72). -/
theorem exec_writes_symbol {i : Instr} {s : State} {g : Grid} {n : Nat}
    (hrun : runOf i s = .ok { s with mxm := storeGrid s.mxm g }) (hn : n ≤ 177) (hg : g.Sized n) :
    ∃ t, exec i s = .next t ∧ t = ({ s with mxm := t.mxm } : State).succeed ∧
      (∀ r c, r < n → c < n → t.cell r c = g.get r c) ∧
      ∀ a, outsideSymbol n a = true → t.mxm.read a = s.mxm.read a :=
  ⟨_, exec_ok hrun, rfl, fun _ _ hr hc => cell_eq_get rfl hn hg hr hc, fun _ ha => read_storeGrid_outside _ hn hg ha⟩

/-- Storing the symbol back over any grid of its side restores MXM. -/
theorem storeGrid_storeGrid_loadGrid {m : Memory} (hm : m.HoldsCells) {n : Nat} (hn : n ≤ 177) {g : Grid}
    (hg : g.Sized n) : storeGrid (storeGrid m g) (loadGrid m n) = m := by
  refine Memory.eq_of_read (wf_storeGrid (wf_storeGrid hm.wf g) _) hm.wf fun a => ?_
  have hload := sized_loadGrid m n
  rw [← read_storeGrid_of_get_eq hm hn hload (a := a) fun _ _ => rfl, read_storeGrid _ hn hload,
    read_storeGrid _ hn hload, read_storeGrid _ hn hg]
  split <;> rfl

/-! ### Mask operands (46_mask.md R430, R432) -/

theorem maskIndex_of_le {k : Byte} (h : k.toNat ≤ 7) : maskIndex k = some (BitVec.ofNat 3 k.toNat) := if_pos h

theorem maskIndex_of_gt {k : Byte} (h : 7 < k.toNat) : maskIndex k = none := if_neg (Nat.not_le.2 h)

theorem toNat_maskOperand {k : Byte} (h : k.toNat ≤ 7) : (BitVec.ofNat 3 k.toNat).toNat = k.toNat :=
  Nat.mod_eq_of_lt (by omega)

theorem runMkApply_invalid {k : Byte} {s : State} (hphase : s.phaseNat = 6 ∨ s.phaseNat = 7) (h : 7 < k.toNat) :
    runMkApply k s = .error .invalidParameter := by
  rw [runMkApply, if_neg (by omega), maskIndex_of_gt h]

theorem runMxFormat_invalid {k : Byte} {s : State} (hphase : 5 ≤ s.phaseNat) (h : 7 < k.toNat) :
    runMxFormat k s = .error .invalidParameter := by
  rw [runMxFormat, if_neg (by omega), maskIndex_of_gt h]

/-! ### The mask on a cell (46_mask.md R410, R411) -/

theorem maskAt_iff (k : BitVec 3) (i j : Nat) : maskAt k i j = true ↔ maskFormula k.toNat i j := by
  obtain ⟨⟨k, hk⟩⟩ := k
  interval_cases k <;> simp [maskAt, maskFormula]

theorem cellData_iff {x : Cell} : cellData x = true ↔ x = CellCode.dataLight ∨ x = CellCode.dataDark := by
  revert x; decide

theorem maskCell_of_inverted {k : BitVec 3} {i j : Nat} {x : Cell} (hx : cellData x = true)
    (hk : maskFormula k.toNat i j) : maskCell k i j x = x ^^^ 1#3 :=
  if_pos (by rw [hx, (maskAt_iff k i j).2 hk]; rfl)

theorem maskCell_of_kept {k : BitVec 3} {i j : Nat} {x : Cell} (h : ¬(cellData x = true ∧ maskFormula k.toNat i j)) :
    maskCell k i j x = x := by
  rw [← maskAt_iff, ← Bool.and_eq_true] at h
  exact if_neg h

theorem maskCell_of_func {k : BitVec 3} {i j : Nat} {x : Cell} (h : cellFunc x = true) : maskCell k i j x = x :=
  maskCell_of_kept fun hx => by simp [cellData, h] at hx

theorem cellData_xor (x : Cell) : cellData (x ^^^ 1#3) = cellData x := by revert x; decide

theorem maskCell_maskCell (k : BitVec 3) (i j : Nat) (x : Cell) : maskCell k i j (maskCell k i j x) = x := by
  by_cases h : cellData x = true ∧ maskFormula k.toNat i j
  · rw [maskCell_of_inverted h.1 h.2, maskCell_of_inverted ((cellData_xor x).trans h.1) h.2, BitVec.xor_assoc,
      BitVec.xor_self, BitVec.xor_zero]
  · rw [maskCell_of_kept h, maskCell_of_kept h]

/-- Masks write the colour alone. -/
theorem maskCell_set_func (k : BitVec 3) (i j : Nat) (x : Cell) :
    cellSet (maskCell k i j x) = cellSet x ∧ cellFunc (maskCell k i j x) = cellFunc x := by
  have hxor : ∀ x : Cell, cellSet (x ^^^ 1#3) = cellSet x ∧ cellFunc (x ^^^ 1#3) = cellFunc x := by decide
  unfold maskCell
  split
  · exact hxor x
  · exact ⟨rfl, rfl⟩

/-- A masked data cell shows its bit XOR the mask (46_mask.md R412). -/
theorem cellDark_maskCell {k : BitVec 3} {i j : Nat} {x : Cell} (hx : cellData x = true) :
    cellDark (maskCell k i j x) = true ↔ ¬(cellDark x = true ↔ maskFormula k.toNat i j) := by
  by_cases hk : maskFormula k.toNat i j
  · have hxor : ∀ x : Cell, cellDark (x ^^^ 1#3) = !cellDark x := by decide
    rw [maskCell_of_inverted hx hk, hxor]
    simp [hk]
  · rw [maskCell_of_kept fun h => hk h.2]
    simp [hk]

theorem get_applyMask {g : Grid} {n : Nat} (h : g.Sized n) (k : BitVec 3) {r c : Nat} (hr : r < n) (hc : c < n) :
    (applyMask k g).get r c = maskCell k r c (g.get r c) := Grid.get_mapCells h _ hr hc

theorem applyMask_applyMask {g : Grid} {n : Nat} (h : g.Sized n) (k : BitVec 3) : applyMask k (applyMask k g) = g := by
  have hmask := sized_applyMask h k
  refine Grid.ext (sized_applyMask hmask k) h fun r c hr hc => ?_
  rw [get_applyMask hmask k hr hc, get_applyMask h k hr hc, maskCell_maskCell]

/-- Settles O33: a cell of the masked grid is inverted or kept, and the grid is written over the symbol only. -/
theorem mkApplyInvertsDataCells : Obligations.MkApplyInvertsDataCells := by
  intro s k hinv hphase
  obtain ⟨hs, -⟩ := State.inv_iff.1 hinv
  have hphase : s.phaseNat = 6 ∨ s.phaseNat = 7 := hphase
  have hside := hs.gridSide_le (by omega)
  refine ⟨fun hk => ?_, fun hk => exec_error (runMkApply_invalid hphase hk)⟩
  obtain ⟨m, hm, hmk⟩ : ∃ m, maskIndex k = some m ∧ m.toNat = k.toNat :=
    ⟨_, maskIndex_of_le hk, toNat_maskOperand hk⟩
  obtain ⟨t, ht, hframe, hcell, hout⟩ := exec_writes_symbol (i := .mkApply k)
    (runMkApply_ok.2 ⟨hphase, m, hm, rfl⟩) hside (sized_applyMask (sized_symbol s) m)
  refine ⟨t, ht, hframe, fun r c hr hc => ?_, hout⟩
  rw [← cellData_iff, hcell r c hr hc, get_applyMask (sized_symbol s) _ hr hc, get_symbol s hr hc, ← hmk]
  exact ⟨fun h => maskCell_of_inverted h.1 h.2, maskCell_of_kept⟩

/-- Settles O34: the mask is its own inverse on every cell, and MXM holds nothing in the symbol but its cells. -/
theorem mkApplyTwiceRestores : Obligations.MkApplyTwiceRestores := by
  intro s t k hinv ht he
  obtain ⟨hs, -⟩ := State.inv_iff.1 hinv
  obtain ⟨u, hu, rfl⟩ := runOf_ok_of_exec ht he
  obtain ⟨hphase, m, hm, rfl⟩ := runMkApply_ok.1 hu
  have hside := hs.gridSide_le (by omega)
  have hsized := sized_applyMask (sized_symbol s) m
  refine exec_ok (runMkApply_ok.2 ⟨hphase, m, hm, ?_⟩)
  have hmxm : storeGrid (storeGrid s.mxm (applyMask m s.symbol))
      (applyMask m (loadGrid (storeGrid s.mxm (applyMask m s.symbol)) (gridSide s.versionNat))) = s.mxm := by
    rw [loadGrid_storeGrid s.mxm hside hsized, applyMask_applyMask (sized_symbol s) m]
    exact storeGrid_storeGrid_loadGrid hs.mxm hside hsized
  exact congrArg (fun mem => ({ s with mxm := mem } : State).succeed) hmxm.symm

/-! ### Format and version information (46_mask.md R420 to R424) -/

/-- Settles O38: the remainders of R420 and R422 are computed for the 8 words of each level and the 34 versions. -/
theorem formatAndVersionWords : Obligations.FormatAndVersionWords := by
  unfold Obligations.FormatAndVersionWords
  decide

/-- A list of cells that names each cell for the bit `bitAt` says writes that bit there and leaves the other cells. -/
theorem get_writeBits_of_bitAt {w n : Nat} (bits : BitVec w) {cells : List (Nat × Nat × Nat)}
    {bitAt : Nat → Nat → Option Nat} (hcells : ∀ b r c, (b, r, c) ∈ cells ↔ bitAt r c = some b)
    (hin : ∀ b r c, bitAt r c = some b → r < n ∧ c < n) {g : Grid} (hg : g.Sized n) {r c : Nat} (hr : r < n)
    (hc : c < n) : (writeBits bits cells g).get r c =
      (bitAt r c).elim (g.get r c) fun b => funcCell (bits.getLsbD b) := by
  have hbit : ∀ x ∈ cells, bitAt x.2.1 x.2.2 = some x.1 := fun x hx => (hcells x.1 x.2.1 x.2.2).1 hx
  have hlt : ∀ x ∈ cells, x.2.1 < n ∧ x.2.2 < n := fun x hx => hin _ _ _ (hbit x hx)
  cases hb : bitAt r c with
  | none =>
    refine get_writeBits_other hg hlt hr hc fun x hx hcell => ?_
    have := hbit x hx
    rw [← hcell.1, ← hcell.2, hb] at this
    cases this
  | some b =>
    refine get_writeBits hg hlt (fun x hx y hy hxy => ?_) ((hcells b r c).2 hb)
    have := hbit x hx
    rw [hxy, hbit y hy] at this
    exact (Option.some.inj this).symm

theorem lt_of_formatBitAt {n b r c : Nat} (hn : 17 ≤ n) (h : formatBitAt n r c = some b) : r < n ∧ c < n := by
  unfold formatBitAt at h
  split_ifs at h <;> omega

theorem lt_of_versionBitAt {v n b r c : Nat} (hn : 17 ≤ n) (h : versionBitAt v n r c = some b) : r < n ∧ c < n := by
  have := (versionBitAt_eq_some hn).1 h
  omega

/-- `write_format` (46_mask.md R424). -/
theorem get_writeFormat {v : Nat} (lev : EcLevel) (k : BitVec 3) {g : Grid} (hg : g.Sized (gridSide v)) {r c : Nat}
    (hr : r < gridSide v) (hc : c < gridSide v) : (writeFormat v lev k g).get r c =
      (formatBitAt (gridSide v) r c).elim (g.get r c) fun b => funcCell ((formatBits lev k).getLsbD b) :=
  get_writeBits_of_bitAt (formatBits lev k) (fun _ _ _ => mem_formatCells gridSide_ge)
    (fun _ _ _ => lt_of_formatBitAt gridSide_ge) hg hr hc

/-- `write_version` (46_mask.md R424). -/
theorem get_writeVersion {v : Nat} {g : Grid} (hg : g.Sized (gridSide v)) {r c : Nat} (hr : r < gridSide v)
    (hc : c < gridSide v) : (writeVersion v g).get r c =
      (versionBitAt v (gridSide v) r c).elim (g.get r c) fun b => funcCell ((versionBits v).getLsbD b) :=
  get_writeBits_of_bitAt _ (fun _ _ _ => mem_versionCellsOf) (fun _ _ _ => lt_of_versionBitAt gridSide_ge) hg hr hc

/-- Settles O37: the list of format cells is the table `formatBitAt`. -/
theorem mxFormatWritesFormat : Obligations.MxFormatWritesFormat := by
  intro s k hinv hphase
  obtain ⟨hs, -⟩ := State.inv_iff.1 hinv
  have hphase : 5 ≤ s.phaseNat := hphase
  have hside := hs.gridSide_le (by omega)
  refine ⟨fun hk => ?_, fun hk => exec_error (runMxFormat_invalid hphase hk)⟩
  obtain ⟨t, ht, hframe, hcell, hout⟩ := exec_writes_symbol (i := .mxFormat k)
    (runMxFormat_ok.2 ⟨hphase, _, maskIndex_of_le hk, rfl⟩) hside (sized_writeBits _ _ (sized_symbol s))
  refine ⟨t, ht, hframe, fun r c hr hc => ?_, hout⟩
  rw [hcell r c hr hc, get_writeFormat _ _ (sized_symbol s) hr hc, get_symbol s hr hc]
  exact ⟨fun b hb => congrArg (Option.elim · _ _) hb, fun hb => congrArg (Option.elim · _ _) hb⟩

/-- Settles O39: the list of version cells is the table `versionBitAt`. -/
theorem mxVersionInfoWritesVersion : Obligations.MxVersionInfoWritesVersion := by
  intro s hinv hphase
  obtain ⟨hs, -⟩ := State.inv_iff.1 hinv
  have hphase : 5 ≤ s.phaseNat := hphase
  have hside := hs.gridSide_le (by omega)
  obtain ⟨t, ht, hframe, hcell, hout⟩ := exec_writes_symbol (i := .mxVersionInfo)
    (runMxVersionInfo_ok.2 ⟨hphase, rfl⟩) hside (sized_writeBits _ _ (sized_symbol s))
  refine ⟨t, ht, hframe, fun r c hr hc => ?_, hout⟩
  rw [hcell r c hr hc, get_writeVersion (sized_symbol s) hr hc, get_symbol s hr hc]
  exact ⟨fun b hb => congrArg (Option.elim · _ _) hb, fun hb => congrArg (Option.elim · _ _) hb⟩

end Sys2Proof.Machine

/-! The penalties (O35, O36). The machine scans rows and columns; the rules give sums over places. They are equal for
the rows of any matrix of colours (`penaltyOf_colourRows`): a scan by runs visits each maximal run once,
at the place it begins. -/

namespace Sys2Proof.Machine

/-! ### Matrices of colours as rows -/

/-- The rows of an n × n matrix of colours. -/
def colourRows (n : Nat) (col : Nat → Nat → Bool) : List (List Bool) :=
  (List.range n).map fun r => (List.range n).map (col r)

theorem length_colourRows (n : Nat) (col : Nat → Nat → Bool) : (colourRows n col).length = n := by
  rw [colourRows, List.length_map, List.length_range]

theorem length_of_mem_colourRows {n : Nat} {col : Nat → Nat → Bool} {row : List Bool} (h : row ∈ colourRows n col) :
    row.length = n := by
  obtain ⟨r, -, rfl⟩ := List.mem_map.1 h
  rw [List.length_map, List.length_range]

theorem colourRows_congr {n : Nat} {col col' : Nat → Nat → Bool}
    (h : ∀ r c, r < n → c < n → col r c = col' r c) : colourRows n col = colourRows n col' :=
  List.map_congr_left fun r hr => List.map_congr_left fun c hc => h r c (List.mem_range.1 hr) (List.mem_range.1 hc)

theorem map_range_succ {α : Type} (f : Nat → α) (n : Nat) :
    (List.range (n + 1)).map f = f 0 :: (List.range n).map fun i => f (i + 1) := by
  rw [List.range_succ_eq_map, List.map_cons, List.map_map]
  rfl

/-- A list is what its places read. -/
theorem eq_map_getD {α : Type} {n : Nat} {l : List α} (h : l.length = n) (d : α) :
    l = (List.range n).map fun i => l.getD i d := by
  refine List.ext_getElem (by simp [h]) fun i hi _ => ?_
  rw [List.getElem_map, List.getElem_range, List.getD_eq_getElem _ _ hi]

/-- Square rows of colours are the rows of the matrix they read as. -/
theorem eq_colourRows {n : Nat} {rows : List (List Bool)} (hlen : rows.length = n)
    (hrows : ∀ row ∈ rows, row.length = n) : rows = colourRows n fun r c => (rows.getD r []).getD c false := by
  refine (eq_map_getD hlen []).trans (List.map_congr_left fun r hr => eq_map_getD (hrows _ ?_) false)
  rw [List.getD_eq_getElem _ _ (hlen ▸ List.mem_range.1 hr)]
  exact List.getElem_mem _

theorem columnLines_colourRows (n : Nat) (col : Nat → Nat → Bool) :
    columnLines n (colourRows n col) = colourRows n fun c r => col r c := by
  refine List.map_congr_left fun c hc => ?_
  rw [colourRows, List.map_map]
  refine List.map_congr_left fun r _ => ?_
  rw [Function.comp_apply, List.getD_eq_getElem _ _ (by simpa using hc), List.getElem_map, List.getElem_range]

theorem sum_map_colourRows (score : List Bool → Nat) (n : Nat) (col : Nat → Nat → Bool) :
    ((colourRows n col).map score).sum = ∑ r ∈ Finset.range n, score ((List.range n).map (col r)) := by
  rw [colourRows, List.map_map]
  rfl

/-! ### N1: runs (46_mask.md R414) -/

theorem maximalRun_iff {n : Nat} {line : Nat → Bool} {p l : Nat} : maximalRun n line p l = true ↔
    1 ≤ l ∧ p + l ≤ n ∧ (∀ i < l, line (p + i) = line p) ∧ (p ≠ 0 → line (p - 1) ≠ line p) ∧
      (p + l ≠ n → line (p + l) ≠ line p) := by
  simp only [maximalRun, Bool.and_eq_true, Bool.or_eq_true, decide_eq_true_eq, List.all_eq_true, List.mem_range,
    beq_iff_eq, bne_iff_ne, or_iff_not_imp_left, and_assoc, ne_eq]

theorem maximalRun_le {n : Nat} {line : Nat → Bool} {p l m : Nat} (hl : maximalRun n line p l = true)
    (hm : maximalRun n line p m = true) : m ≤ l := by
  obtain ⟨-, -, -, -, hend⟩ := maximalRun_iff.1 hl
  obtain ⟨-, hmn, hrun, -, -⟩ := maximalRun_iff.1 hm
  by_contra hlt
  exact hend (by omega) (hrun l (by omega))

/-- One maximal run at most begins at a place. -/
theorem maximalRun_iff_eq {n : Nat} {line : Nat → Bool} {p m : Nat} (hm : maximalRun n line p m = true) (l : Nat) :
    maximalRun n line p l = true ↔ l = m :=
  ⟨fun hl => le_antisymm (maximalRun_le hm hl) (maximalRun_le hl hm), fun he => he ▸ hm⟩

/-- What the maximal runs that begin at place `p` score. -/
def runsAt (n : Nat) (line : Nat → Bool) (p : Nat) : Nat :=
  ∑ l ∈ Finset.Icc 5 n, if maximalRun n line p l then 3 + (l - 5) else 0

theorem lineN1_eq_sum_runsAt (n : Nat) (line : Nat → Bool) :
    lineN1 n line = ∑ p ∈ Finset.range n, runsAt n line p := rfl

theorem runsAt_of_maximalRun {n : Nat} {line : Nat → Bool} {p m : Nat} (h : maximalRun n line p m = true) :
    runsAt n line p = runScore m := by
  obtain ⟨-, hmn, -⟩ := maximalRun_iff.1 h
  simp only [runsAt, maximalRun_iff_eq h, Finset.sum_ite_eq', Finset.mem_Icc]
  exact if_congr (by omega) rfl rfl

/-- No maximal run begins inside another. -/
theorem runsAt_inside {n : Nat} {line : Nat → Bool} {p m q : Nat} (h : maximalRun n line p m = true) (hp : p < q)
    (hq : q < p + m) : runsAt n line q = 0 := by
  refine Finset.sum_eq_zero fun l _ => if_neg fun hl => ?_
  obtain ⟨-, -, hrun, -, -⟩ := maximalRun_iff.1 h
  obtain ⟨-, -, -, hstart, -⟩ := maximalRun_iff.1 hl
  refine hstart (by omega) ?_
  obtain ⟨i, rfl⟩ := Nat.exists_eq_add_of_lt hp
  exact (hrun i (by omega)).trans (hrun (i + 1) (by omega)).symm

theorem sum_runsAt_of_maximalRun {n : Nat} {line : Nat → Bool} {p m : Nat} (h : maximalRun n line p m = true) :
    ∑ q ∈ Finset.Ico p (p + m), runsAt n line q = runScore m := by
  obtain ⟨hm, -⟩ := maximalRun_iff.1 h
  rw [Finset.sum_eq_single_of_mem p (Finset.mem_Ico.2 (by omega)) fun q hq hne => ?_, runsAt_of_maximalRun h]
  rw [Finset.mem_Ico] at hq
  exact runsAt_inside h (by omega) hq.2

/-- With `m` cells of a run from place `p` on passed and `k` cells to come, `runsFrom` scores the maximal runs from `p`
on. -/
theorem runsFrom_eq_sum {line : Nat → Bool} {p m k : Nat} (hm : 1 ≤ m) (hrun : ∀ i < m, line (p + i) = line p)
    (hstart : p ≠ 0 → line (p - 1) ≠ line p) :
    runsFrom (line p) m ((List.range' (p + m) k).map line) =
      ∑ q ∈ Finset.Ico p (p + m + k), runsAt (p + m + k) line q := by
  induction k generalizing p m with
  | zero => exact (sum_runsAt_of_maximalRun (maximalRun_iff.2 ⟨hm, le_rfl, hrun, hstart, fun h => absurd rfl h⟩)).symm
  | succ k ih =>
    rw [List.range'_succ, List.map_cons, runsFrom]
    split
    · next hsame =>
      have hlonger : ∀ i < m + 1, line (p + i) = line p := fun i hi => by
        rcases Nat.lt_succ_iff_lt_or_eq.1 hi with hi | rfl
        · exact hrun i hi
        · exact hsame
      have := ih (Nat.le_add_left 1 m) hlonger hstart
      rwa [← Nat.add_assoc, Nat.add_right_comm _ 1 k] at this
    · next hother =>
      have hmax : maximalRun (p + m + (k + 1)) line p m = true :=
        maximalRun_iff.2 ⟨hm, by omega, hrun, hstart, fun _ => hother⟩
      have hnext := ih (p := p + m) (m := 1) le_rfl (fun i hi => by rw [Nat.lt_one_iff.1 hi, Nat.add_zero]) fun _ => by
        have hlast := hrun (m - 1) (by omega)
        rw [← Nat.add_sub_assoc hm] at hlast
        exact fun h => hother (h.symm.trans hlast)
      rw [Nat.add_right_comm _ 1 k] at hnext
      rw [← Finset.sum_Ico_consecutive _ (Nat.le_add_right p m) (by omega), sum_runsAt_of_maximalRun hmax, hnext,
        Nat.add_assoc _ k 1]

/-- N1 of a line is the sum over its maximal runs. -/
theorem lineRuns_eq (n : Nat) (line : Nat → Bool) : lineRuns ((List.range n).map line) = lineN1 n line := by
  cases n with
  | zero => rfl
  | succ k =>
    have := runsFrom_eq_sum (line := line) (p := 0) (m := 1) (k := k) le_rfl (fun i hi => by rw [Nat.lt_one_iff.1 hi])
      fun h => absurd rfl h
    rw [lineN1_eq_sum_runsAt, List.range_eq_range', List.range'_succ, List.map_cons, lineRuns, Finset.range_eq_Ico]
    rwa [Nat.zero_add, Nat.add_comm 1 k] at this

/-! ### N3: windows (46_mask.md R416) -/

/-- What a window scores. -/
def windowScore (w : List Bool) : Nat := (if w = finderLikeA then 40 else 0) + (if w = finderLikeB then 40 else 0)

theorem lineFinderLike_cons (b : Bool) (t : List Bool) :
    lineFinderLike (b :: t) = windowScore ((b :: t).take 11) + lineFinderLike t := rfl

theorem windowScore_eq_zero {w : List Bool} (h : w.length ≠ 11) : windowScore w = 0 := by
  have hA : w ≠ finderLikeA := by rintro rfl; exact h rfl
  have hB : w ≠ finderLikeB := by rintro rfl; exact h rfl
  rw [windowScore, if_neg hA, if_neg hB]

theorem lineN3_eq_sum_windowScore (n : Nat) (line : Nat → Bool) :
    lineN3 n line = ∑ p ∈ Finset.range (n - 10), windowScore ((List.range 11).map fun i => line (p + i)) := rfl

/-- N3 of a line is the sum over its windows. -/
theorem lineFinderLike_eq (n : Nat) (line : Nat → Bool) :
    lineFinderLike ((List.range n).map line) = lineN3 n line := by
  induction n generalizing line with
  | zero => rfl
  | succ n ih =>
    rw [map_range_succ, lineFinderLike_cons, ih, ← map_range_succ, lineN3_eq_sum_windowScore, lineN3_eq_sum_windowScore]
    rcases Nat.lt_or_ge n 10 with hn | hn
    · rw [windowScore_eq_zero (by simp; omega), Nat.sub_eq_zero_of_le hn, Nat.sub_eq_zero_of_le (Nat.le_of_lt hn)]
      rfl
    · rw [Nat.succ_sub hn, Finset.sum_range_succ', Nat.add_comm, ← List.map_take, List.take_range,
        Nat.min_eq_left (Nat.succ_le_succ hn)]
      simp only [Nat.zero_add, Nat.add_right_comm]

/-! ### N2: blocks (46_mask.md R415) -/

/-- What a 2 × 2 block scores. -/
def blockPoints (a b c d : Bool) : Nat := if a = b ∧ a = c ∧ a = d then 3 else 0

theorem rowPairBlocks_cons (a b c d : Bool) (t u : List Bool) :
    rowPairBlocks (a :: b :: t) (c :: d :: u) = blockPoints a b c d + rowPairBlocks (b :: t) (d :: u) := by
  rw [rowPairBlocks]
  rfl

theorem rowPairBlocks_eq (n : Nat) (f g : Nat → Bool) :
    rowPairBlocks ((List.range n).map f) ((List.range n).map g) =
      ∑ c ∈ Finset.range (n - 1), blockPoints (f c) (f (c + 1)) (g c) (g (c + 1)) := by
  induction n generalizing f g with
  | zero => rfl
  | succ n ih =>
    cases n with
    | zero => rfl
    | succ n =>
      have hrest := ih (fun i => f (i + 1)) fun i => g (i + 1)
      simp only [map_range_succ, Nat.add_sub_cancel] at hrest ⊢
      rw [rowPairBlocks_cons, hrest, Finset.sum_range_succ', Nat.add_comm]

theorem blockScore_eq_sum_pairs (n : Nat) (row : Nat → List Bool) :
    blockScore ((List.range n).map row) = ∑ r ∈ Finset.range (n - 1), rowPairBlocks (row r) (row (r + 1)) := by
  induction n generalizing row with
  | zero => rfl
  | succ n ih =>
    cases n with
    | zero => rfl
    | succ n =>
      have hrest := ih fun i => row (i + 1)
      simp only [map_range_succ, Nat.add_sub_cancel] at hrest ⊢
      rw [blockScore, hrest, Finset.sum_range_succ', Nat.add_comm]

theorem blockScore_eq (n : Nat) (col : Nat → Nat → Bool) : blockScore (colourRows n col) = matrixN2 n col := by
  rw [colourRows, blockScore_eq_sum_pairs]
  exact Finset.sum_congr rfl fun r _ => rowPairBlocks_eq n (col r) (col (r + 1))

/-! ### N4: dark cells (46_mask.md R417) -/

theorem count_true_eq (n : Nat) (line : Nat → Bool) :
    ((List.range n).map line).count true = ∑ c ∈ Finset.range n, (line c).toNat := by
  induction n with
  | zero => rfl
  | succ n ih =>
    rw [List.range_succ, List.map_append, List.count_append, ih, Finset.sum_range_succ, List.map_singleton]
    cases line n <;> rfl

theorem sum_count_true_eq (n : Nat) (col : Nat → Nat → Bool) :
    ((colourRows n col).map fun row => row.count true).sum = matrixDark n col := by
  rw [sum_map_colourRows]
  exact Finset.sum_congr rfl fun r _ => count_true_eq n (col r)

theorem darkScore_eq (dark t : Nat) : darkScore dark t = 10 * ((20 * (dark : Int) - 10 * (t : Int)).natAbs / t) := by
  have : absDiff (20 * dark) (10 * t) = (20 * (dark : Int) - 10 * (t : Int)).natAbs := by unfold absDiff; omega
  rw [darkScore, this]

/-! ### The four sums (46_mask.md R418) -/

/-- A score of every row and every column. -/
theorem sum_lines_eq {score : List Bool → Nat} {sums : Nat → (Nat → Bool) → Nat}
    (h : ∀ n line, score ((List.range n).map line) = sums n line) (n : Nat) (col : Nat → Nat → Bool) :
    ((colourRows n col ++ columnLines n (colourRows n col)).map score).sum =
      ∑ i ∈ Finset.range n, (sums n (col i) + sums n fun j => col j i) := by
  have hrows : ∀ col : Nat → Nat → Bool,
      ((colourRows n col).map score).sum = ∑ i ∈ Finset.range n, sums n (col i) := fun col => by
    rw [sum_map_colourRows]
    exact Finset.sum_congr rfl fun i _ => h n (col i)
  rw [columnLines_colourRows, List.map_append, List.sum_append, hrows, hrows, Finset.sum_add_distrib]

/-- The machine's penalty of the rows of a matrix is the rules' four sums. -/
theorem penaltyOf_colourRows (n : Nat) (col : Nat → Nat → Bool) :
    penaltyOf n (colourRows n col) = matrixPenalty n col := by
  simp only [penaltyOf, sum_lines_eq lineRuns_eq, sum_lines_eq lineFinderLike_eq, blockScore_eq, sum_count_true_eq,
    darkScore_eq]
  rfl

theorem penaltyOf_eq {n : Nat} {rows : List (List Bool)} (hlen : rows.length = n)
    (hrows : ∀ row ∈ rows, row.length = n) :
    penaltyOf n rows = matrixPenalty n fun r c => (rows.getD r []).getD c false := by
  rw [← penaltyOf_colourRows, ← eq_colourRows hlen hrows]

theorem matrixPenalty_within {n : Nat} (hn : n ≤ 177) (col : Nat → Nat → Bool) :
    penaltiesWithin n (matrixPenalty n col) := by
  rw [← penaltyOf_colourRows]
  exact penaltyOf_within hn (length_colourRows n col) fun _ => length_of_mem_colourRows

/-- Only the cells inside the matrix count. -/
theorem matrixPenalty_congr {n : Nat} {col col' : Nat → Nat → Bool}
    (h : ∀ r c, r < n → c < n → col r c = col' r c) : matrixPenalty n col = matrixPenalty n col' := by
  rw [← penaltyOf_colourRows, ← penaltyOf_colourRows, colourRows_congr h]

theorem Grid.colours_eq {n : Nat} {g : Grid} (h : g.Sized n) :
    g.colours = colourRows n fun r c => cellDark (g.get r c) := by
  have hcell : ∀ r c, cellDark (g.get r c) = (g.colours.getD r []).getD c false := fun r c => by
    rw [Grid.get, Grid.colours, ← List.map_nil (f := cellDark), List.getD_map, ← List.getD_map (f := cellDark)]
    rfl
  simp only [hcell]
  refine eq_colourRows (by rw [Grid.colours, List.length_map, h.1]) fun row hrow => ?_
  obtain ⟨cells, hcells, rfl⟩ := List.mem_map.1 hrow
  rw [List.length_map, h.2 cells hcells]

/-- The penalty of the version's grid, by the colours of its cells. -/
theorem gridPenalty_eq {v : Nat} {g : Grid} (h : g.Sized (gridSide v)) {col : Nat → Nat → Bool}
    (hcol : ∀ r c, r < gridSide v → c < gridSide v → cellDark (g.get r c) = col r c) :
    gridPenalty v g = matrixPenalty (gridSide v) col := by
  rw [gridPenalty, Grid.colours_eq h, penaltyOf_colourRows, matrixPenalty_congr hcol]

/-! ### MK_SCORE (46_mask.md R431) -/

theorem symbol_allSet_iff (s : State) : s.symbol.allSet = true ↔
    ∀ r c, r < gridSide s.versionNat → c < gridSide s.versionNat → cellSet (s.cell r c) = true := by
  rw [Grid.allSet_iff (sized_symbol s)]
  exact forall₂_congr fun r c => forall₂_congr fun hr hc => by rw [get_symbol s hr hc]

/-- The penalty of the symbol is the rules' four sums over the colours of its cells. -/
theorem gridPenalty_symbol (s : State) : gridPenalty s.versionNat s.symbol =
    matrixPenalty (gridSide s.versionNat) fun r c => cellDark (s.cell r c) :=
  gridPenalty_eq (sized_symbol s) fun r c hr hc => by rw [get_symbol s hr hc]

theorem exec_mkScore {s : State} (hphase : 6 ≤ s.phaseNat)
    (hset : ∀ r c, r < gridSide s.versionNat → c < gridSide s.versionNat → cellSet (s.cell r c) = true) :
    exec .mkScore s = .next (s.setPenalty
      (matrixPenalty (gridSide s.versionNat) fun r c => cellDark (s.cell r c))).succeed := by
  rw [← gridPenalty_symbol]
  exact exec_ok (runMkScore_ok.2 ⟨hphase, (symbol_allSet_iff s).2 hset, rfl⟩)

theorem runMkScore_sequence {s : State} (h : s.symbol.allSet ≠ true) : runMkScore s = .error .sequence := by
  rw [runMkScore, if_neg h, ite_self]

/-- Settles O35: the machine's scans of the rows and columns are the rules' sums (`penaltyOf_colourRows`). -/
theorem mkScoreWritesPenalty : Obligations.MkScoreWritesPenalty := by
  intro s _ hphase
  refine ⟨exec_mkScore hphase, fun ⟨r, c, hr, hc, hunset⟩ => exec_error (runMkScore_sequence fun hall => ?_)⟩
  have hset := (symbol_allSet_iff s).1 hall r c hr hc
  rw [cellSet, hunset] at hset
  cases hset

/-! ### The penalty registers (10_state.md R51) -/

/-- Penalties whose total fits a register are written with no wrap. -/
theorem State.penalties_setPenalty (s : State) {p : Penalty} (hp : p.total < 2520000) :
    (s.setPenalty p).penalties = p ∧ (s.setPenalty p).penalty.toNat = p.total := by
  have hsum : p.total = p.n1 + p.n2 + p.n3 + p.n4 := rfl
  have hreg : ∀ x ≤ p.total, (BitVec.ofNat 32 x).toNat = x := fun x hx => Nat.mod_eq_of_lt (by omega)
  refine ⟨?_, hreg _ le_rfl⟩
  rw [State.penalties, State.setPenalty_penN1, State.setPenalty_penN2, State.setPenalty_penN3, State.setPenalty_penN4,
    hreg p.n1 (by omega), hreg p.n2 (by omega), hreg p.n3 (by omega), hreg p.n4 (by omega)]

/-- PENALTY is the total of PEN_N1 to PEN_N4, and all are within the bounds (46_mask.md R418, R425). -/
def State.PenaltiesExact (s : State) : Prop :=
  s.penalty.toNat = s.penalties.total ∧ penaltiesWithin (gridSide s.versionNat) s.penalties

theorem State.penaltiesExact_setPenalty {s : State} {p : Penalty} (hp : penaltiesWithin (gridSide s.versionNat) p) :
    (s.setPenalty p).PenaltiesExact := by
  obtain ⟨-, -, -, -, htotal⟩ := id hp
  obtain ⟨hparts, hsum⟩ := s.penalties_setPenalty htotal
  exact ⟨by rw [hparts, hsum], by rw [hparts]; exact hp⟩

theorem State.penaltiesExact_selected {s : State} {tr : BitVec 3 → Grid} {pens : Vector Penalty 8}
    (hp : penaltiesWithin (gridSide s.versionNat) (penaltyAt pens (winner pens))) :
    (s.selected tr pens).PenaltiesExact :=
  State.penaltiesExact_setPenalty (s := s) hp

theorem runMkScore_penalties {s t : State} (hs : s.DataInv) (h : runMkScore s = .ok t) : t.PenaltiesExact := by
  obtain ⟨hphase, -, rfl⟩ := runMkScore_ok.1 h
  exact State.penaltiesExact_setPenalty (gridPenalty_within (hs.legal (by omega)) (sized_symbol s))

theorem runMkSelect_penalties {s t : State} (hs : s.DataInv) (h : runMkSelect s = .ok t) : t.PenaltiesExact := by
  obtain ⟨hphase, -, rfl⟩ := runMkSelect_ok.1 h
  refine State.penaltiesExact_selected ?_
  rw [State.trialPenalties, penaltyAt_maskPenalties]
  exact gridPenalty_within (hs.legal (by omega)) (sized_trialsOf (sized_symbol s) _ _)

/-- ENCODE's penalties are those of its MK_SELECT, which begins in a state of the invariant. -/
theorem runEncode_penalties {s t : State} (hs : s.DataInv) (h : runEncode s = .ok t) : t.PenaltiesExact := by
  obtain ⟨s1, h1, s2, h2, s3, h3, s4, h4, s5, h5, s6, h6, h7⟩ := runEncode_ok.1 h
  have hs3 := runDePack_dataInv (runDeVersion_dataInv (runDeAnalyze_dataInv hs h1) h2) h3
  exact runMkSelect_penalties (runMxPlace_dataInv (runMxInit_dataInv (runCwAssemble_dataInv hs3 h4) h5) h6) h7

/-- Settles O36: the sums are the machine's own scores, and those are within the bounds (`penaltyOf_within`), which lie
below 2^32. -/
theorem penaltyBounds : Obligations.PenaltyBounds := by
  refine ⟨fun n col _ hn => matrixPenalty_within hn col, fun n rows _ hn hlen hrows =>
    ⟨penaltyOf_eq hlen hrows, penaltyOf_within hn hlen hrows⟩, fun s hinv hphase hset => ?_,
    fun i s t hi hinv ht he => ?_⟩
  · obtain ⟨hs, -⟩ := State.inv_iff.1 hinv
    have hphase : 6 ≤ s.phaseNat := hphase
    have hwithin := matrixPenalty_within (hs.gridSide_le (by omega)) fun r c => cellDark (s.cell r c)
    obtain ⟨-, -, -, -, htotal⟩ := id hwithin
    obtain ⟨hexact, hbound⟩ := State.penaltiesExact_setPenalty hwithin
    exact ⟨_, exec_mkScore hphase hset, (s.penalties_setPenalty htotal).1, hexact, hbound⟩
  · obtain ⟨hs, -⟩ := State.inv_iff.1 hinv
    obtain ⟨u, hu, rfl⟩ := runOf_ok_of_exec ht he
    have hexact : u.PenaltiesExact := by
      rcases hi with rfl | rfl | rfl
      · exact runMkScore_penalties hs hu
      · exact runMkSelect_penalties hs hu
      · exact runEncode_penalties hs hu
    exact hexact

end Sys2Proof.Machine

/-! MK_SELECT (O40, O41): each trial cell by the cell MXM holds, when the trials are all set, and what the
winner leaves. -/

namespace Sys2Proof.Machine

/-! ### The trial matrices (46_mask.md R440) -/

/-- A cell of a trial matrix. The version word is written before the mask and the format word after it; the mask leaves
the version word alone. -/
theorem get_trialsOf {v : Nat} (lev : EcLevel) (k : BitVec 3) {g : Grid} (hg : g.Sized (gridSide v)) {r c : Nat}
    (hr : r < gridSide v) (hc : c < gridSide v) : (trialsOf v lev g k).get r c = trialCell v lev k r c (g.get r c) := by
  have hversion : (writeVersion v g).Sized (gridSide v) := sized_writeBits _ _ hg
  rw [trialsOf, trial, get_writeFormat lev k (sized_applyMask hversion k) hr hc, get_applyMask hversion k hr hc,
    get_writeVersion hg hr hc, trialCell]
  cases formatBitAt (gridSide v) r c with
  | some b => rfl
  | none =>
    cases versionBitAt v (gridSide v) r c with
    | some b => exact maskCell_of_func (cellFunc_funcCell _)
    | none => rfl

/-- The cell shows neither a format bit nor a version bit (45_matrix.md R356, R359). -/
def ShowsNoWord (v r c : Nat) : Prop := formatBitAt (gridSide v) r c = none ∧ versionBitAt v (gridSide v) r c = none

theorem trialCell_of_showsNoWord {v r c : Nat} (h : ShowsNoWord v r c) (lev : EcLevel) (k : BitVec 3) (x : Cell) :
    trialCell v lev k r c x = maskCell k r c x := by
  rw [trialCell, h.1, h.2]

theorem trialCell_of_not_showsNoWord {v r c : Nat} (h : ¬ShowsNoWord v r c) (lev : EcLevel) (k : BitVec 3) (x : Cell) :
    ∃ dark, trialCell v lev k r c x = funcCell dark := by
  unfold trialCell
  unfold ShowsNoWord at h
  cases hf : formatBitAt (gridSide v) r c with
  | some b => exact ⟨_, rfl⟩
  | none =>
    cases hv : versionBitAt v (gridSide v) r c with
    | some b => exact ⟨_, rfl⟩
    | none => exact absurd ⟨hf, hv⟩ h

theorem cellSet_funcCell (dark : Bool) : cellSet (funcCell dark) = true := by revert dark; decide

/-- A trial cell is set where it shows a word's bit, and elsewhere where it was set before. -/
theorem cellSet_trialCell {v r c : Nat} {lev : EcLevel} {k : BitVec 3} {x : Cell} :
    cellSet (trialCell v lev k r c x) = true ↔ (ShowsNoWord v r c → cellSet x = true) := by
  by_cases h : ShowsNoWord v r c
  · rw [trialCell_of_showsNoWord h, (maskCell_set_func k r c x).1]
    simp [h]
  · obtain ⟨dark, hd⟩ := trialCell_of_not_showsNoWord h lev k x
    rw [hd, cellSet_funcCell]
    simp [h]

theorem get_trials (s : State) (k : BitVec 3) {r c : Nat} (hr : r < gridSide s.versionNat)
    (hc : c < gridSide s.versionNat) : (s.trials k).get r c = trialCell s.versionNat s.ecLevel k r c (s.cell r c) := by
  rw [State.trials, get_trialsOf s.ecLevel k (sized_symbol s) hr hc, get_symbol s hr hc]

theorem sized_trials (s : State) (k : BitVec 3) : (s.trials k).Sized (gridSide s.versionNat) :=
  sized_trialsOf (sized_symbol s) s.ecLevel k

theorem trials_allSet_iff (s : State) : maskIndices.all (fun k => (s.trials k).allSet) = true ↔
    ∀ r c, r < gridSide s.versionNat → c < gridSide s.versionNat → ShowsNoWord s.versionNat r c →
      cellSet (s.cell r c) = true := by
  have htrial : ∀ k, (s.trials k).allSet = true ↔ ∀ r c, r < gridSide s.versionNat → c < gridSide s.versionNat →
      ShowsNoWord s.versionNat r c → cellSet (s.cell r c) = true := fun k => by
    rw [Grid.allSet_iff (sized_trials s k)]
    exact forall₂_congr fun r c => forall₂_congr fun hr hc => by rw [get_trials s k hr hc, cellSet_trialCell]
  simp only [List.all_eq_true, htrial]
  exact ⟨fun h => h 0#3 (mem_maskIndices _), fun h _ _ => h⟩

theorem runMkSelect_sequence {s : State} (h : maskIndices.all (fun k => (s.trials k).allSet) ≠ true) :
    runMkSelect s = .error .sequence := by
  rw [runMkSelect]
  split
  · rfl
  · exact if_neg h

/-- The penalty of a trial is the rules' four sums over its cells. -/
theorem penaltyAt_trialPenalties (s : State) (k : BitVec 3) : penaltyAt s.trialPenalties k =
    matrixPenalty (gridSide s.versionNat)
      fun r c => cellDark (trialCell s.versionNat s.ecLevel k r c (s.cell r c)) := by
  rw [State.trialPenalties, penaltyAt_maskPenalties]
  exact gridPenalty_eq (sized_trials s k) fun r c hr hc => by rw [get_trials s k hr hc]

/-! ### The selection (46_mask.md R440) -/

theorem State.selected_score (s : State) (tr : BitVec 3 → Grid) (pens : Vector Penalty 8) (k : Fin 8) :
    (s.selected tr pens).scores[k] = BitVec.ofNat 32 (penaltyAt pens (BitVec.ofNat 3 k.val)).total := by
  have hk : (BitVec.ofNat 3 k.val).toFin = k := by revert k; decide
  simp only [State.selected_scores, penaltyAt, hk]
  exact Vector.getElem_map _ _

/-- What is left of eight grids and their penalties: the grid, the penalty and the scores of the lowest of the least. -/
theorem selected_spec {s t : State} {tr : BitVec 3 → Grid} {pens : Vector Penalty 8}
    (ht : t = (s.selected tr pens).succeed) {n : Nat} (hn : n ≤ 177) (hsized : ∀ k, (tr k).Sized n)
    {pen : BitVec 3 → Penalty} (hpen : ∀ k, penaltyAt pens k = pen k) :
    t = ({ s.setPenalty (pen t.mask) with mxm := t.mxm, mask := t.mask, scores := t.scores, phase := 7#3 } :
      State).succeed ∧
    (∀ k : BitVec 3, (pen t.mask).total ≤ (pen k).total ∧ (k < t.mask → (pen t.mask).total < (pen k).total)) ∧
    (∀ k : Fin 8, t.scores[k] = BitVec.ofNat 32 (pen (BitVec.ofNat 3 k.val)).total) ∧
    (∀ r c, r < n → c < n → t.cell r c = (tr t.mask).get r c) ∧
    ∀ a, outsideSymbol n a = true → t.mxm.read a = s.mxm.read a := by
  have hmask : t.mask = winner pens := by rw [ht, State.succeed_mask, State.selected_mask]
  have hmxm : t.mxm = storeGrid s.mxm (tr t.mask) := by
    rw [hmask, ht, State.succeed_mxm, State.selected_mxm]
  refine ⟨?_, fun k => ?_, fun k => ?_, fun r c hr hc => cell_eq_get hmxm hn (hsized _) hr hc, fun a ha => ?_⟩
  · rw [← hpen, hmask, ht]
    rfl
  · rw [← hpen, ← hpen, hmask]
    exact ⟨winner_le pens k, winner_lt⟩
  · rw [← hpen, ← State.selected_score s tr pens k, ht]
    rfl
  · rw [hmxm, read_storeGrid_outside s.mxm hn (hsized _) ha]

/-- Settles O40: a trial is all set when every masked cell is, and the fold over the indices keeps the lowest of the
least (`winner_le`, `winner_lt`). -/
theorem mkSelectKeepsBestMask : Obligations.MkSelectKeepsBestMask := by
  intro s hinv hphase
  obtain ⟨hs, -⟩ := State.inv_iff.1 hinv
  have hphase : s.phaseNat = 6 := hphase
  have hside := hs.gridSide_le (by omega)
  have hpen := penaltyAt_trialPenalties s
  refine ⟨_, _, _, _, rfl, rfl, rfl, rfl, fun hset => ?_, fun ⟨r, c, hr, hc, hunset, hf, hv⟩ =>
    exec_error (runMkSelect_sequence fun hall => ?_)⟩
  · have hall : maskIndices.all (fun k => (s.trials k).allSet) = true := by
      refine (trials_allSet_iff s).2 fun r c hr hc ⟨hf, hv⟩ => ?_
      rcases hset r c hr hc with h | h | h
      · exact h
      · rw [show formatBitAt (gridSide s.version.toNat) r c = none from hf] at h
        cases h
      · rw [show versionBitAt s.version.toNat (gridSide s.version.toNat) r c = none from hv] at h
        cases h
    obtain ⟨hframe, hleast, hscores, hcell, hout⟩ := selected_spec rfl hside (sized_trials s) hpen
    refine ⟨_, exec_ok (runMkSelect_ok.2 ⟨hphase, hall, rfl⟩), hframe, hleast, hscores, fun r c hr hc => ?_, hout⟩
    rw [hcell r c hr hc]
    exact get_trials s _ hr hc
  · have := (trials_allSet_iff s).1 hall r c hr hc ⟨hf, hv⟩
    rw [cellSet, hunset] at this
    cases this

/-- Settles O41: a data cell of the kept trial is no word's cell, so it is the masked cell, and it was set. -/
theorem xorLaw : Obligations.XorLaw := by
  intro s t hinv ht he r c hr hc hfunc
  obtain ⟨hs, -⟩ := State.inv_iff.1 hinv
  obtain ⟨u, hu, htu⟩ := runOf_ok_of_exec ht he
  obtain ⟨hphase, hall, rfl⟩ := runMkSelect_ok.1 hu
  obtain ⟨-, -, -, hcell, -⟩ :=
    selected_spec htu (hs.gridSide_le (by omega)) (sized_trials s) (penaltyAt_trialPenalties s)
  have htrial := (hcell r c hr hc).trans (get_trials s t.mask hr hc)
  have hfunc : cellFunc (t.cell r c) = false := hfunc
  have hplain : ShowsNoWord s.versionNat r c := by
    by_contra h
    obtain ⟨dark, hd⟩ := trialCell_of_not_showsNoWord h s.ecLevel t.mask (s.cell r c)
    rw [htrial, hd, cellFunc_funcCell] at hfunc
    cases hfunc
  rw [trialCell_of_showsNoWord hplain] at htrial
  have hdata : cellData (s.cell r c) = true := by
    rw [htrial, (maskCell_set_func _ _ _ _).2] at hfunc
    rw [cellData, hfunc, (trials_allSet_iff s).1 hall r c hr hc hplain]
    rfl
  rw [htrial]
  exact cellDark_maskCell hdata

end Sys2Proof.Machine

/-! The rasterizer (O42). The image is written row after row, so a byte's address names its pixel
(`getElem?_imageBytes`); the module at a pixel is the block the pixel lies in (`moduleAt_geometry`). -/

namespace Sys2Proof.Machine

/-! ### Rows of equal length -/

theorem length_flatMap_range {α : Type} {f : Nat → List α} {k : Nat} (hf : ∀ i, (f i).length = k) (a : Nat) :
    ((List.range a).flatMap f).length = a * k := by
  simp [List.length_flatMap, hf]

/-- Entry `j` of row `i` in rows of length `k` written one after the other. -/
theorem getElem?_flatMap_range {α : Type} {f : Nat → List α} {k : Nat} (hf : ∀ i, (f i).length = k) {a i j : Nat}
    (hi : i < a) (hj : j < k) : ((List.range a).flatMap f)[i * k + j]? = (f i)[j]? := by
  induction a with
  | zero => exact absurd hi (Nat.not_lt_zero i)
  | succ a ih =>
    have hlen := length_flatMap_range hf a
    rw [List.range_succ, List.flatMap_append, List.flatMap_singleton]
    rcases Nat.lt_succ_iff_lt_or_eq.1 hi with hi | rfl
    · have hrow : (i + 1) * k ≤ a * k := Nat.mul_le_mul_right k hi
      rw [List.getElem?_append_left (by rw [Nat.succ_mul] at hrow; omega), ih hi]
    · rw [List.getElem?_append_right (by omega), hlen, Nat.add_sub_cancel_left]

/-! ### The bytes of the image (47_raster.md R464) -/

/-- Byte `i` of a pixel, the high byte of its colour first. -/
theorem getElem?_pixelBytes (c : Word) {i : Nat} (hi : i < 4) :
    (pixelBytes c)[i]? = some (BitVec.ofNat 8 (c.toNat / 256 ^ (3 - i))) := by
  have hrev : pixelBytes c = (bytesOfWord c).reverse := rfl
  have hlen : (bytesOfWord c).length = 4 := rfl
  rw [hrev, List.getElem?_reverse (by omega), List.getElem?_eq_getElem (by omega), getElem_bytesOfWord, hlen]

theorem getElem?_imageBytes (geo : Geometry) (n q : Nat) (g : Grid) (dark light : Word) {x y i : Nat}
    (hx : x < geo.side) (hy : y < geo.side) (hi : i < 4) :
    (imageBytes geo n q g dark light)[4 * (y * geo.side + x) + i]? =
      some (BitVec.ofNat 8 ((pixelAt geo n q g dark light x y).toNat / 256 ^ (3 - i))) := by
  have hpixel : ∀ y x, (pixelBytes (pixelAt geo n q g dark light x y)).length = 4 := fun _ _ => rfl
  have hrow := fun y => length_flatMap_range (hpixel y) geo.side
  have haddr : 4 * (y * geo.side + x) + i = y * (geo.side * 4) + (x * 4 + i) := by ring
  rw [imageBytes, haddr, getElem?_flatMap_range hrow hy (by omega), getElem?_flatMap_range (hpixel y) hx hi,
    getElem?_pixelBytes _ hi]

/-- The bytes of pixel (x, y), read off a memory the image is written to. -/
theorem read_write_imageBytes (m : Memory) (geo : Geometry) (n q : Nat) (g : Grid) (dark light : Word) {x y i : Nat}
    (hx : x < geo.side) (hy : y < geo.side) (hi : i < 4) :
    ((m.write 0 (imageBytes geo n q g dark light)).read (4 * (y * geo.side + x) + i)).toNat =
      (pixelAt geo n q g dark light x y).toNat / 256 ^ (3 - i) % 256 := by
  have hread := Memory.read_write_of_getElem? (m := m) (a := 0) (getElem?_imageBytes geo n q g dark light hx hy hi)
  rw [Nat.zero_add] at hread
  rw [hread, BitVec.toNat_ofNat]

/-! ### The module at a pixel (47_raster.md R462, R463) -/

theorem geometry_scale_pos (n size q : Nat) : 0 < (geometry n size q).scale := Nat.le_max_left 1 _

/-- A coordinate past the offset lies in one of the modules `lo` to `hi - 1` when it is one of their pixels. -/
theorem div_mem_iff {off scale x : Nat} (hscale : 0 < scale) (hx : off ≤ x) (lo hi : Nat) :
    lo ≤ (x - off) / scale ∧ (x - off) / scale < hi ↔ off + lo * scale ≤ x ∧ x < off + hi * scale := by
  rw [Nat.le_div_iff_mul_le hscale, Nat.div_lt_iff_lt_mul hscale]
  omega

/-- The symbol's pixels are the blocks of its modules: they all lie within the part of the image the geometry uses. -/
theorem moduleAt_geometry (n size q : Nat) (g : Grid) (x y : Nat) {geo : Geometry} (hgeo : geo = geometry n size q) :
    moduleAt geo n q g x y =
      if (geo.off + q * geo.scale ≤ x ∧ x < geo.off + (q + n) * geo.scale) ∧
        geo.off + q * geo.scale ≤ y ∧ y < geo.off + (q + n) * geo.scale then
        some (cellDark (g.get ((y - geo.off) / geo.scale - q) ((x - geo.off) / geo.scale - q))) else none := by
  have hscale : 0 < geo.scale := hgeo ▸ geometry_scale_pos n size q
  have hused : (q + n) * geo.scale ≤ geo.used := by
    rw [show geo.used = geo.scale * (n + 2 * q) by rw [hgeo]; rfl, Nat.mul_comm]
    exact Nat.mul_le_mul_left _ (by omega)
  rw [moduleAt]
  by_cases hin : geo.off ≤ x ∧ x < geo.off + geo.used ∧ geo.off ≤ y ∧ y < geo.off + geo.used
  · have ⟨hx, _, hy, _⟩ := hin
    rw [if_pos hin]
    simp only [← div_mem_iff hscale hx, ← div_mem_iff hscale hy, and_assoc]
  · rw [if_neg hin, if_neg (by omega)]

/-- Module (r, c) covers its block of pixels. -/
theorem pixelAt_module {n size q : Nat} {geo : Geometry} (hgeo : geo = geometry n size q) (g : Grid) (dark light : Word)
    {x y r c : Nat} (hr : r < n) (hc : c < n)
    (hx : geo.off + (q + c) * geo.scale ≤ x) (hx' : x < geo.off + (q + c + 1) * geo.scale)
    (hy : geo.off + (q + r) * geo.scale ≤ y) (hy' : y < geo.off + (q + r + 1) * geo.scale) :
    pixelAt geo n q g dark light x y = if cellDark (g.get r c) = true then dark else light := by
  have hblock : ∀ {z m : Nat}, m < n → geo.off + (q + m) * geo.scale ≤ z → z < geo.off + (q + m + 1) * geo.scale →
      (geo.off + q * geo.scale ≤ z ∧ z < geo.off + (q + n) * geo.scale) ∧ (z - geo.off) / geo.scale = q + m := by
    intro z m hm hz hz'
    have hlo : q * geo.scale ≤ (q + m) * geo.scale := Nat.mul_le_mul_right _ (by omega)
    have hhi : (q + m + 1) * geo.scale ≤ (q + n) * geo.scale := Nat.mul_le_mul_right _ (by omega)
    exact ⟨by omega, Nat.div_eq_of_lt_le (by omega) (by omega)⟩
  obtain ⟨hxin, hxdiv⟩ := hblock hc hx hx'
  obtain ⟨hyin, hydiv⟩ := hblock hr hy hy'
  rw [pixelAt, moduleAt_geometry n size q g x y hgeo, if_pos ⟨hxin, hyin⟩, hxdiv, hydiv, Nat.add_sub_cancel_left,
    Nat.add_sub_cancel_left]
  cases cellDark (g.get r c) <;> rfl

/-- The quiet zone and the centring margin are light. -/
theorem pixelAt_margin {n size q : Nat} {geo : Geometry} (hgeo : geo = geometry n size q) (g : Grid) (dark light : Word)
    {x y : Nat} (h : x < geo.off + q * geo.scale ∨ geo.off + (q + n) * geo.scale ≤ x ∨
      y < geo.off + q * geo.scale ∨ geo.off + (q + n) * geo.scale ≤ y) :
    pixelAt geo n q g dark light x y = light := by
  rw [pixelAt, moduleAt_geometry n size q g x y hgeo, if_neg (by omega)]

/-! ### RENDER (47_raster.md R470) -/

theorem loadGrid_allSet_iff (s : State) (n : Nat) : (loadGrid s.mxm n).allSet = true ↔
    ∀ r c, r < n → c < n → cellSet (s.cell r c) = true := by
  rw [Grid.allSet_iff (sized_loadGrid s.mxm n)]
  exact forall₂_congr fun r c => forall₂_congr fun hr hc => by rw [get_loadGrid s.mxm hr hc]; rfl

theorem runRender_sizeZero {s : State} (hphase : s.phaseNat = 7) (hsize : s.pixSize.toNat = 0) :
    runRender s = .error .invalidParameter := by
  rw [runRender, if_neg (not_not.2 hphase), if_pos hsize]

theorem runRender_sequence {s : State} (hsize : s.pixSize.toNat ≠ 0)
    (hset : (loadGrid s.mxm s.mxSize.toNat).allSet ≠ true) : runRender s = .error .sequence := by
  rw [runRender, if_neg hsize, if_neg hset, ite_self]

theorem runRender_tooLarge {s : State} (hphase : s.phaseNat = 7) (hsize : s.pixSize.toNat ≠ 0)
    (hset : (loadGrid s.mxm s.mxSize.toNat).allSet = true)
    (hlarge : s.pixMax < (geometry s.mxSize.toNat s.pixSize.toNat s.quiet.toNat).side *
      (geometry s.mxSize.toNat s.pixSize.toNat s.quiet.toNat).side) : runRender s = .error .invalidParameter := by
  rw [runRender, if_neg (not_not.2 hphase), if_neg hsize, if_pos hset, if_neg (Nat.not_le.2 hlarge)]

/-- PIX has room for no image whose side is wider than PIX_SIDE (10_state.md R58). -/
theorem State.DataInv.side_lt {s : State} (hs : s.DataInv) {w : Nat} (h : w * w ≤ s.pixMax) : w < 2 ^ 16 := by
  have hmax : s.pixMax ≤ 3145728 := hs.pixMax_le
  exact Nat.mul_self_lt_mul_self_iff.1 (by omega)

/-- Settles O42: a byte of PIX is its pixel's (`read_write_imageBytes`), and the pixel its module's (`pixelAt_module`) or
light (`pixelAt_margin`). -/
theorem renderPaintsModules : Obligations.RenderPaintsModules := by
  intro s hinv hphase
  obtain ⟨hs, -⟩ := State.inv_iff.1 hinv
  have hphase : s.phaseNat = 7 := hphase
  have hall := loadGrid_allSet_iff s s.mxSize.toNat
  refine ⟨_, _, _, _, _, _, _, rfl, rfl, rfl, rfl, rfl, rfl, rfl, fun hsize hset hfits => ?_,
    fun hsize => exec_error (runRender_sizeZero hphase hsize),
    fun hsize ⟨r, c, hr, hc, hunset⟩ => exec_error (runRender_sequence hsize fun h => ?_),
    fun hsize hset hlarge => exec_error (runRender_tooLarge hphase hsize (hall.2 hset) hlarge)⟩
  · refine ⟨_, exec_ok (runRender_ok.2 ⟨hphase, hsize, hall.2 hset, hfits, rfl⟩), rfl, hs.side_lt hfits,
      fun x y hx hy => ⟨_, fun i hi => read_write_imageBytes s.pix
        (geometry s.mxSize.toNat s.pixSize.toNat s.quiet.toNat) s.mxSize.toNat s.quiet.toNat _ s.dark s.light hx hy hi,
        fun r c hr hc hxl hxr hyl hyr => ?_, pixelAt_margin rfl _ _ _⟩, fun a ha => ?_⟩
    · rw [pixelAt_module rfl _ _ _ hr hc hxl hxr hyl hyr, get_loadGrid s.mxm hr hc]
      rfl
    · exact Memory.read_write_outside (Or.inr (by rw [length_imageBytes, Nat.zero_add]; exact ha))
  · have := hall.1 h r c hr hc
    rw [cellSet, hunset] at this
    cases this

end Sys2Proof.Machine

/-! NOP (O43) and ENCODE (O44, O45). ENCODE is the completion of the chained rules. Run as commands, the same rules also
complete one by one, which the next rule does not see (`exec_succeed`); on a text that fits, each of them succeeds. -/

namespace Sys2Proof.Machine

/-- Settles O43: the rule of NOP is the state itself. -/
theorem nopChangesNothing : Obligations.NopChangesNothing := fun s => exec_ok (i := .nop) (t := s) rfl

/-! ### The chained commands (48_top.md R495, R497) -/

theorem runChain_cons_of_ok {f : State → CmdResult} {fs : List (State → CmdResult)} {s t : State}
    (h : f s = .ok t) : runChain (f :: fs) s = runChain fs t := by
  rw [runChain_cons, h]

theorem runChain_cons_of_error {f : State → CmdResult} {fs : List (State → CmdResult)} {s : State} {e : ErrorCode}
    (h : f s = .error e) : runChain (f :: fs) s = .error e := by
  rw [runChain_cons, h]

/-- A command after a success does what it does without that success's flags and code. -/
theorem exec_succeed (i : Instr) (s : State) : exec i s.succeed = exec i s := by
  rw [exec_eq, exec_eq, show s.succeed = s.reflag s.succeed.status 0#8 from rfl, runOf_reflag, complete_reflag]
  cases hr : runOf i s with
  | error e => rfl
  | ok t =>
    have hoverrun : s.status.overrun = t.status.overrun := by rw [(runOf_host hr).status]
    rw [State.succeed_status, Status.completed_overrun, hoverrun]
    rfl

theorem execSeq_cons_ok {i : Instr} {is : List Instr} {s t : State} (h : runOf i s = .ok t) :
    State.execSeq (i :: is) s = State.execSeq is t.succeed := by
  rw [State.execSeq, exec_ok h]
  exact if_pos rfl

theorem execSeq_cons_error {i : Instr} {is : List Instr} {s : State} {e : ErrorCode} (h : runOf i s = .error e) :
    State.execSeq (i :: is) s = s.raise e := by
  rw [State.execSeq, exec_error h]
  exact if_neg e.code_ne_zero

theorem execSeq_succeed {is : List Instr} (h : is ≠ []) (s : State) :
    State.execSeq is s.succeed = State.execSeq is s := by
  cases is with
  | nil => exact absurd rfl h
  | cons i is =>
    simp only [State.execSeq, exec_succeed]
    rw [exec_eq]

/-- Commands one after another end as the chain of their rules does: in its state, or at its error. -/
theorem execSeq_eq_runChain (is : List Instr) (s : State) :
    (∃ t, runChain (is.map runOf) s = .ok t ∧ State.execSeq is s.succeed = t.succeed) ∨
      ∃ e, runChain (is.map runOf) s = .error e ∧ (State.execSeq is s.succeed).errcode = e.code := by
  induction is generalizing s with
  | nil => exact .inl ⟨s, rfl, rfl⟩
  | cons i is ih =>
    rw [execSeq_succeed (List.cons_ne_nil i is), List.map_cons]
    cases hr : runOf i s with
    | ok t =>
      rw [runChain_cons_of_ok hr, execSeq_cons_ok hr]
      exact ih t
    | error e =>
      rw [runChain_cons_of_error hr, execSeq_cons_error hr]
      exact .inr ⟨e, rfl, rfl⟩

theorem runEncode_eq_runChain (s : State) : runEncode s = runChain (encodeChain.map runOf) s := rfl

/-- Settles O44: the commands end as the chain of their rules does (`execSeq_eq_runChain`), but ENCODE raises the
chain's error on the state before the chain. -/
theorem encodeIsTheChain : Obligations.EncodeIsTheChain := by
  rintro s u rfl
  have hchain := execSeq_eq_runChain encodeChain s
  rw [← runEncode_eq_runChain, execSeq_succeed (is := encodeChain) (List.cons_ne_nil _ _)] at hchain
  rcases hchain with ⟨t, hrun, hseq⟩ | ⟨e, hrun, hcode⟩
  · rw [hseq]
    exact ⟨fun _ => exec_ok (i := .encode) hrun, fun hne => absurd rfl hne⟩
  · rw [hcode]
    exact ⟨fun h0 => absurd h0 e.code_ne_zero, fun _ => exec_error (i := .encode) hrun⟩

/-! ### DE_ANALYZE, DE_VERSION, DE_PACK and CW_ASSEMBLE on a text that fits -/

theorem Mode.ofCode_code (m : Mode) : Mode.ofCode m.code = some m := by cases m <;> rfl

/-- The text's own mode takes each of its bytes (43_data_encoder.md R263, R300). -/
theorem textInClass_modeOf (t : List Byte) : textInClass (modeOf t) t = true := by
  by_cases hnum : t.all isNum = true
  · rw [modeOf_of_numeric hnum]
    exact hnum
  · by_cases halnum : t.all isAlnum = true
    · rw [modeOf_of_alphanumeric hnum halnum]
      exact halnum
    · rw [modeOf_of_byte halnum]
      rfl

theorem runDeVersion_of_selected {s : State} {m : Mode} {v : BitVec 6} (hphase : 1 ≤ s.phaseNat)
    (hm : Mode.ofCode s.mode = some m) (hlen : s.textBytes ≤ Config.txtSize)
    (hv : selectVersion m s.textBytes s.ecLevel = some v.toNat) :
    runDeVersion s = .ok { s with version := v, phase := 2#3 } := by
  have hversion : BitVec.ofNat 6 v.toNat = v := by simp
  rw [runDeVersion_ok.2 ⟨hphase, m, hm, hlen, _, hv, rfl⟩, hversion]

/-- ENCODE's state after CW_ASSEMBLE, with the version chosen and what CWM holds then. -/
def State.assembled (s : State) (v : BitVec 6) (cwm : Memory) : State :=
  { s with
    mode := (modeOf s.text).code
    version := v
    dataCw := BitVec.ofNat 16 (dataCodewords v.toNat s.ecLevel)
    totalCw := BitVec.ofNat 16 (totalCodewords v.toNat)
    bitLen := BitVec.ofNat 16 (reqBits (modeOf s.text) s.textBytes v.toNat)
    cwm := cwm
    phase := 4#3 }

/-- CWM may change in the D bytes from 0 and in the T bytes from 0x1000 only (48_top.md R496). -/
def CodewordsOnly (v : Nat) (lev : EcLevel) (m m' : Memory) : Prop :=
  ∀ a, (dataCodewords v lev ≤ a ∧ a < 0x1000) ∨ 0x1000 + totalCodewords v ≤ a → m'.read a = m.read a

theorem codewordsOnly_writes {v : Nat} {lev : EcLevel} (m : Memory) {d c : List Byte}
    (hd : d.length = dataCodewords v lev) (hc : c.length = totalCodewords v) :
    CodewordsOnly v lev m ((m.write 0 d).write Config.finalBase c) := by
  have hbase : Config.finalBase = 0x1000 := rfl
  have hle : dataCodewords v lev ≤ totalCodewords v := Nat.sub_le _ _
  intro a ha
  rw [Memory.read_write_outside (by omega), Memory.read_write_outside (by omega)]

theorem runCwAssemble_of_fits {s : State} {v : BitVec 6} (hlen : s.textBytes ≤ Config.txtSize)
    (hlegal : legalVersion v.toNat = true)
    (hv : selectVersion (modeOf s.text) s.textBytes s.ecLevel = some v.toNat)
    (hfits : reqBits (modeOf s.text) s.textBytes v.toNat ≤ 8 * dataCodewords v.toNat s.ecLevel) :
    ∃ s1, runDeAnalyze s = .ok s1 ∧ ∃ s2, runDeVersion s1 = .ok s2 ∧ ∃ s3, runDePack s2 = .ok s3 ∧
      ∃ cwm, runCwAssemble s3 = .ok (s.assembled v cwm) ∧ CodewordsOnly v.toNat s.ecLevel s.cwm cwm := by
  obtain ⟨h1, h40⟩ := legalVersion_iff.1 hlegal
  have hmode := Mode.ofCode_code (modeOf s.text)
  have hbits := (fits_iff_of_legal h1 h40).2 hfits
  exact ⟨_, runDeAnalyze_ok.2 ⟨hlen, rfl⟩, _, runDeVersion_of_selected le_rfl hmode hlen hv,
    _, runDePack_ok.2 ⟨le_rfl, _, hmode, ⟨hlegal, hlen⟩, textInClass_modeOf _, hbits, rfl⟩,
    _, runCwAssemble_ok.2 ⟨le_rfl, hlegal, rfl⟩,
    codewordsOnly_writes s.cwm (length_pack (by rwa [State.length_text]))
      (length_interleave hlegal (Memory.length_readBytes ..))⟩

/-! ### MX_INIT, MX_PLACE and MK_SELECT after it -/

/-- MX_INIT leaves as many cells to fill as the version has modules (43_data_encoder.md R271). -/
theorem length_dataEmptyCells_buildPattern {v : Nat} {g : Grid} (hv : legalVersion v = true)
    (hg : buildPattern v = .ok g) :
    (dataEmptyCells g (gridSide v)).length = 8 * totalCodewords v + remainderBits v := by
  obtain ⟨g', m, hg', hm, hcount⟩ := buildPattern_models hv
  obtain rfl := Except.ok.inj (hg.symm.trans hg')
  have := hm.used_add_emptyCells
  rw [(dataEmptyCells_perm_emptyCells hv hg).length_eq, rawModules_eq]
  omega

/-- A pattern cell that shows no word is EMPTY or has a colour: MX_INIT reserves the words' cells only. -/
theorem patternCell_eq_empty_or_set {v r c : Nat} (h : ShowsNoWord v r c) :
    patternCell v r c = CellCode.empty ∨ cellSet (patternCell v r c) = true := by
  obtain ⟨hformat, hversion⟩ := h
  unfold patternCell
  dsimp only
  split
  · exact .inr (cellSet_funcCell _)
  · split
    · exact .inr (cellSet_funcCell _)
    · rw [hformat, hversion]
      split_ifs with htiming hdark hreserved
      · exact .inr (cellSet_funcCell _)
      · exact .inr (by decide)
      · cases hreserved
      · exact .inl rfl

theorem cellSet_dataCell (dark : Bool) : cellSet (dataCell dark) = true := by revert dark; decide

/-- Once every EMPTY cell of the pattern has a bit, every cell that shows no word has a colour. -/
theorem cellSet_placeBits {v r c : Nat} {g : Grid} {bits : List Bool} (hv : legalVersion v = true)
    (hg : buildPattern v = .ok g) (hbits : (dataEmptyCells g (gridSide v)).length ≤ bits.length)
    (hr : r < gridSide v) (hc : c < gridSide v) (h : ShowsNoWord v r c) :
    cellSet ((placeBits g (dataEmptyCells g (gridSide v)) bits).get r c) = true := by
  have hn := gridSide_mod_four v
  have h8 : 8 ≤ gridSide v := le_trans (by decide) gridSide_ge
  have hsized := sized_of_buildPattern hv hg
  have hin := fun x => lt_of_mem_dataEmptyCells (g := g) hn h8 (x := x)
  by_cases hmem : (r, c) ∈ dataEmptyCells g (gridSide v)
  · obtain ⟨p, hp⟩ := List.mem_iff_getElem?.1 hmem
    have hlt : p < (dataEmptyCells g (gridSide v)).length := (List.getElem?_eq_some_iff.1 hp).1
    rw [get_placeBits hsized hin (nodup_dataEmptyCells hn h8) hp (hlt.trans_le hbits)]
    exact cellSet_dataCell _
  · have hfilled : patternCell v r c ≠ CellCode.empty := fun hempty => hmem <|
      (dataEmptyCells_perm_emptyCells hv hg).mem_iff.2
        (mem_emptyCells.2 ⟨hr, hc, (get_buildPattern hv hg hr hc).trans hempty⟩)
    rw [get_placeBits_other hsized hin hr hc hmem, get_buildPattern hv hg hr hc]
    exact (patternCell_eq_empty_or_set h).resolve_left hfilled

/-- `place` succeeds on MX_INIT's grid and leaves only the words' cells unset. -/
theorem place_buildPattern {v : Nat} {g : Grid} {cw : List Byte} (hv : legalVersion v = true)
    (hg : buildPattern v = .ok g) (hcw : cw.length = totalCodewords v) :
    ∃ placed, place v (gridSide v) cw g = .ok placed ∧ placed.Sized (gridSide v) ∧
      ∀ r c, r < gridSide v → c < gridSide v → ShowsNoWord v r c → cellSet (placed.get r c) = true := by
  have hlen := length_dataEmptyCells_buildPattern hv hg
  have hbits := length_placementStream v cw
  rw [hcw] at hbits
  exact ⟨_, place_eq_ok hlen, sized_placeBits _ _ (sized_of_buildPattern hv hg),
    fun r c => cellSet_placeBits hv hg (hlen.trans hbits.symm).le⟩

/-- Every cell of the n × n symbol has a colour. -/
def State.CellsSet (s : State) (n : Nat) : Prop := ∀ r c, r < n → c < n → cellSet (s.cell r c) = true

/-- `s` with what MK_SELECT writes as `t` has it. -/
def State.withSelection (s t : State) : State :=
  { s with
    mask := t.mask
    penalty := t.penalty
    penN1 := t.penN1
    penN2 := t.penN2
    penN3 := t.penN3
    penN4 := t.penN4
    scores := t.scores
    mxm := t.mxm
    phase := 7#3 }

theorem State.selected_eq_withSelection (s : State) (tr : BitVec 3 → Grid) (pens : Vector Penalty 8) :
    s.selected tr pens = s.withSelection (s.selected tr pens) := rfl

/-- MK_SELECT succeeds when every cell that shows no word is set. It sets the words' cells too. -/
theorem runMkSelect_of_set {s : State} (hphase : s.phaseNat = 6) (hside : gridSide s.versionNat ≤ 177)
    (hset : ∀ r c, r < gridSide s.versionNat → c < gridSide s.versionNat → ShowsNoWord s.versionNat r c →
      cellSet (s.cell r c) = true) :
    ∃ t, runMkSelect s = .ok t ∧ t = s.withSelection t ∧
      t.CellsSet (gridSide s.versionNat) ∧
      ∀ a, outsideSymbol (gridSide s.versionNat) a = true → t.mxm.read a = s.mxm.read a := by
  have hall := (trials_allSet_iff s).2 hset
  refine ⟨_, runMkSelect_ok.2 ⟨hphase, hall, rfl⟩, s.selected_eq_withSelection _ _, fun r c hr hc => ?_,
    fun a ha => ?_⟩
  · rw [cell_eq_get (State.selected_mxm ..) hside (sized_trials _ _) hr hc]
    exact (Grid.allSet_iff (sized_trials _ _)).1 (List.all_eq_true.1 hall _ (mem_maskIndices _)) r c hr hc
  · rw [State.selected_mxm, read_storeGrid_outside _ hside (sized_trials _ _) ha]

/-- MX_PLACE and MK_SELECT succeed on the pattern MX_INIT has built. -/
theorem runMkSelect_of_built {s : State} {g : Grid} (hphase : s.phaseNat = 5) (hv : legalVersion s.versionNat = true)
    (hg : buildPattern s.versionNat = .ok g) (hsize : s.mxSize.toNat = gridSide s.versionNat)
    (hmxm : s.mxm = storeGrid clearedMxm g) :
    ∃ s6, runMxPlace s = .ok s6 ∧ ∃ t, runMkSelect s6 = .ok t ∧ t = s.withSelection t ∧
      t.CellsSet (gridSide s.versionNat) ∧
      ∀ a, outsideSymbol (gridSide s.versionNat) a = true → t.mxm.read a = 0#8 := by
  have hside := gridSide_le hv
  have hsized := sized_of_buildPattern hv hg
  have hload : loadGrid s.mxm (gridSide s.versionNat) = g := by rw [hmxm, loadGrid_storeGrid _ hside hsized]
  obtain ⟨placed, hplace, hplaced, hset⟩ := place_buildPattern hv hg
    (Memory.length_readBytes s.cwm Config.finalBase (totalCodewords s.versionNat))
  obtain ⟨t, hselect, ht, hall, hout⟩ :=
    runMkSelect_of_set (s := { s with mxm := storeGrid s.mxm placed, phase := 6#3 }) rfl hside
      fun r c hr hc h => by rw [cell_eq_get rfl hside hplaced hr hc]; exact hset r c hr hc h
  refine ⟨_, runMxPlace_ok.2 ⟨hphase, placed, ?_, rfl⟩, t, hselect, ht, hall, fun a ha => ?_⟩
  · rw [hsize, hload]
    exact hplace
  · rw [hout a ha, read_storeGrid_outside _ hside hplaced ha, hmxm, read_storeGrid_outside _ hside hsized ha]
    rfl

/-- After CW_ASSEMBLE the last three rules succeed. They write MX_SIZE, the registers of the masks, PHASE and MXM, set
every cell of the symbol and leave 0 outside it (48_top.md R496). -/
theorem runMkSelect_of_assembled {s : State} (hphase : 4 ≤ s.phaseNat) (hv : legalVersion s.versionNat = true) :
    ∃ s5, runMxInit s = .ok s5 ∧ ∃ s6, runMxPlace s5 = .ok s6 ∧ ∃ t, runMkSelect s6 = .ok t ∧
      t = State.withSelection { s with mxSize := BitVec.ofNat 8 (gridSide s.versionNat) } t ∧
      t.CellsSet (gridSide s.versionNat) ∧
      ∀ a, outsideSymbol (gridSide s.versionNat) a = true → t.mxm.read a = 0#8 := by
  obtain ⟨g, -, hg, -, -⟩ := buildPattern_models hv
  have hside := gridSide_le hv
  have hsize : (BitVec.ofNat 8 (gridSide s.versionNat)).toNat = gridSide s.versionNat := Nat.mod_eq_of_lt (by omega)
  have hrest := runMkSelect_of_built (s := { s with
    mxm := storeGrid clearedMxm g, mxSize := BitVec.ofNat 8 (gridSide s.versionNat), phase := 5#3 }) rfl hv hg hsize rfl
  exact ⟨_, runMxInit_ok.2 ⟨hphase, hv, g, hg, rfl⟩, hrest⟩

/-! ### ENCODE (48_top.md R495, R496) -/

theorem selectVersion_eq_none {m : Mode} {n : Nat} {lev : EcLevel}
    (h : ∀ v, 1 ≤ v → v ≤ 40 → 8 * dataCodewords v lev < reqBits m n v) : selectVersion m n lev = none := by
  rw [selectVersion_eq_none_iff, Bool.eq_false_iff, ne_eq, fits_iff_of_legal (by decide) (by decide), Nat.not_le]
  exact h 40 (by decide) (by decide)

theorem runEncode_tooLong {s : State} (h : Config.txtSize < s.textBytes) : runEncode s = .error .invalidParameter :=
  runChain_cons_of_error (runDeAnalyze_error h)

theorem runEncode_inputTooLarge {s : State} (hlen : s.textBytes ≤ Config.txtSize)
    (hnone : selectVersion (modeOf s.text) s.textBytes s.ecLevel = none) : runEncode s = .error .inputTooLarge :=
  (runChain_cons_of_ok (runDeAnalyze_ok.2 ⟨hlen, rfl⟩)).trans
    (runChain_cons_of_error (runDeVersion_inputTooLarge le_rfl (Mode.ofCode_code _) hlen hnone))

/-- Settles O45: the first four rules take a text that fits (`runCwAssemble_of_fits`), the last three take what those
leave (`runMkSelect_of_assembled`); a text that is refused fails in one of the first two. -/
theorem encodeCompletes : Obligations.EncodeCompletes := by
  intro s
  refine ⟨fun hlen => ⟨_, _, rfl, rfl, fun v h1 h40 hfits hleast => ?_, fun hnone =>
    exec_error (i := .encode) (runEncode_inputTooLarge hlen (selectVersion_eq_none hnone))⟩,
    fun hlen => exec_error (i := .encode) (runEncode_tooLong hlen)⟩
  obtain ⟨v, rfl⟩ : ∃ w : BitVec 6, v = w.toNat := ⟨BitVec.ofNat 6 v, (Nat.mod_eq_of_lt (by omega)).symm⟩
  have hlegal : legalVersion v.toNat = true := legalVersion_iff.2 ⟨h1, h40⟩
  have hversion : BitVec.ofNat 6 v.toNat = v := by simp
  obtain ⟨s1, hr1, s2, hr2, s3, hr3, cwm, hr4, hcwm⟩ :=
    runCwAssemble_of_fits hlen hlegal (selectVersion_eq_some h1 h40 hfits hleast) hfits
  obtain ⟨s5, hr5, s6, hr6, t, hr7, ht, hset, hout⟩ :=
    runMkSelect_of_assembled (s := s.assembled v cwm) le_rfl hlegal
  have hrun := runEncode_ok.2 ⟨s1, hr1, s2, hr2, s3, hr3, _, hr4, s5, hr5, s6, hr6, hr7⟩
  obtain rfl : t.cwm = cwm := by rw [ht]; rfl
  refine ⟨_, exec_ok (i := .encode) hrun, ?_, hcwm, hset, hout⟩
  rw [hversion]
  exact congrArg State.succeed ht

end Sys2Proof.Machine

/-! The PHASE of every command (O10), what a failed command leaves (O8), and the resets and the writes to STATUS (O46,
O54, O55). -/

namespace Sys2Proof.Machine

/-! ### The sequencing table (70_reset_and_hazards.md R580) -/

/-- PHASE is the first thing a rule checks: outside its PHASE it raises SEQUENCE whatever else is wrong. -/
theorem runOf_sequence {i : Instr} {s : State} (h : phaseAllows i s.phaseNat = false) :
    runOf i s = .error .sequence := by
  cases i with
  | nop | gfMul a b | gfDiv a b | gfExp i | gfLog a | rsGen n | rsEnc n | deAnalyze | encode => cases h
  | deVersion | dePack | cwAssemble | mxInit | mkScore | mxFormat k | mxVersionInfo =>
    exact if_pos (Nat.lt_of_not_le (of_decide_eq_false h))
  | mxPlace | mkSelect | render => exact if_pos (ne_of_beq_false h)
  | mkApply k =>
    obtain ⟨h6, h7⟩ := Bool.or_eq_false_iff.1 h
    exact if_pos ⟨ne_of_beq_false h6, ne_of_beq_false h7⟩

theorem phaseAllows_of_runOf_ok {i : Instr} {s t : State} (h : runOf i s = .ok t) :
    phaseAllows i s.phaseNat = true := by
  by_contra hp
  rw [runOf_sequence (Bool.eq_false_of_not_eq_true hp)] at h
  cases h

theorem withResult_phaseNat {s t : State} {r : Except ErrorCode Byte} (h : s.withResult r = .ok t) :
    t.phaseNat = s.phaseNat := by
  obtain ⟨b, -, rfl⟩ := withResult_ok.1 h
  rfl

theorem runMkSelect_phaseNat {s t : State} (h : runMkSelect s = .ok t) : t.phaseNat = 7 := by
  obtain ⟨-, -, rfl⟩ := runMkSelect_ok.1 h
  rfl

/-- A rule that succeeds writes the PHASE of the table. -/
theorem runOf_phaseNat {i : Instr} {s t : State} (h : runOf i s = .ok t) :
    t.phaseNat = phaseAfter i s.phaseNat := by
  cases i with
  | nop | gfMul a b | gfExp i => cases h; rfl
  | gfDiv a b | gfLog a => exact withResult_phaseNat h
  | rsGen n => obtain ⟨-, rfl⟩ := runRsGen_ok.1 h; rfl
  | rsEnc n => obtain ⟨-, rfl⟩ := runRsEnc_ok.1 h; rfl
  | deAnalyze => obtain ⟨-, rfl⟩ := runDeAnalyze_ok.1 h; rfl
  | deVersion => obtain ⟨-, m, -, -, v, -, rfl⟩ := runDeVersion_ok.1 h; rfl
  | dePack => obtain ⟨-, m, -, -, -, -, rfl⟩ := runDePack_ok.1 h; rfl
  | cwAssemble => obtain ⟨-, -, rfl⟩ := runCwAssemble_ok.1 h; rfl
  | mxInit => obtain ⟨-, -, g, -, rfl⟩ := runMxInit_ok.1 h; rfl
  | mxPlace => obtain ⟨-, g, -, rfl⟩ := runMxPlace_ok.1 h; rfl
  | mkApply k => obtain ⟨-, m, -, rfl⟩ := runMkApply_ok.1 h; rfl
  | mkScore => obtain ⟨-, -, rfl⟩ := runMkScore_ok.1 h; rfl
  | mxFormat k => obtain ⟨-, m, -, rfl⟩ := runMxFormat_ok.1 h; rfl
  | mxVersionInfo => obtain ⟨-, rfl⟩ := runMxVersionInfo_ok.1 h; rfl
  | mkSelect => exact runMkSelect_phaseNat h
  | render => obtain ⟨-, -, -, -, rfl⟩ := runRender_ok.1 h; rfl
  | encode =>
    obtain ⟨s1, -, s2, -, s3, -, s4, -, s5, -, s6, -, h7⟩ := runEncode_ok.1 h
    exact runMkSelect_phaseNat h7

/-- Settles O10: outside its PHASE the rule raises SEQUENCE (`runOf_sequence`), and ERRCODE 0 means that the rule
succeeded, so it was allowed and PHASE is the table's (`runOf_phaseNat`). -/
theorem sequencingTable : Obligations.SequencingTable := by
  refine fun i s => ⟨fun h => exec_error (runOf_sequence h), fun t ht h0 => ?_⟩
  obtain rfl := exec_next.1 ht
  obtain ⟨u, hu⟩ := State.complete_errcode_zero.1 h0
  rw [hu]
  exact ⟨phaseAllows_of_runOf_ok hu, runOf_phaseNat (t := u) hu⟩

/-! ### A failed command (60_exceptions.md R520, R523) -/

theorem ErrorCode.one_le_code (e : ErrorCode) : 1 ≤ e.code.toNat :=
  Nat.one_le_iff_ne_zero.2 fun h => e.code_ne_zero (BitVec.eq_of_toNat_eq h)

/-- The engine's step on a pending command leaves ERR = 1 only by the one operation that raises an error. -/
theorem engineStep_err {s t : State} (hb : s.status.busy = true) (h : engineStep s = .next t)
    (herr : t.status.err = true) : ∃ e, t = s.raise e := by
  obtain rfl := Host.Outcome.next.inj ((engineStep_eq s).symm.trans h)
  rw [if_pos hb] at herr ⊢
  cases hd : decodeWord s.cmd with
  | error e => exact ⟨.illegalCommand, rfl⟩
  | ok i =>
    rw [hd] at herr
    obtain ⟨e, he⟩ := State.complete_err.1 herr
    exact ⟨e, congrArg s.complete he⟩

/-- Settles O8: an error is raised by `State.raise` only (`engineStep_err`), which writes ERRCODE and STATUS. -/
theorem failedCommandChangesNothingElse : Obligations.FailedCommandChangesNothingElse := by
  refine ⟨fun s t hb h herr => ?_, fun s e => rfl, fun s => ⟨rfl, rfl, rfl, rfl, rfl, rfl⟩⟩
  obtain ⟨e, rfl⟩ := engineStep_err hb h herr
  exact ⟨rfl, e.one_le_code, e.code_le, e, rfl⟩

/-! ### Reset (70_reset_and_hazards.md R570, R571, R573) -/

theorem readReg_powerOn (txt cwm mxm pix : Memory) (pixMax : Nat) (turns : List Turn) (r : Reg) :
    (State.powerOn txt cwm mxm pix pixMax turns).readReg r = resetValue r := by
  cases r with
  | status => exact BitVec.eq_of_toNat_eq (Status.toWord_toNat _)
  | score k => fin_cases k <;> rfl
  | _ => rfl

/-- The soft reset keeps the answer of the last access, which no register shows (log 4). -/
theorem readReg_softReset (s : State) (r : Reg) : s.softReset.readReg r = resetValue r :=
  readReg_powerOn s.txt s.cwm s.mxm s.pix s.pixMax s.turns r

/-- Settles O46: each register is read off the reset state. -/
theorem resetValues : Obligations.ResetValues := fun txt cwm mxm pix pixMax turns r =>
  ⟨readReg_powerOn txt cwm mxm pix pixMax turns r, rfl⟩

/-- Settles O55: the registers of a hard reset meet the invariant (`powerOn_inv`), and empty memories are canonical. -/
theorem resetMeetsInvariant : Obligations.ResetMeetsInvariant :=
  ⟨powerOn_inv rfl, fun _ _ _ _ _ _ => powerOn_inv⟩

/-! ### Writes to CTRL and STATUS -/

/-- CTRL and STATUS take a write also while a command is pending (20_memory.md R106). -/
theorem hostWrite_ctrl_status {r : Reg} (hr : r = .ctrl ∨ r = .status) (s : State) (w : Width) (v : Word) :
    s.hostWrite w (.reg r.offset) v = s.writeReg v r := by
  rw [State.hostWrite, Reg.ofOffset_eq_some.2 rfl]
  rcases hr with rfl | rfl <;> simp

/-- A word access to a register's own address reaches it (20_memory.md R102). -/
theorem busTarget_regAddr (pixMax : Nat) (r : Reg) : busTarget pixMax .word r.addr = .ok (.reg r.offset) := by
  have hlt := r.offset_lt
  rw [busTarget_reg, Reg.addr_toNat]
  exact ⟨rfl, by omega, r.offset_aligned, rfl⟩

theorem step_write_ctrl_status {s : State} {v : Word} {ts : List Turn} {r : Reg} (hr : r = .ctrl ∨ r = .status)
    (h : s.turns = .host (.write .word r.addr v) :: ts) :
    step s = .next { ({ s with turns := ts } : State).writeReg v r with reply := .written } := by
  rw [step_write h (busTarget_regAddr s.pixMax r), hostWrite_ctrl_status hr]

theorem writeReg_ctrl_reset {v : Word} (h : v.getLsbD 0 = true) (s : State) : s.writeReg v .ctrl = s.softReset :=
  if_pos h

theorem writeReg_ctrl_ignored {v : Word} (h : v.getLsbD 0 = false) (s : State) : s.writeReg v .ctrl = s := by
  rw [State.writeReg, h]; rfl

/-- Settles O54: CTRL and STATUS take their write at any time (`step_write_ctrl_status`). -/
theorem softResetAndStatusWrites : Obligations.SoftResetAndStatusWrites := by
  refine fun s v ts => ⟨fun h h1 => ?_, fun h h0 => ?_, fun h => step_write_ctrl_status (r := .status) (.inr rfl) h⟩
  · refine ⟨_, step_write_ctrl_status (r := .ctrl) (.inl rfl) h, ?_⟩
    rw [writeReg_ctrl_reset h1]
    exact ⟨fun r => readReg_softReset { s with turns := ts } r, rfl, rfl, rfl, rfl, rfl, rfl, rfl⟩
  · rw [step_write_ctrl_status (r := .ctrl) (.inl rfl) h, writeReg_ctrl_ignored h0]

end Sys2Proof.Machine
